-- ==== Sys2Proof/Word.lean ====
section
/-! DEFINITION. The words of the machine and its two small name types. Bit 0 is the least significant bit and
every value is unsigned (00_scope R10). -/

namespace Sys2Proof

/-- One byte: a port datum, a memory location, a character code, an attribute (20_memory R61, R62). -/
abbrev Byte := BitVec 8

/-- A 32-bit integer: "all integers 32-bit" (00_scope R7, `WORD_BITS`). -/
abbrev Word := BitVec 32

/-- A 32-bit physical address (20_memory R52). -/
abbrev Addr := BitVec 32

/-- A 16-bit I/O port address (20_memory R51). -/
abbrev PortAddr := BitVec 16

/-- A 72-bit command word (30_encoding R80). -/
abbrev Command := BitVec 72

/-- The serial port a SER command names (10_state R24, 30_encoding R88). -/
inductive Port where
  | com1
  | com2
deriving DecidableEq, Repr, Inhabited

/-- A byte order: which byte of a word comes first (20_memory R58). -/
inductive ByteOrder where
  | le
  | be
deriving DecidableEq, Repr, Inhabited

end Sys2Proof
end

