-- ==== Sys2Proof/Syntax.lean ====
section
/-! DEFINITION. The fourteen commands of 30_encoding R84, one constructor per row of the opcode table. A command
carries its operand `a` as the 32-bit field the host delivers (30_encoding R80, R85), also where only its low bits are
used (formats A4 and A8); that the reserved bits are zero is `Instr.wf`. -/

namespace Sys2Proof

/-- The commands. `a`, `b` are the operand fields of 30_encoding R80; `p` is the port of R88. -/
inductive Instr where
  /-- CRC.RESET, format N, 41_crc32 R122. -/
  | crcReset
  /-- CRC.BYTE, format A8, 41_crc32 R123. -/
  | crcByte (a : Word)
  /-- CRC.WORD, format A32, 41_crc32 R124. -/
  | crcWord (a : Word)
  /-- CRC.BUF, format AB: address and length, 41_crc32 R125. -/
  | crcBuf (a b : Word)
  /-- CRC.FINAL, format N, 41_crc32 R126. -/
  | crcFinal
  /-- CON.CLEAR, format N, 42_console R142. -/
  | conClear
  /-- CON.SETPOS, format A32, 42_console R143. -/
  | conSetpos (a : Word)
  /-- CON.FG, format A4, 42_console R144. -/
  | conFg (a : Word)
  /-- CON.BG, format A4, 42_console R145. -/
  | conBg (a : Word)
  /-- CON.PUTC, format A32, 42_console R146. -/
  | conPutc (a : Word)
  /-- SER.RESET, format P, 43_serial R172. -/
  | serReset (p : Port)
  /-- SER.BAUD, format AP: rate and port, 43_serial R174. -/
  | serBaud (a : Word) (p : Port)
  /-- SER.RXB, format P, 43_serial R178. -/
  | serRxb (p : Port)
  /-- SER.RXW, format P, 43_serial R180. -/
  | serRxw (p : Port)
deriving DecidableEq, Repr, Inhabited

/-- The mnemonic of 30_encoding R84. -/
def Instr.mnemonic : Instr → String
  | .crcReset => "CRC.RESET"
  | .crcByte _ => "CRC.BYTE"
  | .crcWord _ => "CRC.WORD"
  | .crcBuf _ _ => "CRC.BUF"
  | .crcFinal => "CRC.FINAL"
  | .conClear => "CON.CLEAR"
  | .conSetpos _ => "CON.SETPOS"
  | .conFg _ => "CON.FG"
  | .conBg _ => "CON.BG"
  | .conPutc _ => "CON.PUTC"
  | .serReset _ => "SER.RESET"
  | .serBaud _ _ => "SER.BAUD"
  | .serRxb _ => "SER.RXB"
  | .serRxw _ => "SER.RXW"

/-- The five commands of the CON unit: what a progress report is made of (45_loader_sequence R213). -/
def Instr.isCon : Instr → Bool
  | .conClear => true
  | .conSetpos _ => true
  | .conFg _ => true
  | .conBg _ => true
  | .conPutc _ => true
  | .crcReset => false
  | .crcByte _ => false
  | .crcWord _ => false
  | .crcBuf _ _ => false
  | .crcFinal => false
  | .serReset _ => false
  | .serBaud _ _ => false
  | .serRxb _ => false
  | .serRxw _ => false

end Sys2Proof
end

