-- ==== Sys2Proof/Config.lean ====
section
/-! DEFINITION. What a build of the block fixes: the constants of 00_scope R7, the open parameters of R8 with the
reference profile P0, the constraints of R9, and the free values (opaque constants, no body). -/

namespace Sys2Proof.Config

/-- `WIDTH` (00_scope R7). -/
abbrev width : Nat := 80
/-- `HEIGHT` (00_scope R7). -/
abbrev height : Nat := 25
/-- `CELLS = WIDTH*HEIGHT` (00_scope R7). -/
abbrev cells : Nat := 2000
/-- `CRC_POLY` (00_scope R7). -/
abbrev crcPoly : Word := 0xEDB88320
/-- `BAUD_BASE`, which is `BAUD_MAX` too (00_scope R7). -/
abbrev baudBase : Nat := 115200
/-- `BAUD_MIN` (00_scope R7). -/
abbrev baudMin : Nat := 2
/-- `MAX_SEGMENTS` (00_scope R7). -/
abbrev maxSegments : Nat := 16

/-- The open parameters of 00_scope R8, one field each, in the order of its table. -/
structure Params where
  serWordOrder : ByteOrder
  crcWordOrder : ByteOrder
  crcInit : Word
  crcXorout : Word
  videoBase : Addr
  crtcIndexPort : PortAddr
  crtcDataPort : PortAddr
  cursorLoIdx : Byte
  cursorHiIdx : Byte
  com1Base : PortAddr
  com2Base : PortAddr
  uartDataOff : PortAddr
  uartIerOff : PortAddr
  uartDllOff : PortAddr
  uartDlmOff : PortAddr
  uartFcrOff : PortAddr
  uartLcrOff : PortAddr
  uartLsrOff : PortAddr
  ierAllOff : Byte
  lcr8n1 : Byte
  lcrDlab : Byte
  fcrResetEnable : Byte
  lsrDr : Byte
  blankCode : Byte
  replacementGlyph : Byte
  defaultAttr : Byte
deriving DecidableEq, Repr

/-- The reference profile P0 (00_scope R8). -/
def P0 : Params where
  serWordOrder := .le
  crcWordOrder := .le
  crcInit := 0xFFFFFFFF
  crcXorout := 0xFFFFFFFF
  videoBase := 0x000B8000
  crtcIndexPort := 0x03D4
  crtcDataPort := 0x03D5
  cursorLoIdx := 0x0F
  cursorHiIdx := 0x0E
  com1Base := 0x03F8
  com2Base := 0x02F8
  uartDataOff := 0
  uartIerOff := 1
  uartDllOff := 0
  uartDlmOff := 1
  uartFcrOff := 2
  uartLcrOff := 3
  uartLsrOff := 5
  ierAllOff := 0x00
  lcr8n1 := 0x03
  lcrDlab := 0x80
  fcrResetEnable := 0x07
  lsrDr := 0x01
  blankCode := 0x20
  replacementGlyph := 0xFE
  defaultAttr := 0x07

/-- The bytes with exactly one bit set (00_scope R9 d, e). -/
def oneBitMasks : List Byte := [0x01, 0x02, 0x04, 0x08, 0x10, 0x20, 0x40, 0x80]

/-- `port` is outside the eight-port register block at `base` (00_scope R9 b). -/
abbrev outsideBlock (base port : PortAddr) : Prop := port.toNat < base.toNat ∨ base.toNat + 7 < port.toNat

/-- The constraints of 00_scope R9 on a choice of the parameters. DEDUCED (log 20): every UART offset lies in the
eight-port block of R9 b, and the two shared registers of R9 a do not share with each other (92_eei D11). -/
structure Params.Ok (c : Params) : Prop where
  dataIsDll : c.uartDataOff = c.uartDllOff
  ierIsDlm : c.uartIerOff = c.uartDlmOff
  offsetsDistinct :
    [c.uartDataOff, c.uartIerOff, c.uartFcrOff, c.uartLcrOff, c.uartLsrOff].Pairwise (· ≠ ·)
  offsetsInBlock :
    ∀ o ∈ [c.uartDataOff, c.uartIerOff, c.uartFcrOff, c.uartLcrOff, c.uartLsrOff], o.toNat < 8
  com1Fits : c.com1Base.toNat + 7 ≤ 0xFFFF
  com2Fits : c.com2Base.toNat + 7 ≤ 0xFFFF
  blocksDisjoint : c.com1Base.toNat + 7 < c.com2Base.toNat ∨ c.com2Base.toNat + 7 < c.com1Base.toNat
  indexOutside1 : outsideBlock c.com1Base c.crtcIndexPort
  indexOutside2 : outsideBlock c.com2Base c.crtcIndexPort
  dataOutside1 : outsideBlock c.com1Base c.crtcDataPort
  dataOutside2 : outsideBlock c.com2Base c.crtcDataPort
  crtcDistinct : c.crtcIndexPort ≠ c.crtcDataPort
  videoFits : c.videoBase.toNat + 2 * cells ≤ 2 ^ 32
  dlabOneBit : c.lcrDlab ∈ oneBitMasks
  lcr8n1NoDlab : c.lcr8n1 &&& c.lcrDlab = 0
  drOneBit : c.lsrDr ∈ oneBitMasks
  cursorIdxDistinct : c.cursorLoIdx ≠ c.cursorHiIdx

/-- The I/O base of a serial port (00_scope R12, 10_state R24). -/
def Params.base (c : Params) : Port → PortAddr
  | .com1 => c.com1Base
  | .com2 => c.com2Base

/-- What the environment does at one moment between two bus events of a UART (43_serial R182): the bytes it moves from
the line to the back of the receive queue, and the value the bits of LSR other than data ready read as then. -/
structure Moment where
  arrived : List Byte
  lsr : Byte
deriving DecidableEq, Repr, Inhabited

/-- FREE VALUE: what the environment does at the moment of bus event number `n` on a port whose scripted moments are
used up (43_serial R182; log 8). -/
opaque laterMoment : Port → Nat → Moment

/-- FREE VALUE: the byte a read returns where the spec says it is arbitrary, at bus event number `n` (43_serial R182 c;
log 13). -/
opaque arbitraryByte : Nat → Byte

/-- FREE VALUE: the commands of progress or diagnostic report number `n` once the given reports are used up
(45_loader_sequence R213, 60_exceptions R240; log 16). -/
opaque laterReport : Nat → List Instr

end Sys2Proof.Config
end

