-- ==== Sys2Proof/Machine/Memory.lean ====
section
/-! DEFINITION. Physical memory (10_state R39, 20_memory R52): a total map from 32-bit addresses to bytes, held as the
list of its (address, byte) pairs in one canonical form. -/

namespace Sys2Proof.Machine

/-- Memory as plain data: addresses strictly rising, and no entry equal to what an unlisted address reads as. -/
abbrev Memory := List Host.Cell

/-- What an address that is not listed reads as. DESIGN CHOICE 0 (log 5): the spec leaves the initial content of memory
unspecified (10_state R42). -/
def Memory.unlisted : Byte := 0

/-- The byte at address `a` (20_memory R53). -/
def Memory.read : Memory → Nat → Byte
  | [], _ => Memory.unlisted
  | (k, w) :: m, a => if a = k then w else Memory.read m a

/-- `(a, v)` in front of `m`, unless an unlisted address reads as `v` anyway. -/
def Memory.consUnless (a : Nat) (v : Byte) (m : Memory) : Memory :=
  if v = Memory.unlisted then m else (a, v) :: m

/-- Store `v` at address `a` (20_memory R54), keeping the canonical form. -/
def Memory.write : Memory → Nat → Byte → Memory
  | [], a, v => Memory.consUnless a v []
  | (k, w) :: m, a, v =>
    if a < k then Memory.consUnless a v ((k, w) :: m)
    else if a = k then Memory.consUnless a v m
    else (k, w) :: Memory.write m a v

/-- The canonical form from address `lo` on: every entry at or above `lo`, rising, inside the 32-bit space and not an
unlisted value. -/
def Memory.wfFrom : Nat → Memory → Bool
  | _, [] => true
  | lo, (k, w) :: m =>
    decide (lo ≤ k) && decide (k < 2 ^ 32) && decide (w ≠ Memory.unlisted) && Memory.wfFrom (k + 1) m

/-- The canonical form of memory. -/
def Memory.wf (m : Memory) : Bool := Memory.wfFrom 0 m

end Sys2Proof.Machine
end

