-- ==== Sys2Proof/Machine/State.lean ====
section
/-! DEFINITION. The state of the machine as plain data: the block's registers, the two UARTs, the video hardware's cursor,
physical memory, the command in progress, the host and its LOAD sequence (10_state R20, R44; 45_loader_sequence R202). -/

namespace Sys2Proof.Machine

/-- Why a run stops: the two situations of the spec's own table of faults, 60_exceptions R236, which "have no meaning in the
source, and a model must not give them one". -/
inductive Fault where
  /-- Raised by CRC.BYTE, CRC.WORD, CRC.BUF, CRC.FINAL before any CRC.RESET and by CON.SETPOS, CON.FG, CON.BG, CON.PUTC
  before any CON.CLEAR: the first line of the pseudocode of each of the eight, 10_state R27, 60_exceptions R236, 92_eei D10,
  93_implementation_defined U1 and U2. Safe: nothing is provable past it. -/
  | useBeforeInit
  /-- Raised by CRC.BUF with `a + b > 2^32` and by a LOAD segment with `dest + len > 2^32` (20_memory R55). Safe: the run
  stops where the hardware does something the spec does not say. -/
  | addressRange
deriving DecidableEq, Repr

/-- Why a step has no meaning. -/
inductive Refusal where
  /-- Raised by `exec` for a command without a meaning; no arm answers so in this model. Safe. -/
  | notModelled (mnemonic : String)
deriving DecidableEq, Repr

/-- The status names of 30_encoding R83; no other status is ever produced. -/
inductive Status where
  | ok
  | errPosition
  | errBaud
  | illegal
deriving DecidableEq, Repr

/-- A response: the status and the 32-bit value (30_encoding R82). -/
structure Response where
  status : Status
  value : Word
deriving DecidableEq, Repr

/-- One entry of the history of 20_memory R70: the four bus events, and the responses (92_eei D27). -/
inductive Event where
  /-- `out(port, v)`. -/
  | out (port : PortAddr) (v : Byte)
  /-- `in(port) = v`. -/
  | inp (port : PortAddr) (v : Byte)
  /-- `wr(addr, v)`. -/
  | wr (addr : Addr) (v : Byte)
  /-- `rd(addr) = v`. -/
  | rd (addr : Addr) (v : Byte)
  /-- The response that ends a command. -/
  | resp (r : Response)
deriving DecidableEq, Repr

/-- One UART with the serial line behind it (10_state R30 to R32, R40; 43_serial R182). -/
structure Uart where
  /-- IER, the interrupt enables (R31). -/
  ier : Byte
  /-- LCR, the line control with DLAB in it (R31). -/
  lcr : Byte
  /-- FCR, the value last written to the FIFO control (R31). -/
  fcr : Byte
  /-- DLL, bits 7:0 of the divisor (R31). -/
  dll : Byte
  /-- DLM, bits 15:8 of the divisor (R31). -/
  dlm : Byte
  /-- Whether the FIFOs are enabled (R31, R42). -/
  fifoOn : Bool
  /-- rxq(p): the bytes received and not yet read, oldest first (R40 a, 43_serial R182). -/
  rxq : List Byte
  /-- The transmit FIFO, oldest first (R40 e). -/
  txq : List Byte
  /-- line(p), as the environment will deliver it: one entry for each coming event of this UART (log 8). -/
  line : List Config.Moment
deriving DecidableEq, Repr

/-- The variables of LOAD that hold a word (45_loader_sequence R202, R204). -/
inductive LoadVar where
  /-- `start`. -/
  | start
  /-- `n`. -/
  | count
  /-- `dest[k]` of the pair being received. -/
  | dest
  /-- `len[k]` of the pair being received. -/
  | len
  /-- `dck`. -/
  | dataSum
  /-- `hck`. -/
  | headerSum
  /-- `hd`. -/
  | headerDigest
  /-- `dd`. -/
  | dataDigest
deriving DecidableEq, Repr

/-- A segment descriptor (45_loader_sequence R202). -/
structure Segment where
  dest : Addr
  len : Word
deriving DecidableEq, Repr

/-- The state of LOAD (45_loader_sequence R202). -/
structure Loader where
  port : Port
  start : Word
  count : Word
  dest : Word
  len : Word
  dataSum : Word
  headerSum : Word
  headerDigest : Word
  dataDigest : Word
  /-- The table of descriptors, in declared order; at most 16 are ever in it. -/
  segs : List Segment
deriving DecidableEq, Repr

/-- The fatal outcomes of LOAD (60_exceptions R231). -/
inductive FatalCode where
  | segmentCount
  | headerChecksum
  | dataChecksum
deriving DecidableEq, Repr

/-- What the last LOAD came to (45_loader_sequence R215). -/
inductive LoadStatus where
  /-- No LOAD has been begun. -/
  | none
  /-- LOAD is under way (or waits for ever). -/
  | running
  /-- LOAD returned the start address. -/
  | returned (start : Word)
  /-- LOAD ended in a fatal outcome, with the value recorded. -/
  | fatal (code : FatalCode) (info : Word)
deriving DecidableEq, Repr

/-- One action of the host between two commands (10_state R28, 20_memory R69 c, 45_loader_sequence R204). The actions
after `load` are the parts LOAD is made of. -/
inductive HostOp where
  /-- Issue a command. -/
  | command (w : Command)
  /-- The host's own `MemWrite(a, 1, v)`, outside the cell array (70_reset R277, log 25). -/
  | write (a : Addr) (v : Byte)
  /-- The pseudo-operation `LOAD p`. -/
  | load (p : Port)
  /-- `x <- SER.RXW p`. -/
  | recvWord (x : LoadVar)
  /-- `x <- CRC.FINAL`. -/
  | digest (x : LoadVar)
  /-- Keep the value of the last response in `x`. -/
  | take (x : LoadVar)
  /-- `CRC.WORD x`. -/
  | fold (x : LoadVar)
  /-- Put the received pair into the table. -/
  | addSegment
  /-- `Report(...)`. -/
  | report
  /-- The check of `n` against MAX_SEGMENTS. -/
  | checkCount
  /-- The comparison of step 2. -/
  | checkHeader
  /-- Step 3 for one segment. -/
  | segment (g : Segment)
  /-- The rest of one segment's copy: `n` bytes from address `a` on. -/
  | copy (a : Addr) (n : Nat)
  /-- `MemWrite(a, 1, v)` of the byte just received. -/
  | store (a : Addr)
  /-- The comparison of step 4, and the return of step 5. -/
  | checkData
  /-- The halt of `Fatal(code, info)`. -/
  | halt
deriving DecidableEq, Repr

/-- The whole state. INVENTORY.md lists every field with the rule that names it and its reset value. -/
structure State where
  /-- The parameters of the build (00_scope R8); no step changes them (log 6). -/
  cfg : Config.Params
  /-- ACC (10_state R21). -/
  acc : Word
  /-- valid[CRC] (R27). -/
  validCrc : Bool
  /-- POS (R22). -/
  pos : BitVec 11
  /-- ATTR (R23). -/
  attr : Byte
  /-- valid[CON] (R27). -/
  validCon : Bool
  /-- The cursor index latch (R36, R40 d). -/
  crtcIndex : Byte
  /-- The cursor location (R37). -/
  cursorLoc : BitVec 16
  /-- The UART of COM1. -/
  com1 : Uart
  /-- The UART of COM2. -/
  com2 : Uart
  /-- Physical memory, the cell array in it (20_memory R52, 10_state R33). -/
  mem : Memory
  /-- The command delivered and not yet answered (30_encoding R80, 10_state R28). -/
  cmd : Option Command
  /-- The bytes a SER.RXW in progress has received (10_state R41 b). -/
  rxPart : List Byte
  /-- The last response (30_encoding R82). -/
  resp : Option Response
  /-- What the host will still do, in order (10_state R28). -/
  host : List HostOp
  /-- The variables of LOAD (45_loader_sequence R202). -/
  loader : Loader
  /-- What the last LOAD came to (45_loader_sequence R215). -/
  load : LoadStatus
  /-- The permanent halt (60_exceptions R240). -/
  halted : Bool
  /-- The reports to come, as given from outside (45_loader_sequence R213; log 16). -/
  reports : List (List Instr)
  /-- How many reports were made: the index of the free value `Config.laterReport`. -/
  reportNo : Nat
  /-- How many bus events there were: the index of the free values of 43_serial R182. -/
  now : Nat
  /-- The history (20_memory R70), newest entry first. -/
  hist : List Event
deriving DecidableEq, Repr

/-- A UART after power-on. DESIGN CHOICE 0, off and empty (log 3): R42 leaves it unspecified; that DLAB is clear is
70_reset R271. -/
def Uart.reset : Uart where
  ier := 0
  lcr := 0
  fcr := 0
  dll := 0
  dlm := 0
  fifoOn := false
  rxq := []
  txq := []
  line := []

/-- The variables of LOAD before any LOAD. DESIGN CHOICE COM1, 0 and empty (log 21). -/
def Loader.reset : Loader where
  port := .com1
  start := 0
  count := 0
  dest := 0
  len := 0
  dataSum := 0
  headerSum := 0
  headerDigest := 0
  dataDigest := 0
  segs := []

/-- The machine after power-on (10_state R42): both units without a valid value, nothing delivered, nothing recorded, a
build of profile P0. The registers without a value in the spec read 0 (DESIGN CHOICE, logs 2 to 5, 7 and 21). -/
def State.reset : State where
  cfg := Config.P0
  acc := 0
  validCrc := false
  pos := 0
  attr := 0
  validCon := false
  crtcIndex := 0
  cursorLoc := 0
  com1 := Uart.reset
  com2 := Uart.reset
  mem := []
  cmd := none
  rxPart := []
  resp := none
  host := []
  loader := Loader.reset
  load := .none
  halted := false
  reports := []
  reportNo := 0
  now := 0
  hist := []

end Sys2Proof.Machine
end

