-- ==== Sys2Proof/Machine/Flags.lean ====
section
/-! DEFINITION. The block has no flag register (10_state R29). What stands in its place: the status code of a response
(30_encoding R83), the codes of the fatal outcomes (60_exceptions R231), the two device bits a rule tests, data ready and
DLAB (10_state R31, R32), and the validity of a rate (43_serial R173). -/

namespace Sys2Proof.Machine

/-- The status codes (30_encoding R83). -/
def statusCode : Status → Byte
  | .ok => 0x00
  | .errPosition => 0x01
  | .errBaud => 0x02
  | .illegal => 0x7F

/-- The 40-bit response word: status in bits 39:32, value in bits 31:0 (30_encoding R82). -/
def responseWord (r : Response) : BitVec 40 := statusCode r.status ++ r.value

/-- The codes of the fatal outcomes (60_exceptions R231). -/
def fatalCodeByte : FatalCode → Byte
  | .segmentCount => 0x81
  | .headerChecksum => 0x82
  | .dataChecksum => 0x83

/-- `(s AND LSR_DR) != 0` (43_serial R178). -/
def dataReady (c : Config.Params) (s : Byte) : Bool := s &&& c.lsrDr != 0

/-- DLAB is set in this value of LCR (10_state R31). -/
def dlabSet (c : Config.Params) (lcr : Byte) : Bool := lcr &&& c.lcrDlab != 0

/-- `BaudValid(r)`: the range test first, then the exact division (43_serial R173). -/
def baudValid (r : Word) : Bool :=
  decide (Config.baudMin ≤ r.toNat) && decide (r.toNat ≤ Config.baudBase) && decide (Config.baudBase % r.toNat = 0)

/-- The divisor of a valid rate, `trunc_16(115200 div rate)` (43_serial R174). -/
def baudDivisor (r : Word) : BitVec 16 := BitVec.ofNat 16 (Config.baudBase / r.toNat)

/-- What LSR reads as: data ready exactly when `queue` is not empty, the other seven bits as `other` has them
(43_serial R182 b). -/
def lsrValue (c : Config.Params) (other : Byte) (queue : List Byte) : Byte :=
  (other &&& ~~~c.lsrDr) ||| (if queue.isEmpty then 0 else c.lsrDr)

end Sys2Proof.Machine
end

