-- ==== Sys2Proof/Machine/Operands.lean ====
section
/-! DEFINITION. Operands and data formats: the operand bits a command uses (30_encoding R81, R85), the cutting and the
assembly of words (R93, R94), the attribute byte (R90, 10_state R34), and the classes of a character (42_console R152). -/

namespace Sys2Proof.Machine

/-- `a[7:0]`, the operand of format A8 (30_encoding R81). -/
def byteOperand (a : Word) : Byte := a.extractLsb' 0 8

/-- `zext_8(a[3:0])`, the operand of format A4 (30_encoding R81). -/
def colourOperand (a : Word) : Byte := (a.extractLsb' 0 4).setWidth 8

/-- `a[10:0]`, a position that passed its range check (42_console R143). -/
def posOperand (a : Word) : BitVec 11 := a.extractLsb' 0 11

/-- Byte `k` of a word, `w[8k+7:8k]`. -/
def byteOf (k : Nat) (w : Word) : Byte := w.extractLsb' (8 * k) 8

/-- The four bytes of a word in the stated order, first one first (30_encoding R93). -/
def cutWord (o : ByteOrder) (w : Word) : List Byte :=
  match o with
  | .le => [byteOf 0 w, byteOf 1 w, byteOf 2 w, byteOf 3 w]
  | .be => [byteOf 3 w, byteOf 2 w, byteOf 1 w, byteOf 0 w]

/-- The word assembled from the bytes `b0 b1 b2 b3` in the order in which they came (30_encoding R93). It is asked of
four bytes only; another list has no word and gives 0, which nothing reads. -/
def assembleWord (o : ByteOrder) (bs : List Byte) : Word :=
  match o, bs with
  | .le, [b0, b1, b2, b3] => b3 ++ b2 ++ b1 ++ b0
  | .be, [b0, b1, b2, b3] => b0 ++ b1 ++ b2 ++ b3
  | _, _ => 0

/-- Bits 7:0 of a 16-bit value (30_encoding R94). -/
def lowByte (v : BitVec 16) : Byte := v.extractLsb' 0 8

/-- Bits 15:8 of a 16-bit value (30_encoding R94). -/
def highByte (v : BitVec 16) : Byte := v.extractLsb' 8 8

/-- `{hi, lo}`. -/
def joinBytes (hi lo : Byte) : BitVec 16 := hi ++ lo

/-- The low nibble of the attribute replaced (42_console R144). -/
def setForeground (attr colour : Byte) : Byte := (attr &&& 0xF0#8) ||| colour

/-- The high nibble of the attribute replaced (42_console R145). -/
def setBackground (attr colour : Byte) : Byte := (attr &&& 0x0F#8) ||| (colour <<< 4)

/-- The foreground colour the video hardware shows: bits 3:0 (10_state R34, 30_encoding R90). -/
def videoForeground (attr : Byte) : BitVec 4 := attr.extractLsb' 0 4

/-- The background colour the video hardware shows: bits 6:4 (10_state R34, 30_encoding R90). -/
def videoBackground (attr : Byte) : BitVec 3 := attr.extractLsb' 4 3

/-- Whether the video hardware blinks the text: bit 7 (10_state R34, 30_encoding R90). -/
def videoBlink (attr : Byte) : Bool := attr.getLsbD 7

/-- The five classes of a character operand (42_console R146, R152). -/
inductive CharClass where
  | nul
  | newline
  | printable
  | nonAscii
  | ignored
deriving DecidableEq, Repr

/-- The class of a character operand, in the order of the tests of 42_console R146. -/
def classify (a : Word) : CharClass :=
  if a.toNat = 0x00 then .nul
  else if a.toNat = 0x0A then .newline
  else if 0x20 ≤ a.toNat ∧ a.toNat ≤ 0x7E then .printable
  else if 0x80 ≤ a.toNat then .nonAscii
  else .ignored

end Sys2Proof.Machine
end

