-- ==== Sys2Proof/Machine/Ops.lean ====
section
/-! DEFINITION. The named operations every command is made of: the history, the response and the error outcome, the UART
and cursor devices behind the port bus, the port primitive (40_port_io R110, R111), memory and cells (20_memory R53 to
R57), and the bounded loop of 00_scope R12. -/

namespace Sys2Proof.Machine

/-! ### History and responses -/

/-- One bus event happens: it is appended to the history (20_memory R60, R70). -/
def State.emit (s : State) (e : Event) : State := { s with hist := e :: s.hist, now := s.now + 1 }

/-- `respond(status, value)`: the command ends and the host receives the response (30_encoding R82). -/
def State.respond (s : State) (st : Status) (v : Word) : State :=
  { s with cmd := none, rxPart := [], resp := some ⟨st, v⟩, hist := .resp ⟨st, v⟩ :: s.hist }

/-- `raise <Name>(info)`, the one way a command ends in an error: a response with the error's code and the rejected value,
and nothing else changes (00_scope R12, 60_exceptions R230, R235, R238). There is nothing to return from (R239). -/
def State.raise (s : State) (e : Status) (info : Word) : State := s.respond e info

/-- The bus events of the history, oldest first (20_memory R70). -/
def State.busEvents (s : State) : List Event :=
  s.hist.reverse.filter fun e => match e with | .resp _ => false | _ => true

/-! ### The registers behind the port bus -/

/-- The five I/O ports of a UART; two of them reach a second register while DLAB is set (10_state R30, 00_scope R9 a). -/
inductive UartPort where
  /-- DATA, or DLL while DLAB is set. -/
  | data
  /-- IER, or DLM while DLAB is set. -/
  | ier
  | fcr
  | lcr
  | lsr
deriving DecidableEq, Repr

/-- What owns an I/O port of the block's (10_state R30, R36). -/
inductive Owner where
  | crtcIndex
  | crtcData
  | uart (p : Port) (r : UartPort)
deriving DecidableEq, Repr

/-- The seven registers a UART has for the block (10_state R30). -/
inductive UartReg where
  | data | ier | dll | dlm | fcr | lcr | lsr
deriving DecidableEq, Repr

/-- `UART_X_OFF` (43_serial R171). -/
def uartOffset (c : Config.Params) : UartReg → PortAddr
  | .data => c.uartDataOff
  | .ier => c.uartIerOff
  | .dll => c.uartDllOff
  | .dlm => c.uartDlmOff
  | .fcr => c.uartFcrOff
  | .lcr => c.uartLcrOff
  | .lsr => c.uartLsrOff

/-- `reg(p, X)` (43_serial R171). -/
def reg (c : Config.Params) (p : Port) (x : UartReg) : PortAddr := c.base p + uartOffset c x

/-- The address at which a port of the block's stands (20_memory R63). -/
def portAddress (c : Config.Params) : Owner → PortAddr
  | .crtcIndex => c.crtcIndexPort
  | .crtcData => c.crtcDataPort
  | .uart p .data => reg c p .data
  | .uart p .ier => reg c p .ier
  | .uart p .fcr => reg c p .fcr
  | .uart p .lcr => reg c p .lcr
  | .uart p .lsr => reg c p .lsr

/-- All the ports the block accesses (20_memory R51, R63). -/
def owners : List Owner := [
  .crtcIndex, .crtcData,
  .uart .com1 .data, .uart .com1 .ier, .uart .com1 .fcr, .uart .com1 .lcr, .uart .com1 .lsr,
  .uart .com2 .data, .uart .com2 .ier, .uart .com2 .fcr, .uart .com2 .lcr, .uart .com2 .lsr]

/-- The device that owns an I/O port; a port the block never accesses has none (20_memory R51). -/
def ownerOf (c : Config.Params) (port : PortAddr) : Option Owner :=
  owners.find? fun o => portAddress c o == port

/-! ### The UART -/

/-- The UART of a port (10_state R24). -/
def State.uart (s : State) : Port → Uart
  | .com1 => s.com1
  | .com2 => s.com2

/-- Replace the UART of a port. -/
def State.setUart (s : State) (p : Port) (u : Uart) : State :=
  match p with
  | .com1 => { s with com1 := u }
  | .com2 => { s with com2 := u }

/-- What the environment does at this moment: the next scripted moment, or the free value (43_serial R182; log 8). -/
def momentOf (p : Port) (now : Nat) (u : Uart) : Config.Moment :=
  match u.line with
  | m :: _ => m
  | [] => Config.laterMoment p now

/-- The environment moves the bytes of this moment to the back of the receive queue (43_serial R182 a). -/
def Uart.afterMoment (u : Uart) (m : Config.Moment) : Uart :=
  { u with rxq := u.rxq ++ m.arrived, line := u.line.tail }

/-- A write of `v` to a port of the UART (10_state R31, R40 b; 20_memory R59; 43_serial R182 d, e). Marks, log 14: a
write to DATA with DLAB clear (PRESUMED), a write to LSR and a write of another value to FCR (DESIGN CHOICE) are never made
by the block. -/
def Uart.write (u : Uart) (c : Config.Params) (r : UartPort) (v : Byte) : Uart :=
  match r with
  | .data => if dlabSet c u.lcr then { u with dll := v } else { u with txq := u.txq ++ [v] }
  | .ier => if dlabSet c u.lcr then { u with dlm := v } else { u with ier := v }
  | .fcr =>
    if v = c.fcrResetEnable then { u with fcr := v, fifoOn := true, rxq := [], txq := [] } else { u with fcr := v }
  | .lcr => { u with lcr := v }
  | .lsr => u

/-- A read of a port of the UART: the byte and the UART after it (10_state R32, 20_memory R59, 43_serial R182 b, c, e).
`other` gives the bits of LSR that are free, `free` the byte where the spec says it is arbitrary. DEDUCED (log 15): DATA
read while DLAB is set gives the divisor byte and removes nothing (70_reset R270). -/
def Uart.read (u : Uart) (c : Config.Params) (r : UartPort) (other free : Byte) : Byte × Uart :=
  match r with
  | .data =>
    if dlabSet c u.lcr then (u.dll, u)
    else
      match u.rxq with
      | b :: rest => (b, { u with rxq := rest })
      | [] => (free, u)
  | .lsr => (lsrValue c other u.rxq, u)
  | .lcr => (u.lcr, u)
  | .ier => (free, u)
  | .fcr => (free, u)

/-! ### The cursor registers -/

/-- A write to the cursor data register reaches the location byte the index latch selects (10_state R36, R37). Another
index selects a register of the video hardware that is outside the spec. -/
def State.writeCursorData (s : State) (v : Byte) : State :=
  if s.crtcIndex = s.cfg.cursorLoIdx then { s with cursorLoc := joinBytes (highByte s.cursorLoc) v }
  else if s.crtcIndex = s.cfg.cursorHiIdx then { s with cursorLoc := joinBytes v (lowByte s.cursorLoc) }
  else s

/-! ### The port primitive -/

/-- What the device that owns a port does with a byte written to it (40_port_io R110). -/
def State.deviceWrite (s : State) (o : Option Owner) (v : Byte) : State :=
  match o with
  | none => s
  | some .crtcIndex => { s with crtcIndex := v }
  | some .crtcData => s.writeCursorData v
  | some (.uart p r) =>
    s.setUart p (((s.uart p).afterMoment (momentOf p s.now (s.uart p))).write s.cfg r v)

/-- What the device that owns a port answers to a read (40_port_io R111). -/
def State.deviceRead (s : State) (o : Option Owner) : Byte × State :=
  match o with
  | none => (Config.arbitraryByte s.now, s)
  | some .crtcIndex => (Config.arbitraryByte s.now, s)
  | some .crtcData => (Config.arbitraryByte s.now, s)
  | some (.uart p r) =>
    let m := momentOf p s.now (s.uart p)
    let answer := ((s.uart p).afterMoment m).read s.cfg r m.lsr (Config.arbitraryByte s.now)
    (answer.1, s.setUart p answer.2)

/-- `PortOut(port, v)`: one bus event, and the device takes the byte (40_port_io R110). -/
def portOut (port : PortAddr) (v : Byte) (s : State) : State :=
  (s.deviceWrite (ownerOf s.cfg port) v).emit (.out port v)

/-- `PortIn(port)`: one bus event, with the byte the device supplies (40_port_io R111). -/
def portIn (port : PortAddr) (s : State) : Byte × State :=
  let answer := s.deviceRead (ownerOf s.cfg port)
  (answer.1, answer.2.emit (.inp port answer.1))

/-! ### Memory and cells -/

/-- `MemRead(addr, 1)` (20_memory R53). -/
def memRead (a : Addr) (s : State) : Byte × State :=
  (s.mem.read a.toNat, s.emit (.rd a (s.mem.read a.toNat)))

/-- `MemWrite(addr, 1, v)` (20_memory R54). -/
def memWrite (a : Addr) (v : Byte) (s : State) : State :=
  ({ s with mem := s.mem.write a.toNat v }).emit (.wr a v)

/-- `VIDEO_BASE + 2*i`, the address of the character code of cell `i` (10_state R33). -/
def cellAddr (c : Config.Params) (i : Nat) : Addr := c.videoBase + BitVec.ofNat 32 (2 * i)

/-- `a` is an address of the cell array (10_state R33). -/
abbrev inCellArray (c : Config.Params) (a : Addr) : Prop :=
  c.videoBase.toNat ≤ a.toNat ∧ a.toNat < c.videoBase.toNat + 2 * Config.cells

/-- `CellWrite(i, ch, at)`: the character first, the attribute second (20_memory R56). -/
def cellWrite (i : Nat) (ch attr : Byte) (s : State) : State :=
  memWrite (cellAddr s.cfg i + 1) attr (memWrite (cellAddr s.cfg i) ch s)

/-- `CellRead(i)` (20_memory R57). -/
def cellRead (i : Nat) (s : State) : (Byte × Byte) × State :=
  let ch := memRead (cellAddr s.cfg i) s
  let attr := memRead (cellAddr s.cfg i + 1) ch.2
  ((ch.1, attr.1), attr.2)

/-- The character code and the attribute that cell `i` holds in memory (10_state R33, 30_encoding R91). -/
def State.cell (s : State) (i : Nat) : Byte × Byte :=
  (s.mem.read (cellAddr s.cfg i).toNat, s.mem.read (cellAddr s.cfg i + 1).toNat)

/-- `for i in from .. from+count-1` in ascending order (00_scope R12). -/
def forUp (body : Nat → State → State) : Nat → Nat → State → State
  | _, 0, s => s
  | i, n + 1, s => forUp body (i + 1) n (body i s)

end Sys2Proof.Machine
end

