-- ==== Sys2Proof/Machine/Console.lean ====
section
/-! DEFINITION. The CON unit (42_console): the cursor update, the advance with its scroll, and the five commands. -/

namespace Sys2Proof.Machine

/-- `CursorUpdate()`: four port writes, the low byte of the location first (42_console R141). -/
def cursorUpdate (s : State) : State :=
  let loc : BitVec 16 := s.pos.setWidth 16
  portOut s.cfg.crtcDataPort (highByte loc)
    (portOut s.cfg.crtcIndexPort s.cfg.cursorHiIdx
      (portOut s.cfg.crtcDataPort (lowByte loc)
        (portOut s.cfg.crtcIndexPort s.cfg.cursorLoIdx s)))

/-- One cell of the scroll copied up by a row (42_console R150). -/
def copyCellUp (i : Nat) (s : State) : State :=
  let cell := cellRead (i + Config.width) s
  cellWrite i cell.1.1 cell.1.2 cell.2

/-- Cell `i` made blank in the current attribute (42_console R142, R147, R150). -/
def blankCell (i : Nat) (s : State) : State := cellWrite i s.cfg.blankCode s.attr s

/-- The scroll: rows 1 to 24 move up, row 24 becomes blank, the position is its first cell (42_console R150). -/
def scroll (s : State) : State :=
  let copied := forUp copyCellUp 0 (Config.cells - Config.width) s
  let blanked := forUp blankCell (Config.cells - Config.width) Config.width copied
  { blanked with pos := BitVec.ofNat 11 (Config.cells - Config.width) }

/-- `Advance(n)` (42_console R150). -/
def advance (n : Nat) (s : State) : State :=
  cursorUpdate
    (if s.pos.toNat + n < Config.cells then { s with pos := BitVec.ofNat 11 (s.pos.toNat + n) } else scroll s)

/-- `PutGlyph(g)`: the cell first, the position second (42_console R149). -/
def putGlyph (g : Byte) (s : State) : State := advance 1 (cellWrite s.pos.toNat g s.attr s)

/-- `PutNul()` (42_console R147). -/
def putNul (s : State) : State := advance 1 (blankCell s.pos.toNat s)

/-- `PutNewline()` (42_console R148). -/
def putNewline (s : State) : State := advance (Config.width - s.pos.toNat % Config.width) s

/-- What a character does, by its class (42_console R146 to R152). -/
def putChar (a : Word) (s : State) : State :=
  match classify a with
  | .nul => putNul s
  | .newline => putNewline s
  | .printable => putGlyph (byteOperand a) s
  | .nonAscii => putGlyph s.cfg.replacementGlyph s
  | .ignored => s

/-- The screen cleared: position 0, the default attribute, every cell blank in it, the cursor at 0 (42_console R142). -/
def clearScreen (s : State) : State :=
  cursorUpdate (forUp blankCell 0 Config.cells { s with pos := 0, attr := s.cfg.defaultAttr, validCon := true })

/-- CON.CLEAR (42_console R142). -/
def execConClear (s : State) : Host.Outcome State Fault Refusal := .next ((clearScreen s).respond .ok 0)

/-- CON.SETPOS: validity first, then the range (42_console R143, 60_exceptions R234; the fault: 10_state R27, R236). -/
def execConSetpos (a : Word) (s : State) : Host.Outcome State Fault Refusal :=
  if s.validCon then
    if Config.cells ≤ a.toNat then .next (s.raise .errPosition a)
    else .next ((cursorUpdate { s with pos := posOperand a }).respond .ok 0)
  else .fault .useBeforeInit

/-- CON.FG (42_console R144; the fault: 10_state R27, 60_exceptions R236). -/
def execConFg (a : Word) (s : State) : Host.Outcome State Fault Refusal :=
  if s.validCon then .next (({ s with attr := setForeground s.attr (colourOperand a) }).respond .ok 0)
  else .fault .useBeforeInit

/-- CON.BG (42_console R145; the fault: 10_state R27, 60_exceptions R236). -/
def execConBg (a : Word) (s : State) : Host.Outcome State Fault Refusal :=
  if s.validCon then .next (({ s with attr := setBackground s.attr (colourOperand a) }).respond .ok 0)
  else .fault .useBeforeInit

/-- CON.PUTC: no character is an error (42_console R146; the fault: 10_state R27, 60_exceptions R236). -/
def execConPutc (a : Word) (s : State) : Host.Outcome State Fault Refusal :=
  if s.validCon then .next ((putChar a s).respond .ok 0) else .fault .useBeforeInit

end Sys2Proof.Machine
end

