-- ==== Sys2Proof/Machine/Crc.lean ====
section
/-! DEFINITION. The CRC unit (41_crc32): the byte step, the fold, and the five commands. -/

namespace Sys2Proof.Machine

/-- One of the eight shifts of `crc_step` (41_crc32 R121). -/
def crcShift (t : Word) : Word := if t.getLsbD 0 then (t >>> 1) ^^^ Config.crcPoly else t >>> 1

/-- `crc_step(acc, byte)` (41_crc32 R121). -/
def crcStep (acc : Word) (b : Byte) : Word := Nat.repeat crcShift 8 (acc ^^^ b.setWidth 32)

/-- `crc_fold(acc, bs)`: the first byte first (41_crc32 R121). -/
def crcFold (acc : Word) (bs : List Byte) : Word := bs.foldl crcStep acc

/-- `crc32(bs)`, the digest of a byte sequence (41_crc32 R127). -/
def crc32 (c : Config.Params) (bs : List Byte) : Word := crcFold c.crcInit bs ^^^ c.crcXorout

/-- The fold of memory: `n` bytes from address `a` on, each read once, ascending (41_crc32 R125). -/
def crcMemory : Nat → Addr → State → State
  | 0, _, s => s
  | n + 1, a, s =>
    let byte := memRead a s
    crcMemory n (a + 1) { byte.2 with acc := crcStep byte.2.acc byte.1 }

/-- CRC.RESET (41_crc32 R122). -/
def execCrcReset (s : State) : Host.Outcome State Fault Refusal :=
  .next (({ s with acc := s.cfg.crcInit, validCrc := true }).respond .ok 0)

/-- CRC.BYTE (41_crc32 R123; the fault: 10_state R27, 60_exceptions R236). -/
def execCrcByte (a : Word) (s : State) : Host.Outcome State Fault Refusal :=
  if s.validCrc then .next (({ s with acc := crcStep s.acc (byteOperand a) }).respond .ok 0)
  else .fault .useBeforeInit

/-- CRC.WORD: the four bytes in CRC_WORD_ORDER (41_crc32 R124; the fault: 10_state R27, 60_exceptions R236). -/
def execCrcWord (a : Word) (s : State) : Host.Outcome State Fault Refusal :=
  if s.validCrc then .next (({ s with acc := crcFold s.acc (cutWord s.cfg.crcWordOrder a) }).respond .ok 0)
  else .fault .useBeforeInit

/-- CRC.BUF: validity first, then the bound on the buffer (41_crc32 R125, 60_exceptions R234; the faults: 10_state R27, R236). -/
def execCrcBuf (a b : Word) (s : State) : Host.Outcome State Fault Refusal :=
  if s.validCrc then
    if a.toNat + b.toNat ≤ 2 ^ 32 then .next ((crcMemory b.toNat a s).respond .ok 0)
    else .fault .addressRange
  else .fault .useBeforeInit

/-- CRC.FINAL: the digest, and nothing written (41_crc32 R126; the fault: 10_state R27, 60_exceptions R236). -/
def execCrcFinal (s : State) : Host.Outcome State Fault Refusal :=
  if s.validCrc then .next (s.respond .ok (s.acc ^^^ s.cfg.crcXorout)) else .fault .useBeforeInit

end Sys2Proof.Machine
end

