-- ==== Sys2Proof/Machine/Serial.lean ====
section
/-! DEFINITION. The SER unit (43_serial): the poll for a byte and the four commands. A receive command that finds nothing
ready stays in progress: `cmd` keeps its word, the next step polls again (10_state R41, log 9). -/

namespace Sys2Proof.Machine

/-- One pass of the poll loop: read LSR and, if it shows data ready, read DATA (43_serial R178). -/
def pollByte (p : Port) (s : State) : Option Byte × State :=
  let status := portIn (reg s.cfg p .lsr) s
  if dataReady s.cfg status.1 then
    let byte := portIn (reg s.cfg p .data) status.2
    (some byte.1, byte.2)
  else (none, status.2)

/-- The three port writes of SER.RESET in the listed order (43_serial R172). -/
def resetUart (p : Port) (s : State) : State :=
  portOut (reg s.cfg p .fcr) s.cfg.fcrResetEnable
    (portOut (reg s.cfg p .lcr) s.cfg.lcr8n1 (portOut (reg s.cfg p .ier) s.cfg.ierAllOff s))

/-- SER.RESET (43_serial R172). -/
def execSerReset (p : Port) (s : State) : Host.Outcome State Fault Refusal := .next ((resetUart p s).respond .ok 0)

/-- The bus sequence of SER.BAUD for a valid rate: read LCR, write it back with DLAB set, write the two divisor bytes, write
it back with DLAB clear (43_serial R174). -/
def programDivisor (p : Port) (d : BitVec 16) (s : State) : State :=
  let old := portIn (reg s.cfg p .lcr) s
  portOut (reg s.cfg p .lcr) (old.1 &&& ~~~s.cfg.lcrDlab)
    (portOut (reg s.cfg p .dlm) (highByte d)
      (portOut (reg s.cfg p .dll) (lowByte d)
        (portOut (reg s.cfg p .lcr) (old.1 ||| s.cfg.lcrDlab) old.2)))

/-- SER.BAUD: an invalid rate is refused before any bus event (43_serial R173, R174). -/
def execSerBaud (a : Word) (p : Port) (s : State) : Host.Outcome State Fault Refusal :=
  .next (if baudValid a then (programDivisor p (baudDivisor a) s).respond .ok 0 else s.raise .errBaud a)

/-- SER.RXB: one pass of the poll loop; with a byte it responds, without one the command stays in progress
(43_serial R178, R184). -/
def execSerRxb (p : Port) (s : State) : Host.Outcome State Fault Refusal :=
  let polled := pollByte p s
  .next (match polled.1 with
    | some b => polled.2.respond .ok (b.setWidth 32)
    | none => polled.2)

/-- The rest of SER.RXW, `n` bytes still to come: it goes on as long as the polls show data ready, and responds with the
word in SER_WORD_ORDER after the fourth byte (43_serial R180). -/
def receiveRest (p : Port) : Nat → State → State
  | 0, s => s.respond .ok (assembleWord s.cfg.serWordOrder s.rxPart)
  | n + 1, s =>
    let polled := pollByte p s
    match polled.1 with
    | some b => receiveRest p n { polled.2 with rxPart := polled.2.rxPart ++ [b] }
    | none => polled.2

/-- SER.RXW: from the bytes it has received so far (43_serial R180, 10_state R41 b). -/
def execSerRxw (p : Port) (s : State) : Host.Outcome State Fault Refusal :=
  .next (receiveRest p (4 - s.rxPart.length) s)

end Sys2Proof.Machine
end

