-- ==== Sys2Proof/Machine/Dispatch.lean ====
section
/-! DEFINITION. One arm for each command, each a direct call of its meaning. -/

namespace Sys2Proof.Machine

def exec (i : Instr) (s : State) : Host.Outcome State Fault Refusal :=
  match i with
  -- the CRC unit (41_crc32)
  | .crcReset => Sys2Proof.Machine.execCrcReset s
  | .crcByte a => Sys2Proof.Machine.execCrcByte a s
  | .crcWord a => Sys2Proof.Machine.execCrcWord a s
  | .crcBuf a b => Sys2Proof.Machine.execCrcBuf a b s
  | .crcFinal => Sys2Proof.Machine.execCrcFinal s
  -- the CON unit (42_console)
  | .conClear => Sys2Proof.Machine.execConClear s
  | .conSetpos a => Sys2Proof.Machine.execConSetpos a s
  | .conFg a => Sys2Proof.Machine.execConFg a s
  | .conBg a => Sys2Proof.Machine.execConBg a s
  | .conPutc a => Sys2Proof.Machine.execConPutc a s
  -- the SER unit (43_serial)
  | .serReset p => Sys2Proof.Machine.execSerReset p s
  | .serBaud a p => Sys2Proof.Machine.execSerBaud a p s
  | .serRxb p => Sys2Proof.Machine.execSerRxb p s
  | .serRxw p => Sys2Proof.Machine.execSerRxw p s

end Sys2Proof.Machine
end

