-- ==== Sys2Proof/WellFormed.lean ====
section
/-! DEFINITION. Well-formed commands: the reserved bits of the operand `a` are zero (30_encoding R81, R86). Formats A32
and AB use every bit of their operands, and a port is a name, so they have nothing to check. -/

namespace Sys2Proof

/-- The reserved bits of every operand are zero: `a[31:8]` in format A8, `a[31:4]` in format A4 (30_encoding R81). -/
def Instr.wf : Instr → Bool
  | .crcByte a => decide (a.toNat < 256)
  | .conFg a => decide (a.toNat < 16)
  | .conBg a => decide (a.toNat < 16)
  | .crcReset => true
  | .crcWord _ => true
  | .crcBuf _ _ => true
  | .crcFinal => true
  | .conClear => true
  | .conSetpos _ => true
  | .conPutc _ => true
  | .serReset _ => true
  | .serBaud _ _ => true
  | .serRxb _ => true
  | .serRxw _ => true

end Sys2Proof
end

