-- ==== Sys2Proof/Decode.lean ====
section
/-! DEFINITION. The decoder and the encoder of the 72-bit command word (30_encoding R80, R81, R84 to R88), and the
opcode table's masks and matches (R84). -/

namespace Sys2Proof

/-- Why a command word is no command. Both are answered ILLEGAL (30_encoding R86, R87). -/
inductive DecodeError where
  /-- One of the 242 values of `op` that R84 does not list (R87). -/
  | undefinedOpcode
  /-- An opcode of R84 with a reserved operand bit set (R86). -/
  | reservedBits
deriving DecidableEq, Repr

/-- Bits 71:64 (30_encoding R80). -/
def opField (w : Command) : Byte := w.extractLsb' 64 8

/-- Bits 63:32 (30_encoding R80). -/
def aField (w : Command) : Word := w.extractLsb' 32 32

/-- Bits 31:0 (30_encoding R80). -/
def bField (w : Command) : Word := w.extractLsb' 0 32

/-- Accept a command whose opcode is in the table when its reserved bits are zero (30_encoding R86). -/
def unreserved (ok : Bool) (i : Instr) : Except DecodeError Instr :=
  if ok then .ok i else .error .reservedBits

/-- Bits 31:1 of `b` are reserved in formats P and AP (30_encoding R81). -/
def portBitsOk (b : Word) : Bool := decide (b.toNat < 2)

/-- `b[0]` names the port: 0 is COM1, 1 is COM2 (30_encoding R88). -/
def portOf (b : Word) : Port := if b.getLsbD 0 then .com2 else .com1

/-- The decoder: every 72-bit word is one command or is rejected by name (30_encoding R84, R86, R87). -/
def decode (w : Command) : Except DecodeError Instr :=
  let op := opField w
  let a := aField w
  let b := bField w
  if op = 0x10#8 then unreserved (a == 0 && b == 0) .crcReset
  else if op = 0x11#8 then unreserved (decide (a.toNat < 256) && b == 0) (.crcByte a)
  else if op = 0x12#8 then unreserved (b == 0) (.crcWord a)
  else if op = 0x13#8 then unreserved true (.crcBuf a b)
  else if op = 0x14#8 then unreserved (a == 0 && b == 0) .crcFinal
  else if op = 0x20#8 then unreserved (a == 0 && b == 0) .conClear
  else if op = 0x21#8 then unreserved (b == 0) (.conSetpos a)
  else if op = 0x22#8 then unreserved (decide (a.toNat < 16) && b == 0) (.conFg a)
  else if op = 0x23#8 then unreserved (decide (a.toNat < 16) && b == 0) (.conBg a)
  else if op = 0x24#8 then unreserved (b == 0) (.conPutc a)
  else if op = 0x30#8 then unreserved (a == 0 && portBitsOk b) (.serReset (portOf b))
  else if op = 0x31#8 then unreserved (portBitsOk b) (.serBaud a (portOf b))
  else if op = 0x32#8 then unreserved (a == 0 && portBitsOk b) (.serRxb (portOf b))
  else if op = 0x33#8 then unreserved (a == 0 && portBitsOk b) (.serRxw (portOf b))
  else .error .undefinedOpcode

/-- A command word from its three fields (30_encoding R80). -/
def commandWord (op : Byte) (a b : Word) : Command := op ++ a ++ b

/-- The field `b` of formats P and AP (30_encoding R88). -/
def portField : Port → Word
  | .com1 => 0
  | .com2 => 1

/-- The encoder: the opcode of 30_encoding R84 and the operand fields of R81. -/
def encode : Instr → Command
  | .crcReset => commandWord 0x10#8 0 0
  | .crcByte a => commandWord 0x11#8 a 0
  | .crcWord a => commandWord 0x12#8 a 0
  | .crcBuf a b => commandWord 0x13#8 a b
  | .crcFinal => commandWord 0x14#8 0 0
  | .conClear => commandWord 0x20#8 0 0
  | .conSetpos a => commandWord 0x21#8 a 0
  | .conFg a => commandWord 0x22#8 a 0
  | .conBg a => commandWord 0x23#8 a 0
  | .conPutc a => commandWord 0x24#8 a 0
  | .serReset p => commandWord 0x30#8 0 (portField p)
  | .serBaud a p => commandWord 0x31#8 a (portField p)
  | .serRxb p => commandWord 0x32#8 0 (portField p)
  | .serRxw p => commandWord 0x33#8 0 (portField p)

/-- One row of the table of 30_encoding R84: a word `w` selects the row when `w AND mask = pattern`. -/
structure OpcodeRow where
  mnemonic : String
  mask : Command
  pattern : Command
deriving DecidableEq, Repr

/-- The table of 30_encoding R84, digit for digit. -/
def opcodeTable : List OpcodeRow := [
  ⟨"CRC.RESET", 0xFFFFFFFFFFFFFFFFFF, 0x100000000000000000⟩,
  ⟨"CRC.BYTE", 0xFFFFFFFF00FFFFFFFF, 0x110000000000000000⟩,
  ⟨"CRC.WORD", 0xFF00000000FFFFFFFF, 0x120000000000000000⟩,
  ⟨"CRC.BUF", 0xFF0000000000000000, 0x130000000000000000⟩,
  ⟨"CRC.FINAL", 0xFFFFFFFFFFFFFFFFFF, 0x140000000000000000⟩,
  ⟨"CON.CLEAR", 0xFFFFFFFFFFFFFFFFFF, 0x200000000000000000⟩,
  ⟨"CON.SETPOS", 0xFF00000000FFFFFFFF, 0x210000000000000000⟩,
  ⟨"CON.FG", 0xFFFFFFFFF0FFFFFFFF, 0x220000000000000000⟩,
  ⟨"CON.BG", 0xFFFFFFFFF0FFFFFFFF, 0x230000000000000000⟩,
  ⟨"CON.PUTC", 0xFF00000000FFFFFFFF, 0x240000000000000000⟩,
  ⟨"SER.RESET", 0xFFFFFFFFFFFFFFFFFE, 0x300000000000000000⟩,
  ⟨"SER.BAUD", 0xFF00000000FFFFFFFE, 0x310000000000000000⟩,
  ⟨"SER.RXB", 0xFFFFFFFFFFFFFFFFFE, 0x320000000000000000⟩,
  ⟨"SER.RXW", 0xFFFFFFFFFFFFFFFFFE, 0x330000000000000000⟩]

/-- `w` selects the row (30_encoding R84). -/
def OpcodeRow.selects (r : OpcodeRow) (w : Command) : Bool := w &&& r.mask == r.pattern

/-- The bits of `w` that an instruction of `nbits` bits has; every bit above them is 0. A word of more than 72 bits
holds no command. -/
def tableWord (nbits w : Nat) : Option Command :=
  let v := w % 2 ^ nbits
  if v < 2 ^ 72 then some (BitVec.ofNat 72 v) else none

/-- The command the decoder reads from an instruction whose bits are `w`, numbered as the opcode table numbers them. -/
def decodeTableWord (nbits w : Nat) : Option Instr :=
  match tableWord nbits w with
  | none => none
  | some c =>
    match decode c with
    | .ok i => some i
    | .error _ => none

end Sys2Proof
end

