-- ==== Sys2Proof/Machine/Load.lean ====
section
/-! DEFINITION. The host between two commands, and its pseudo-operation LOAD (45_loader_sequence R204 to R213, 60_exceptions
R231, R240). LOAD is a list of host actions; an action takes the first of them and may put further ones in front of the rest.
Every state these actions see has no command in progress. -/

namespace Sys2Proof.Machine

/-- A variable of LOAD (45_loader_sequence R202). -/
def Loader.get (l : Loader) : LoadVar → Word
  | .start => l.start
  | .count => l.count
  | .dest => l.dest
  | .len => l.len
  | .dataSum => l.dataSum
  | .headerSum => l.headerSum
  | .headerDigest => l.headerDigest
  | .dataDigest => l.dataDigest

/-- Set a variable of LOAD. -/
def Loader.set (l : Loader) (x : LoadVar) (v : Word) : Loader :=
  match x with
  | .start => { l with start := v }
  | .count => { l with count := v }
  | .dest => { l with dest := v }
  | .len => { l with len := v }
  | .dataSum => { l with dataSum := v }
  | .headerSum => { l with headerSum := v }
  | .headerDigest => { l with headerDigest := v }
  | .dataDigest => { l with dataDigest := v }

/-- The host delivers a command word (30_encoding R80). -/
def State.deliver (s : State) (w : Command) : State := { s with cmd := some w, rxPart := [] }

/-- Put actions in front of what the host will do. -/
def State.first (s : State) (ops : List HostOp) : State := { s with host := ops ++ s.host }

/-- The value of the last response; the actions of LOAD ask for it only after a command has responded. -/
def State.lastValue (s : State) : Word :=
  match s.resp with
  | some r => r.value
  | none => 0

/-- `CRC.BYTES v0, ..., vk` as commands (30_encoding R96 a). -/
def crcBytes (vs : List Byte) : List HostOp := vs.map fun v => .command (encode (.crcByte (v.setWidth 32)))

/-- A report possible before each of the actions: an unstated point after `n` is known is any of them (90_conflicts C11). -/
def withReports (ops : List HostOp) : List HostOp := ops.flatMap fun o => [.report, o]

/-- LOAD up to the check of the count (45_loader_sequence R204 step 1, R205, R206). -/
def loadOps : List HostOp :=
  [.command (encode .crcReset), .recvWord .start, .fold .start, .recvWord .count] ++ withReports [.fold .count, .checkCount]

/-- One descriptor of the header (45_loader_sequence R205). -/
def pairOps : List HostOp := [.recvWord .dest, .fold .dest, .recvWord .len, .fold .len, .addSegment]

/-- LOAD from an accepted count to the header check (45_loader_sequence R204 steps 1 and 2). -/
def headerOps (n : Nat) : List HostOp :=
  withReports ((List.replicate n pairOps).flatten ++
    [.recvWord .dataSum, .fold .dataSum, .digest .headerDigest, .recvWord .headerSum, .checkHeader])

/-- LOAD from an accepted header to the return (45_loader_sequence R204 steps 3 to 5). -/
def payloadOps (segs : List Segment) : List HostOp :=
  segs.flatMap (fun g => [.report, .segment g]) ++ [.command (encode .crcReset)] ++
    segs.map (fun g => .command (encode (.crcBuf g.dest g.len))) ++ [.digest .dataDigest, .checkData]

/-- `LOAD p` begins (45_loader_sequence R204). DESIGN CHOICE: with its words 0 and its table empty (log 21). -/
def beginLoad (p : Port) (s : State) : State :=
  { s with loader := { Loader.reset with port := p }, load := .running }.first loadOps

/-- `Fatal(code, info)`: the report, then the halt, and nothing else ever (60_exceptions R240). -/
def fatal (code : FatalCode) (info : Word) (s : State) : State :=
  { s with load := .fatal code info, host := [.report, .halt] }

/-- The commands of the next report: the next given one or the free value, CON commands only (45_loader_sequence R213). -/
def reportCommands (s : State) : List Instr :=
  (match s.reports with
    | r :: _ => r
    | [] => Config.laterReport s.reportNo).filter fun i => i.isCon && i.wf

/-- `Report(...)` (45_loader_sequence R213). -/
def report (s : State) : State :=
  { s with reports := s.reports.tail, reportNo := s.reportNo + 1 }.first
    ((reportCommands s).map fun i => .command (encode i))

/-- `if n > MAX_SEGMENTS then Fatal(SEGMENT_COUNT, n)` (45_loader_sequence R206). -/
def checkCount (s : State) : State :=
  if Config.maxSegments < s.loader.count.toNat then fatal .segmentCount s.loader.count s
  else s.first (headerOps s.loader.count.toNat)

/-- `if hck != hd then Fatal(HEADER_CHECKSUM, hck)` (45_loader_sequence R207). -/
def checkHeader (s : State) : State :=
  if s.loader.headerSum ≠ s.loader.headerDigest then fatal .headerChecksum s.loader.headerSum s
  else s.first (payloadOps s.loader.segs)

/-- `if dd != dck then Fatal(DATA_CHECKSUM, dd)`, else `return start` (45_loader_sequence R211, R212). -/
def checkData (s : State) : State :=
  if s.loader.dataDigest ≠ s.loader.dataSum then fatal .dataChecksum s.loader.dataDigest s
  else { s with load := .returned s.loader.start }

/-- The host's own memory write, outside LOAD's copy. It never reaches the cell array: nothing but the CON commands and LOAD's
copy writes it (70_reset R277, 20_memory R69 c and d, 42_console R140). That such a write does nothing here is log 25. -/
def hostWrite (a : Addr) (v : Byte) (s : State) : State := if inCellArray s.cfg a then s else memWrite a v s

/-- The rest of a segment's copy: receive a byte, store it, go on (45_loader_sequence R209). -/
def copyNext (a : Addr) (n : Nat) (s : State) : State :=
  match n with
  | 0 => s
  | n + 1 => (s.first [.store a, .copy (a + 1) n]).deliver (encode (.serRxb s.loader.port))

/-- What one action of the host does; `s.host` is what remains after it. A segment that runs past the top of the address
space has no meaning (45_loader_sequence R209, 60_exceptions R236; log 17). DESIGN CHOICE: a byte stored by LOAD's copy or by the
host's own write never affects what the host does next, also where R210 (c) has its program in memory (log 26). -/
def hostAct (op : HostOp) (s : State) : Host.Outcome State Fault Refusal :=
  match op with
  | .command w => .next (s.deliver w)
  | .write a v => .next (hostWrite a v s)
  | .load p => .next (beginLoad p s)
  | .recvWord x => .next ((s.first [.take x]).deliver (encode (.serRxw s.loader.port)))
  | .digest x => .next ((s.first [.take x]).deliver (encode .crcFinal))
  | .take x => .next { s with loader := s.loader.set x s.lastValue }
  | .fold x => .next (s.deliver (encode (.crcWord (s.loader.get x))))
  | .addSegment => .next { s with loader := { s.loader with segs := s.loader.segs ++ [⟨s.loader.dest, s.loader.len⟩] } }
  | .report => .next (report s)
  | .checkCount => .next (checkCount s)
  | .checkHeader => .next (checkHeader s)
  | .segment g =>
    if g.dest.toNat + g.len.toNat ≤ 2 ^ 32 then .next (s.first [.copy g.dest g.len.toNat]) else .fault .addressRange
  | .copy a n => .next (copyNext a n s)
  | .store a => .next (memWrite a (s.lastValue.extractLsb' 0 8) s)
  | .checkData => .next (checkData s)
  | .halt => .next { s with halted := true, host := [] }

end Sys2Proof.Machine
end

