-- ==== Sys2Proof/Machine/Run.lean ====
section
/-! DEFINITION. What a step is made of: the command in progress, or the host's next action. -/

namespace Sys2Proof.Machine

/-- Run a delivered command word: the command it decodes to, or the response ILLEGAL with no effect (30_encoding R86, R87;
60_exceptions R234: decoding comes first). -/
def runCommand (w : Command) (s : State) : Host.Outcome State Fault Refusal :=
  match decode w with
  | .ok i => exec i s
  | .error _ => .next (s.raise .illegal 0)

/-- The host's turn: its next action; a halted host and a host with nothing to do leave everything as it is (60_exceptions
R240, R241; log 18). -/
def hostTurn (s : State) : Host.Outcome State Fault Refusal :=
  if s.halted then .next s
  else
    match s.host with
    | [] => .next s
    | op :: rest => hostAct op { s with host := rest }

/-- The state with a command word, numbered as the opcode table numbers its bits, at the command port. -/
def placeWord (nbits w : Nat) (s : State) : State := { s with cmd := tableWord nbits w, rxPart := [] }

end Sys2Proof.Machine
end

