-- ==== Sys2Proof/Machine/Step.lean ====
section
/-! DEFINITION. One step of the machine: the command in progress runs, or else the host acts (10_state R28: the next command
is issued only after the response to the one before). -/

namespace Sys2Proof.Machine

/-- One step. -/
def step (s : State) : Host.Outcome State Fault Refusal :=
  match s.cmd with
  | some w => runCommand w s
  | none => hostTurn s

/-- The state whose next step fetches and runs the instruction with these bits: the word stands at the command port. -/
def State.withFetchWord (s : State) (nbits w : Nat) : State := placeWord nbits w s

end Sys2Proof.Machine
end

