-- ==== Sys2Proof/Safety.lean ====
section
/-! DEFINITION. What statements are phrased in: the invariant of the machine, the groups of state a command leaves alone,
and the outcome of a command. -/

namespace Sys2Proof.Machine

/-- The invariant every step keeps: a legal build (00_scope R9), memory in its canonical form, the console's position on
the screen with the hardware cursor on it (10_state R43), DLAB clear on both UARTs between commands (43_serial R174,
70_reset R271), and received bytes held only inside a SER.RXW (10_state R41 b). -/
structure State.Inv (s : State) : Prop where
  cfgOk : s.cfg.Ok
  memWf : s.mem.wf = true
  posOnScreen : s.validCon = true → s.pos.toNat < Config.cells
  cursorTracks : s.validCon = true → s.cursorLoc = s.pos.setWidth 16
  latchHigh : s.validCon = true → s.crtcIndex = s.cfg.cursorHiIdx
  dlabClear : ∀ p, dlabSet s.cfg (s.uart p).lcr = false
  partShort : s.rxPart.length < 4
  partOfWord : s.rxPart ≠ [] → ∃ p, s.cmd = some (encode (.serRxw p))

/-- The CRC unit's registers are the same (10_state R21, R27). -/
structure SameCrc (s t : State) : Prop where
  acc : t.acc = s.acc
  validCrc : t.validCrc = s.validCrc

/-- The CON unit's registers are the same (10_state R22, R23, R27). -/
structure SameCon (s t : State) : Prop where
  pos : t.pos = s.pos
  attr : t.attr = s.attr
  validCon : t.validCon = s.validCon

/-- The cursor registers are the same (10_state R36, R37). -/
structure SameCursor (s t : State) : Prop where
  crtcIndex : t.crtcIndex = s.crtcIndex
  cursorLoc : t.cursorLoc = s.cursorLoc

/-- Both UARTs and both lines are the same (10_state R30, R40; 43_serial R182). -/
structure SameUarts (s t : State) : Prop where
  com1 : t.com1 = s.com1
  com2 : t.com2 = s.com2

/-- Every byte of memory reads the same. -/
def SameMemory (s t : State) : Prop := ∀ a : Addr, t.mem.read a.toNat = s.mem.read a.toNat

/-- The build, the host, LOAD and the given reports are the same (10_state R44). -/
structure SameHost (s t : State) : Prop where
  cfg : t.cfg = s.cfg
  host : t.host = s.host
  loader : t.loader = s.loader
  load : t.load = s.load
  halted : t.halted = s.halted
  reports : t.reports = s.reports
  reportNo : t.reportNo = s.reportNo

/-- The command has ended with this response, which is the newest entry of the history (30_encoding R82). -/
structure Responded (st : Status) (v : Word) (t : State) : Prop where
  cmd : t.cmd = none
  rxPart : t.rxPart = []
  resp : t.resp = some ⟨st, v⟩
  recorded : t.hist.head? = some (.resp ⟨st, v⟩)

/-- The bus events of the command are these, in this order (20_memory R60, R70). -/
def Events (s t : State) (es : List Event) : Prop := t.busEvents = s.busEvents ++ es

/-- The four port writes of a cursor update to location `loc` (42_console R141). -/
def cursorEvents (c : Config.Params) (loc : BitVec 16) : List Event := [
  .out c.crtcIndexPort c.cursorLoIdx, .out c.crtcDataPort (lowByte loc),
  .out c.crtcIndexPort c.cursorHiIdx, .out c.crtcDataPort (highByte loc)]

/-- The hardware cursor stands on the console's position (42_console R141, 10_state R37, R40 d). -/
structure CursorOn (t : State) : Prop where
  cursorLoc : t.cursorLoc = t.pos.setWidth 16
  crtcIndex : t.crtcIndex = t.cfg.cursorHiIdx

/-- The address of the character byte or of the attribute byte of cell `i` (20_memory R56). -/
def ofCell (c : Config.Params) (i : Nat) (a : Addr) : Prop := a = cellAddr c i ∨ a = cellAddr c i + 1

/-- The bus events of `CellWrite(i, ch, at)` (20_memory R56). -/
def cellWriteEvents (c : Config.Params) (i : Nat) (ch attr : Byte) : List Event :=
  [.wr (cellAddr c i) ch, .wr (cellAddr c i + 1) attr]

/-- The bus events of `CellRead(i)` that found `v` (20_memory R57). -/
def cellReadEvents (c : Config.Params) (i : Nat) (v : Byte × Byte) : List Event :=
  [.rd (cellAddr c i) v.1, .rd (cellAddr c i + 1) v.2]

/-- The bus events of blanking `n` cells from cell `i` on, ascending (42_console R142, R150). -/
def blankEvents (c : Config.Params) (attr : Byte) (i n : Nat) : List Event :=
  (List.range n).flatMap fun k => cellWriteEvents c (i + k) c.blankCode attr

/-- The bus events of moving the first `n` cells up by a row, ascending, each cell read before it is written, when the
screen was that of `s` (42_console R150). -/
def copyEvents (s : State) (n : Nat) : List Event :=
  (List.range n).flatMap fun i =>
    cellReadEvents s.cfg (i + Config.width) (s.cell (i + Config.width)) ++
      cellWriteEvents s.cfg i (s.cell (i + Config.width)).1 (s.cell (i + Config.width)).2

/-- The bus events of a scroll from the screen of `s` (42_console R150, R156). -/
def scrollEvents (s : State) : List Event :=
  copyEvents s (Config.cells - Config.width) ++
    blankEvents s.cfg s.attr (Config.cells - Config.width) Config.width

/-- The `n` bytes of memory from address `a` on, in address order (41_crc32 R125). -/
def memBytes (s : State) (a : Addr) (n : Nat) : List Byte :=
  (List.range n).map fun k => s.mem.read (a + BitVec.ofNat 32 k).toNat

/-- The bus events of reading those bytes: ascending, each exactly once (41_crc32 R125). -/
def readEvents (s : State) (a : Addr) (n : Nat) : List Event :=
  (List.range n).map fun k => .rd (a + BitVec.ofNat 32 k) (s.mem.read (a + BitVec.ofNat 32 k).toNat)

/-- Commands run one after another, each to its end, stopping at the first fault or refusal: what the host makes of the
block when every command responds at once (10_state R28). -/
def execAll : List Instr → State → Host.Outcome State Fault Refusal
  | [], s => .next s
  | i :: is, s =>
    match exec i s with
    | .next t => execAll is t
    | .fault r => .fault r
    | .refused r => .refused r

/-- The receive queue as it is when the next event of this UART happens: what it holds and what the environment moves into
it at that moment (43_serial R182 a). -/
def queueNow (p : Port) (s : State) : List Byte := (s.uart p).rxq ++ (momentOf p s.now (s.uart p)).arrived

/-- What the environment does at the `k`-th event from now on when each of them is on serial port `p`: its `k`-th moment from
now on (43_serial R182; log 8). -/
def momentAt (p : Port) (s : State) (k : Nat) : Config.Moment :=
  momentOf p (s.now + k) { s.uart p with line := (s.uart p).line.drop k }

/-- The bytes that arrive at the next `k` events, all on serial port `p`, in the order in which they come (43_serial R182 a). -/
def arrivedIn (p : Port) (s : State) (k : Nat) : List Byte :=
  (List.range k).flatMap fun j => (momentAt p s j).arrived

/-- The glyph a character writes: a blank for NUL, the code point for printable ASCII, the replacement glyph for non-ASCII
(42_console R147, R149, R152). -/
def WritesGlyph (c : Config.Params) (a : Word) (g : Byte) : Prop :=
  (a.toNat = 0x00 ∧ g = c.blankCode) ∨
  (0x20 ≤ a.toNat ∧ a.toNat ≤ 0x7E ∧ g = a.extractLsb' 0 8) ∨
  (0x80 ≤ a.toNat ∧ g = c.replacementGlyph)

/-- The control characters that are silently ignored (42_console R151). -/
def IgnoredChar (a : Word) : Prop :=
  (0x01 ≤ a.toNat ∧ a.toNat ≤ 0x09) ∨ (0x0B ≤ a.toNat ∧ a.toNat ≤ 0x1F) ∨ a.toNat = 0x7F

/-- The bytes a fold command folds, when memory is that of `s`; no other command folds any (41_crc32 R128). -/
def foldedBytes (s : State) : Instr → Option (List Byte)
  | .crcByte a => some [a.extractLsb' 0 8]
  | .crcWord a => some (cutWord s.cfg.crcWordOrder a)
  | .crcBuf a b => some (memBytes s a b.toNat)
  | .crcReset => none
  | .crcFinal => none
  | .conClear => none
  | .conSetpos _ => none
  | .conFg _ => none
  | .conBg _ => none
  | .conPutc _ => none
  | .serReset _ => none
  | .serBaud _ _ => none
  | .serRxb _ => none
  | .serRxw _ => none

/-- An event on one of the eight ports of the register block of serial port `p` (00_scope R9 b). -/
def onPortsOf (c : Config.Params) (p : Port) : Event → Bool
  | .out q _ => decide ((c.base p).toNat ≤ q.toNat) && decide (q.toNat ≤ (c.base p).toNat + 7)
  | .inp q _ => decide ((c.base p).toNat ≤ q.toNat) && decide (q.toNat ≤ (c.base p).toNat + 7)
  | .wr _ _ => false
  | .rd _ _ => false
  | .resp _ => false

/-- A memory read, the event only CRC.BUF and a scroll make (42_console R156). -/
def isRead : Event → Bool
  | .rd _ _ => true
  | .out _ _ => false
  | .inp _ _ => false
  | .wr _ _ => false
  | .resp _ => false

/-- The commands that may be in progress from the beginning of a LOAD on port `p` to the check of its header: the CRC commands
of step 1, SER.RXW on that port, and the CON commands of a report; no SER.RXB (45_loader_sequence R204, R205, R213). -/
def headerCommand (p : Port) : Instr → Bool
  | .crcReset => true
  | .crcWord _ => true
  | .crcFinal => true
  | .serRxw q => decide (q = p)
  | .conClear => true
  | .conSetpos _ => true
  | .conFg _ => true
  | .conBg _ => true
  | .conPutc _ => true
  | .crcByte _ => false
  | .crcBuf _ _ => false
  | .serReset _ => false
  | .serBaud _ _ => false
  | .serRxb _ => false

/-- The host actions that may come before a check of the header: its fields received, kept and folded, the digest, the table,
reports, and CRC.RESET or CON commands; no copy, no store, no write (45_loader_sequence R204 steps 1 and 2). -/
def headerAction : HostOp → Bool
  | .command w =>
    match decode w with
    | .ok i => i.isCon || decide (i = .crcReset)
    | .error _ => false
  | .recvWord _ => true
  | .digest _ => true
  | .take _ => true
  | .fold _ => true
  | .addSegment => true
  | .report => true
  | .write _ _ => false
  | .load _ => false
  | .checkCount => false
  | .checkHeader => false
  | .segment _ => false
  | .copy _ _ => false
  | .store _ => false
  | .checkData => false
  | .halt => false

/-- LOAD is before the check of its header: nothing but header actions stands before the next check of the count or of the
header, and a command in progress is a header command (45_loader_sequence R204, R208). -/
structure State.InHeader (s : State) : Prop where
  running : s.load = .running
  notHalted : s.halted = false
  ahead : ∃ before check rest, s.host = before ++ check :: rest ∧ (check = .checkCount ∨ check = .checkHeader) ∧
    ∀ op ∈ before, headerAction op = true
  command : ∀ w, s.cmd = some w → ∃ i, decode w = .ok i ∧ headerCommand s.loader.port i = true

/-- The other serial port. -/
def otherPort : Port → Port
  | .com1 => .com2
  | .com2 => .com1

/-- The valid rates with their divisors, as 43_serial R175 lists them. -/
def rateTable : List (Nat × Nat) := [
    (2, 57600), (3, 38400), (4, 28800), (5, 23040), (6, 19200), (8, 14400), (9, 12800), (10, 11520), (12, 9600),
    (15, 7680), (16, 7200), (18, 6400), (20, 5760), (24, 4800), (25, 4608), (30, 3840), (32, 3600), (36, 3200),
    (40, 2880), (45, 2560), (48, 2400), (50, 2304), (60, 1920), (64, 1800), (72, 1600), (75, 1536), (80, 1440),
    (90, 1280), (96, 1200), (100, 1152), (120, 960), (128, 900), (144, 800), (150, 768), (160, 720), (180, 640),
    (192, 600), (200, 576), (225, 512), (240, 480), (256, 450), (288, 400), (300, 384), (320, 360), (360, 320),
    (384, 300), (400, 288), (450, 256), (480, 240), (512, 225), (576, 200), (600, 192), (640, 180), (720, 160),
    (768, 150), (800, 144), (900, 128), (960, 120), (1152, 100), (1200, 96), (1280, 90), (1440, 80), (1536, 75),
    (1600, 72), (1800, 64), (1920, 60), (2304, 50), (2400, 48), (2560, 45), (2880, 40), (3200, 36), (3600, 32),
    (3840, 30), (4608, 25), (4800, 24), (5760, 20), (6400, 18), (7200, 16), (7680, 15), (9600, 12), (11520, 10),
    (12800, 9), (14400, 8), (19200, 6), (23040, 5), (28800, 4), (38400, 3), (57600, 2), (115200, 1)]

end Sys2Proof.Machine
end

