-- ==== Sys2Proof/Certificates/Slice0/Obligations.lean ====
section
/-! DEFINITION. The statements for the provers, from the numbered rules of spec/. `exec i s = .next …` in a conclusion says
that the command completes; a conclusion written as an update of `s` says that everything it does not name is unchanged. -/

open Sys2Proof Sys2Proof.Machine

/-! ### Encoding -/

/-- Derived from 30_encoding R80, R81, R84, R88: no bit of a well-formed command is dropped, for any operand. -/
def Obligations.DecodeEncodeGivesBackWellFormed : Prop :=
  ∀ i : Instr, i.wf = true → decode (encode i) = .ok i

/-- Derived from 30_encoding R86: a command with a reserved operand bit set encodes to a word that is refused for it. -/
def Obligations.IllFormedCommandsEncodeToRefusedWords : Prop :=
  ∀ i : Instr, i.wf = false → decode (encode i) = .error .reservedBits

/-- Derived from 30_encoding R84, R86: whatever the decoder accepts is well-formed and is the only word of its command. -/
def Obligations.DecodedCommandsAreWellFormedAndReencode : Prop :=
  ∀ (w : Command) (i : Instr), decode w = .ok i → i.wf = true ∧ encode i = w

/-- Derived from 30_encoding R84, R87: a word selects a row of the table, by mask and match, exactly when it decodes to that row's
command, and no word selects two rows. -/
def Obligations.DecodeFollowsOpcodeTable : Prop :=
  (∀ (w : Command), ∀ r ∈ opcodeTable,
    (w &&& r.mask = r.pattern ↔ ∃ i, decode w = .ok i ∧ i.mnemonic = r.mnemonic)) ∧
  (∀ (w : Command), ∀ r ∈ opcodeTable, ∀ r' ∈ opcodeTable,
    w &&& r.mask = r.pattern → w &&& r'.mask = r'.pattern → r = r')

/-- Derived from 95_test_vectors section 2: words written out in the spec decode to the commands they stand for. -/
def Obligations.SpecWordsDecode : Prop :=
  decode 0x110000003100000000 = .ok (.crcByte 0x31) ∧
  decode 0x130010000000000004 = .ok (.crcBuf 0x00100000 4) ∧
  decode 0x21000007CF00000000 = .ok (.conSetpos 1999) ∧
  decode 0x220000000F00000000 = .ok (.conFg 15) ∧
  decode 0x310001C20000000001 = .ok (.serBaud 115200 .com2) ∧
  decode 0x330000000000000001 = .ok (.serRxw .com2)

/-- Stated, 30_encoding R86 (R87 for an undefined opcode): a word that selects no row, as one with a reserved bit set, is answered
ILLEGAL with value 0; no register changes and no bus event occurs. -/
def Obligations.UnselectedWordsAnswerIllegal : Prop :=
  ∀ (s : State) (w : Command), s.cmd = some w → (∀ r ∈ opcodeTable, w &&& r.mask ≠ r.pattern) →
    step s = .next { s with
      cmd := none, rxPart := [], resp := some ⟨.illegal, 0⟩, hist := .resp ⟨.illegal, 0⟩ :: s.hist }

/-- Derived from 10_state R28, 30_encoding R80: a step with a command delivered is that command's meaning, nothing around
it; and with none in progress, a host whose next action is to issue a command delivers exactly that command, once, and changes
nothing else. (That the delivery is a step of its own is the model's choice, logs 1 and 24.) -/
def Obligations.StepRunsDeliveredCommand : Prop :=
  (∀ (s : State) (w : Command) (i : Instr), s.cmd = some w → decode w = .ok i → step s = exec i s) ∧
  (∀ (s : State) (w : Command) (rest : List HostOp), s.cmd = none → s.halted = false → s.host = .command w :: rest →
    step s = .next { s with cmd := some w, rxPart := [], host := rest })

/-- Derived from 30_encoding R80, R84: a well-formed command's word, placed where the step takes its next instruction, is
run by the very next step. (That State.withFetchWord places a word at the command port, and that the next step runs it, is the
model's choice, log 1: the block fetches nothing.) -/
def Obligations.PlacedWordRunsNext : Prop :=
  ∀ (s : State) (i : Instr), i.wf = true →
    step (s.withFetchWord 72 (encode i).toNat) = exec i { s with cmd := some (encode i), rxPart := [] }

/-! ### Reset, invariants, the machine as a whole -/

/-- Derived from 10_state R42, R43: the machine after power-on meets the invariant. (The zeros of the registers without a
reset value are the model's, logs 2 to 5; the invariant asks nothing of them but DLAB clear, 70_reset R271.) -/
def Obligations.ResetMeetsInvariant : Prop := State.reset.Inv

/-- Derived from 10_state R43, 43_serial R174, 20_memory R52: every step keeps the invariant (`State.Inv`). -/
def Obligations.StepKeepsInvariant : Prop :=
  ∀ s t : State, s.Inv → step s = .next t → t.Inv

/-- Stated, 10_state R27: the marks are false at power-on, only CRC.RESET and CON.CLEAR make them true, nothing makes them
false again, and a command that reads a register of a unit whose mark is false is the fault UseBeforeInit. -/
def Obligations.ValidityMarksFollowTheUnitResets : Prop :=
  (State.reset.validCrc = false ∧ State.reset.validCon = false) ∧
  (∀ s t : State, step s = .next t →
    (s.validCrc = true → t.validCrc = true) ∧ (s.validCon = true → t.validCon = true) ∧
    (s.validCrc = false → t.validCrc = true → s.cmd = some (encode .crcReset)) ∧
    (s.validCon = false → t.validCon = true → s.cmd = some (encode .conClear))) ∧
  (∀ (s t : State), exec .crcReset s = .next t → t.validCrc = true) ∧
  (∀ (s t : State), exec .conClear s = .next t → t.validCon = true) ∧
  (∀ (s : State) (a b : Word), s.validCrc = false →
    exec (.crcByte a) s = .fault .useBeforeInit ∧ exec (.crcWord a) s = .fault .useBeforeInit ∧
    exec (.crcBuf a b) s = .fault .useBeforeInit ∧ exec .crcFinal s = .fault .useBeforeInit) ∧
  (∀ (s : State) (a : Word), s.validCon = false →
    exec (.conSetpos a) s = .fault .useBeforeInit ∧ exec (.conFg a) s = .fault .useBeforeInit ∧
    exec (.conBg a) s = .fault .useBeforeInit ∧ exec (.conPutc a) s = .fault .useBeforeInit)

/-- Derived from 10_state R24, 00_scope R8, 20_memory R60, R70: no step changes the build, the bindings of the serial ports
with it, and a step only adds to the history: what is recorded is never changed or dropped. -/
def Obligations.BuildIsFixedAndHistoryOnlyGrows : Prop :=
  ∀ s t : State, step s = .next t → t.cfg = s.cfg ∧ ∃ es, t.hist = es ++ s.hist

/-- Derived from 10_state R28, 30_encoding R82: while a command is in progress the host does nothing, and the step leaves the same
command in progress without a response or ends it with one that is new: it is the newest entry of the history, in front of
everything recorded before the step. -/
def Obligations.HostWaitsForTheResponse : Prop :=
  ∀ (s t : State) (w : Command), s.cmd = some w → step s = .next t →
    t.host = s.host ∧ t.loader = s.loader ∧ t.load = s.load ∧ t.halted = s.halted ∧
    ((t.cmd = some w ∧ t.resp = s.resp) ∨
      (t.cmd = none ∧ t.rxPart = [] ∧ ∃ r es, t.resp = some r ∧ t.hist = .resp r :: (es ++ s.hist)))

/-- Derived from 10_state R26: which unit's commands change which registers and devices, in a legal build. CRC commands change
ACC and its mark alone, CON commands the console, the cursor and the cell array, SER commands the UARTs; none of them the
host's state. And 70_reset R277, 42_console R140, 20_memory R69: with no command in progress the host changes no register of
the block, no UART and no cursor register, of memory only the byte of its own write or of LOAD's copy, and a byte of the cell
array only with LOAD's copy; its own write outside the cell array stores its byte, makes that one event and does nothing else
(20_memory R54, R69 c). (That the host's own write to the cell array does nothing is the model's choice, log 25.) -/
def Obligations.CommandsWriteOnlyTheirUnit : Prop :=
  (∀ (i : Instr) (s t : State), s.cfg.Ok → s.mem.wf = true → exec i s = .next t →
    (i.isCon = false → SameCon s t ∧ SameCursor s t ∧ SameMemory s t) ∧
    (i.isCon = true → SameUarts s t ∧ (s.validCon = true → s.pos.toNat < Config.cells →
      ∀ a : Addr, ¬ inCellArray s.cfg a → t.mem.read a.toNat = s.mem.read a.toNat)) ∧
    (foldedBytes s i = none → i ≠ .crcReset → SameCrc s t) ∧
    (foldedBytes s i ≠ none ∨ i = .crcReset ∨ i = .crcFinal → SameUarts s t) ∧
    SameHost s t) ∧
  (∀ (s t : State), s.cmd = none → step s = .next t →
    SameCrc s t ∧ SameCon s t ∧ SameCursor s t ∧ SameUarts s t ∧ t.cfg = s.cfg ∧ t.resp = s.resp ∧
    ∀ b : Addr, t.mem.read b.toNat = s.mem.read b.toNat ∨ (∃ rest, s.host = .store b :: rest) ∨
      (∃ v rest, s.host = .write b v :: rest ∧ ¬ inCellArray s.cfg b)) ∧
  (∀ (s : State) (a : Addr) (v : Byte) (rest : List HostOp), s.cmd = none → s.halted = false → s.mem.wf = true →
    s.host = .write a v :: rest →
    (¬ inCellArray s.cfg a → ∃ t, step s = .next t ∧ t.mem.read a.toNat = v ∧
      (∀ b : Addr, b ≠ a → t.mem.read b.toNat = s.mem.read b.toNat) ∧ Events s t [.wr a v] ∧
      t = { s with mem := t.mem, hist := t.hist, now := t.now, host := rest }) ∧
    (inCellArray s.cfg a → step s = .next { s with host := rest }))

/-- Derived from 60_exceptions R230, R235 (its part on the block's commands), 30_encoding R82, R83: an error outcome leaves
everything but the response as it was, and makes no bus event; only CON.SETPOS of a position from 2000 on answers
ERR_POSITION, only SER.BAUD of an invalid rate ERR_BAUD, each with the rejected operand, and no decoded command ILLEGAL (an
undecoded word does). The 40-bit response word holds the value in bits 31:0 and the code 0x00, 0x01, 0x02 or 0x7F in bits 39:32.
And 60_exceptions R231: the codes of the fatal outcomes are 0x81, 0x82 and 0x83. -/
def Obligations.ErrorOutcomesArePrecise : Prop :=
  (∀ (i : Instr) (s t : State) (r : Response), s.cmd = some (encode i) → exec i s = .next t → t.cmd = none →
    t.resp = some r → r.status ≠ .ok →
    t = { s with cmd := none, rxPart := [], resp := some r, hist := .resp r :: s.hist } ∧
    ((r.status = .errPosition ∧ i = .conSetpos r.value ∧ 2000 ≤ r.value.toNat) ∨
      (r.status = .errBaud ∧ ∃ p, i = .serBaud r.value p ∧
        ¬ (2 ≤ r.value.toNat ∧ r.value.toNat ≤ 115200 ∧ 115200 % r.value.toNat = 0)))) ∧
  (∀ r : Response, (responseWord r).extractLsb' 0 32 = r.value ∧
    (responseWord r).extractLsb' 32 8 = match r.status with
      | .ok => 0x00#8
      | .errPosition => 0x01#8
      | .errBaud => 0x02#8
      | .illegal => 0x7F#8) ∧
  fatalCodeByte .segmentCount = 0x81 ∧ fatalCodeByte .headerChecksum = 0x82 ∧ fatalCodeByte .dataChecksum = 0x83

/-! ### The CRC unit -/

/-- Derived from 41_crc32 R122: CRC.RESET loads CRC_INIT, marks the unit valid and makes no bus event, in every state. -/
def Obligations.CrcResetLoadsInit : Prop :=
  ∀ s : State, exec .crcReset s = .next { s with
    acc := s.cfg.crcInit, validCrc := true
    cmd := none, rxPart := [], resp := some ⟨.ok, 0⟩, hist := .resp ⟨.ok, 0⟩ :: s.hist }

/-- Derived from 41_crc32 R123: CRC.BYTE folds the low byte of its operand, and changes nothing else. -/
def Obligations.CrcByteFoldsOneByte : Prop :=
  ∀ (s : State) (a : Word), s.validCrc = true →
    exec (.crcByte a) s = .next { s with
      acc := crcStep s.acc (a.extractLsb' 0 8)
      cmd := none, rxPart := [], resp := some ⟨.ok, 0⟩, hist := .resp ⟨.ok, 0⟩ :: s.hist }

/-- Derived from 41_crc32 R124: CRC.WORD folds the four bytes of its operand, bits 7:0 first in the order LE and bits 31:24
first in the order BE, and changes nothing else. -/
def Obligations.CrcWordFoldsFourBytes : Prop :=
  ∀ (s : State) (a : Word), s.validCrc = true →
    exec (.crcWord a) s = .next { s with
      acc := match s.cfg.crcWordOrder with
        | .le => crcStep (crcStep (crcStep (crcStep s.acc (a.extractLsb' 0 8)) (a.extractLsb' 8 8))
            (a.extractLsb' 16 8)) (a.extractLsb' 24 8)
        | .be => crcStep (crcStep (crcStep (crcStep s.acc (a.extractLsb' 24 8)) (a.extractLsb' 16 8))
            (a.extractLsb' 8 8)) (a.extractLsb' 0 8)
      cmd := none, rxPart := [], resp := some ⟨.ok, 0⟩, hist := .resp ⟨.ok, 0⟩ :: s.hist }

/-- Derived from 41_crc32 R125, 20_memory R55: inside the address space CRC.BUF folds the bytes of the buffer in address
order, reads each exactly once and changes nothing else; a buffer past the top is the fault AddressRange; a buffer of
length 0 reads nothing and leaves ACC as it was. -/
def Obligations.CrcBufFoldsMemory : Prop :=
  (∀ (s : State) (a b : Word), s.validCrc = true → a.toNat + b.toNat ≤ 2 ^ 32 →
    ∃ t, exec (.crcBuf a b) s = .next t ∧
      t.acc = (memBytes s a b.toNat).foldl crcStep s.acc ∧
      Events s t (readEvents s a b.toNat) ∧
      t = { s with
        acc := t.acc, now := t.now, hist := t.hist
        cmd := none, rxPart := [], resp := some ⟨.ok, 0⟩ }) ∧
  (∀ (s : State) (a b : Word), s.validCrc = true → 2 ^ 32 < a.toNat + b.toNat →
    exec (.crcBuf a b) s = .fault .addressRange) ∧
  (∀ (s t : State) (a : Word), exec (.crcBuf a 0) s = .next t → t.acc = s.acc ∧ Events s t [])

/-- Stated, 41_crc32 R126: CRC.FINAL, opcode 0x14 without operands, answers the digest, makes no bus event and writes
nothing, so two in a row answer the same and folding may go on; right after CRC.RESET it is CRC_INIT XOR CRC_XOROUT, which is
0 in P0; after the nine bytes of "123456789" it is 0xCBF43926 in P0; before the first CRC.RESET it is UseBeforeInit. -/
def Obligations.CrcFinalAnswersDigest : Prop :=
  encode .crcFinal = 0x140000000000000000 ∧
  (∀ s : State, s.validCrc = true →
    exec .crcFinal s = .next { s with
      cmd := none, rxPart := [], resp := some ⟨.ok, s.acc ^^^ s.cfg.crcXorout⟩
      hist := .resp ⟨.ok, s.acc ^^^ s.cfg.crcXorout⟩ :: s.hist }) ∧
  (∀ s : State, s.validCrc = false → exec .crcFinal s = .fault .useBeforeInit) ∧
  (∀ s t : State, exec .crcFinal s = .next t →
    t.acc = s.acc ∧ ∃ u, exec .crcFinal t = .next u ∧ u.resp = t.resp ∧ u.acc = s.acc) ∧
  (∀ s : State, ∃ t, execAll [.crcReset, .crcFinal] s = .next t ∧
    t.resp = some ⟨.ok, s.cfg.crcInit ^^^ s.cfg.crcXorout⟩ ∧
    (s.cfg.crcInit = 0xFFFFFFFF → s.cfg.crcXorout = 0xFFFFFFFF → t.resp = some ⟨.ok, 0⟩)) ∧
  (∀ s : State, s.cfg.crcInit = 0xFFFFFFFF → s.cfg.crcXorout = 0xFFFFFFFF →
    ∃ t, execAll ([.crcReset] ++ [0x31, 0x32, 0x33, 0x34, 0x35, 0x36, 0x37, 0x38, 0x39].map Instr.crcByte ++ [.crcFinal]) s =
        .next t ∧ t.resp = some ⟨.ok, 0xCBF43926⟩)

/-- Stated, 41_crc32 R129: the table form is an equal way to compute the byte step, with the sample entries. -/
def Obligations.CrcStepTableForm : Prop :=
  (∀ (acc : Word) (b : Byte),
    crcStep acc b = (acc >>> 8) ^^^ crcStep (((acc ^^^ b.setWidth 32).extractLsb' 0 8).setWidth 32) 0) ∧
  crcStep 0 0 = 0x00000000 ∧ crcStep 1 0 = 0x77073096 ∧ crcStep 2 0 = 0xEE0E612C ∧
  crcStep 128 0 = 0xEDB88320 ∧ crcStep 255 0 = 0x2D02EF8D

/-- Derived from 41_crc32 R131 (a): the byte step is a bijection in the accumulator and injective in the byte. -/
def Obligations.CrcStepBijective : Prop :=
  (∀ b : Byte, Function.Bijective fun acc : Word => crcStep acc b) ∧
  (∀ acc : Word, Function.Injective fun b : Byte => crcStep acc b)

/-- Derived from 41_crc32 R131 (b): the fold is affine over exclusive-or for sequences of one length. -/
def Obligations.CrcFoldAffine : Prop :=
  ∀ (i j : Word) (xs ys : List Byte), xs.length = ys.length →
    crcFold (i ^^^ j) (List.zipWith (· ^^^ ·) xs ys) = crcFold i xs ^^^ crcFold j ys

/-- Derived from 41_crc32 R131 (c): folding the four bytes of the current digest, least significant first, leaves the
residue 0xDEBB20E3 in a build with the final exclusive-or of P0, whatever the accumulator was. -/
def Obligations.CrcResidueIsConstant : Prop :=
  ∀ acc : Word, crcFold acc (cutWord .le (acc ^^^ 0xFFFFFFFF)) = 0xDEBB20E3

/-- Derived from 41_crc32 R131 (d): a single flipped bit anywhere in the folded bytes always changes the digest. -/
def Obligations.OneFlippedBitChangesDigest : Prop :=
  ∀ (c : Config.Params) (before after : List Byte) (b : Byte) (k : Nat), k < 8 →
    crc32 c (before ++ (b ^^^ (1 <<< k)) :: after) ≠ crc32 c (before ++ b :: after)

/-- Stated, 41_crc32 R128, chunking equivalence: after CRC.RESET any sequence of fold commands that completes leaves the fold
of the concatenated bytes, whatever the commands they were cut into, and CRC.FINAL then answers their digest. -/
def Obligations.ChunkingEquivalence : Prop :=
  ∀ (s t : State) (is : List Instr) (bss : List (List Byte)),
    is.map (foldedBytes s) = bss.map some → execAll (.crcReset :: is) s = .next t →
    t.acc = crcFold s.cfg.crcInit bss.flatten ∧
    ∃ u, exec .crcFinal t = .next u ∧ u.resp = some ⟨.ok, crc32 s.cfg bss.flatten⟩

/-! ### The CON unit -/

/-- Derived from 42_console R141: in a legal build a cursor update makes exactly the four port writes, low byte
first; afterwards the cursor location is POS and the latch selects the high byte; nothing else changes. -/
def Obligations.CursorUpdateShowsPosition : Prop :=
  ∀ s : State, s.cfg.Ok →
    CursorOn (cursorUpdate s) ∧
    Events s (cursorUpdate s) [
      .out s.cfg.crtcIndexPort s.cfg.cursorLoIdx, .out s.cfg.crtcDataPort ((s.pos.setWidth 16).extractLsb' 0 8),
      .out s.cfg.crtcIndexPort s.cfg.cursorHiIdx, .out s.cfg.crtcDataPort ((s.pos.setWidth 16).extractLsb' 8 8)] ∧
    cursorUpdate s = { s with
      cursorLoc := (cursorUpdate s).cursorLoc, crtcIndex := (cursorUpdate s).crtcIndex
      now := (cursorUpdate s).now, hist := (cursorUpdate s).hist }

/-- Derived from 42_console R142: CON.CLEAR completes in every state of a legal build: position 0, the default attribute, every
cell a blank in it, the cursor at 0, 4000 writes at ascending addresses and then the four port writes; no byte outside the
cell array changes, nor any other register. -/
def Obligations.ConClearBlanksTheScreen : Prop :=
  ∀ s : State, s.cfg.Ok → s.mem.wf = true →
    ∃ t, exec .conClear s = .next t ∧ Responded .ok 0 t ∧
      t.pos = 0 ∧ t.attr = s.cfg.defaultAttr ∧ t.validCon = true ∧ CursorOn t ∧
      (∀ i, i < Config.cells → t.cell i = (s.cfg.blankCode, s.cfg.defaultAttr)) ∧
      (∀ a : Addr, ¬ inCellArray s.cfg a → t.mem.read a.toNat = s.mem.read a.toNat) ∧
      Events s t (blankEvents s.cfg s.cfg.defaultAttr 0 Config.cells ++ cursorEvents s.cfg 0) ∧
      SameCrc s t ∧ SameUarts s t ∧ SameHost s t

/-- Derived from 42_console R143: with a position below 2000 CON.SETPOS sets it and updates the cursor, with any other it fails
with the rejected position and no effect at all; before the first CON.CLEAR it is UseBeforeInit, whatever the position. -/
def Obligations.ConSetposMovesOrRejects : Prop :=
  (∀ (s : State) (a : Word), s.cfg.Ok → s.validCon = true → a.toNat < 2000 →
    ∃ t, exec (.conSetpos a) s = .next t ∧ t.pos.toNat = a.toNat ∧ CursorOn t ∧
      Events s t (cursorEvents s.cfg (a.extractLsb' 0 16)) ∧ Responded .ok 0 t ∧
      t = { s with
        pos := t.pos, cursorLoc := t.cursorLoc, crtcIndex := t.crtcIndex, now := t.now, hist := t.hist
        cmd := none, rxPart := [], resp := some ⟨.ok, 0⟩ }) ∧
  (∀ (s : State) (a : Word), s.validCon = true → 2000 ≤ a.toNat →
    exec (.conSetpos a) s = .next { s with
      cmd := none, rxPart := [], resp := some ⟨.errPosition, a⟩, hist := .resp ⟨.errPosition, a⟩ :: s.hist }) ∧
  (∀ (s : State) (a : Word), s.validCon = false → exec (.conSetpos a) s = .fault .useBeforeInit)

/-- Derived from 42_console R144, R145: CON.FG replaces the low nibble of the attribute and CON.BG the high one, each keeps
the other nibble, and neither changes anything else or makes a bus event. -/
def Obligations.ColoursReplaceOneNibble : Prop :=
  ∀ (s : State) (a : Word), s.validCon = true →
    (∃ t, exec (.conFg a) s = .next t ∧ t.attr.extractLsb' 0 4 = a.extractLsb' 0 4 ∧
      t.attr.extractLsb' 4 4 = s.attr.extractLsb' 4 4 ∧
      t = { s with attr := t.attr, cmd := none, rxPart := [], resp := some ⟨.ok, 0⟩, hist := .resp ⟨.ok, 0⟩ :: s.hist }) ∧
    (∃ t, exec (.conBg a) s = .next t ∧ t.attr.extractLsb' 4 4 = a.extractLsb' 0 4 ∧
      t.attr.extractLsb' 0 4 = s.attr.extractLsb' 0 4 ∧
      t = { s with attr := t.attr, cmd := none, rxPart := [], resp := some ⟨.ok, 0⟩, hist := .resp ⟨.ok, 0⟩ :: s.hist })

/-- Derived from 10_state R34, 30_encoding R90: after CON.BG with a colour the video hardware shows the colour's low three bits
as the background and its top bit as blink; the foreground it shows is as before. -/
def Obligations.BackgroundColourAsTheVideoHardwareReadsIt : Prop :=
  ∀ (s t : State) (a : Word), a.toNat < 16 → exec (.conBg a) s = .next t →
    (videoBackground t.attr).toNat = a.toNat % 8 ∧ (videoBlink t.attr = true ↔ 8 ≤ a.toNat) ∧
    videoForeground t.attr = videoForeground s.attr

/-- Derived from 42_console R146, R147, R149: a character of the classes NUL, printable and non-ASCII at a position before the
last cell writes its glyph in the current attribute there, moves on by one, updates the cursor, and changes no other byte. -/
def Obligations.PutcWritesGlyphAndAdvances : Prop :=
  ∀ (s : State) (a : Word) (g : Byte), s.cfg.Ok → s.mem.wf = true → s.validCon = true → s.pos.toNat < 1999 →
    WritesGlyph s.cfg a g →
    ∃ t, exec (.conPutc a) s = .next t ∧ Responded .ok 0 t ∧
      t.cell s.pos.toNat = (g, s.attr) ∧ t.pos.toNat = s.pos.toNat + 1 ∧ CursorOn t ∧
      (∀ b : Addr, ¬ ofCell s.cfg s.pos.toNat b → t.mem.read b.toNat = s.mem.read b.toNat) ∧
      Events s t (cellWriteEvents s.cfg s.pos.toNat g s.attr ++ cursorEvents s.cfg (BitVec.ofNat 16 (s.pos.toNat + 1))) ∧
      t.attr = s.attr ∧ t.validCon = true ∧ SameCrc s t ∧ SameUarts s t ∧ SameHost s t

/-- Derived from 42_console R149, R150: the same character in the last cell is written there first and then the screen scrolls:
every row moves up with its attributes, the glyph with it, the last row is blank in the current attribute, the position
is its first cell; the bus events are the cell's writes, the scroll's and the cursor's. -/
def Obligations.PutcInLastCellScrolls : Prop :=
  ∀ (s : State) (a : Word) (g : Byte), s.cfg.Ok → s.mem.wf = true → s.validCon = true → s.pos.toNat = 1999 →
    WritesGlyph s.cfg a g →
    ∃ t, exec (.conPutc a) s = .next t ∧ Responded .ok 0 t ∧
      (∀ i, i < 1919 → t.cell i = s.cell (i + 80)) ∧ t.cell 1919 = (g, s.attr) ∧
      (∀ i, 1920 ≤ i → i < 2000 → t.cell i = (s.cfg.blankCode, s.attr)) ∧
      t.pos = 1920 ∧ CursorOn t ∧
      (∀ b : Addr, ¬ inCellArray s.cfg b → t.mem.read b.toNat = s.mem.read b.toNat) ∧
      Events s t (cellWriteEvents s.cfg 1999 g s.attr ++ scrollEvents (cellWrite 1999 g s.attr s) ++
        cursorEvents s.cfg 1920) ∧
      t.attr = s.attr ∧ t.validCon = true ∧ SameCrc s t ∧ SameUarts s t ∧ SameHost s t

/-- Derived from 42_console R148, R150: a newline above the last row moves to the start of the next row, also from column 0;
it writes no cell, and updates the cursor. -/
def Obligations.NewlineMovesToNextRow : Prop :=
  ∀ (s : State) (a : Word), s.cfg.Ok → s.validCon = true → s.pos.toNat < 1920 → a.toNat = 0x0A →
    ∃ t, exec (.conPutc a) s = .next t ∧ t.pos.toNat = (s.pos.toNat / 80 + 1) * 80 ∧ CursorOn t ∧ Responded .ok 0 t ∧
      Events s t (cursorEvents s.cfg (BitVec.ofNat 16 ((s.pos.toNat / 80 + 1) * 80))) ∧
      t = { s with
        pos := t.pos, cursorLoc := t.cursorLoc, crtcIndex := t.crtcIndex, now := t.now, hist := t.hist
        cmd := none, rxPart := [], resp := some ⟨.ok, 0⟩ }

/-- Derived from 42_console R148, R150: a newline on the last row scrolls: rows 1 to 24 move up keeping their columns and
attributes, the last row is blank in the current attribute, the position is 1920. -/
def Obligations.NewlineOnLastRowScrolls : Prop :=
  ∀ (s : State) (a : Word), s.cfg.Ok → s.mem.wf = true → s.validCon = true → 1920 ≤ s.pos.toNat →
    s.pos.toNat < 2000 → a.toNat = 0x0A →
    ∃ t, exec (.conPutc a) s = .next t ∧ Responded .ok 0 t ∧
      (∀ i, i < 1920 → t.cell i = s.cell (i + 80)) ∧
      (∀ i, 1920 ≤ i → i < 2000 → t.cell i = (s.cfg.blankCode, s.attr)) ∧
      t.pos = 1920 ∧ CursorOn t ∧
      (∀ b : Addr, ¬ inCellArray s.cfg b → t.mem.read b.toNat = s.mem.read b.toNat) ∧
      Events s t (scrollEvents s ++ cursorEvents s.cfg 1920) ∧
      t.attr = s.attr ∧ t.validCon = true ∧ SameCrc s t ∧ SameUarts s t ∧ SameHost s t

/-- Stated, 42_console R151: every other control character has no effect and makes no bus event; the response is OK. -/
def Obligations.OtherControlCharactersAreIgnored : Prop :=
  ∀ (s : State) (a : Word), s.validCon = true → IgnoredChar a →
    exec (.conPutc a) s = .next { s with
      cmd := none, rxPart := [], resp := some ⟨.ok, 0⟩, hist := .resp ⟨.ok, 0⟩ :: s.hist }

/-- Derived from 42_console R146, R152: the class the machine gives a character is NUL, newline, printable, non-ASCII or
ignored exactly when the 32-bit operand is in the range of that class, so the ranges are total and exclusive; NUL, printable and
non-ASCII are the classes that write a glyph, and each its own. -/
def Obligations.CharacterClassesAreExclusive : Prop :=
  ∀ a : Word,
    (classify a = .nul ↔ a.toNat = 0x00) ∧
    (classify a = .newline ↔ a.toNat = 0x0A) ∧
    (classify a = .printable ↔ 0x20 ≤ a.toNat ∧ a.toNat ≤ 0x7E) ∧
    (classify a = .nonAscii ↔ 0x80 ≤ a.toNat) ∧
    (classify a = .ignored ↔ IgnoredChar a) ∧
    ∀ (c : Config.Params) (g : Byte), WritesGlyph c a g ↔
      (classify a = .nul ∧ g = c.blankCode) ∨ (classify a = .printable ∧ g = a.extractLsb' 0 8) ∨
        (classify a = .nonAscii ∧ g = c.replacementGlyph)

/-- Derived from 42_console R155 (a): writing 2005 printable characters from position 0 scrolls exactly once (3840 memory
reads in all), discards the first 80, leaves characters 81 to 2000 in rows 0 to 23, the last five at the start of row 24
followed by 75 blanks, and ends in column 5 of the last row. -/
def Obligations.FillingTheScreenScrollsOnce : Prop :=
  ∀ (s : State) (cs : List Word), s.cfg.Ok → s.mem.wf = true → s.validCon = true → s.pos = 0 → cs.length = 2005 →
    (∀ a ∈ cs, 0x20 ≤ a.toNat ∧ a.toNat ≤ 0x7E) →
    ∃ t, execAll (cs.map .conPutc) s = .next t ∧
      (∀ i, i < 1920 → ∃ a, cs[i + 80]? = some a ∧ t.cell i = (a.extractLsb' 0 8, s.attr)) ∧
      (∀ i, i < 5 → ∃ a, cs[i + 2000]? = some a ∧ t.cell (i + 1920) = (a.extractLsb' 0 8, s.attr)) ∧
      (∀ i, 1925 ≤ i → i < 2000 → t.cell i = (s.cfg.blankCode, s.attr)) ∧
      t.pos = 1925 ∧ CursorOn t ∧
      (t.busEvents.filter isRead).length = (s.busEvents.filter isRead).length + 3840

/-! ### The SER unit -/

/-- Derived from 43_serial R172: SER.RESET on a port with DLAB clear: interrupts off, 8N1, FIFOs enabled and empty, the divisor
latches untouched, the three port writes in order; nothing else changes. -/
def Obligations.SerResetConfiguresTheUart : Prop :=
  ∀ (s : State) (p : Port), s.cfg.Ok → dlabSet s.cfg (s.uart p).lcr = false →
    ∃ t, exec (.serReset p) s = .next t ∧ Responded .ok 0 t ∧
      t.uart p = { s.uart p with
        ier := s.cfg.ierAllOff, lcr := s.cfg.lcr8n1, fcr := s.cfg.fcrResetEnable, fifoOn := true, rxq := [], txq := []
        line := (s.uart p).line.drop 3 } ∧
      Events s t [.out (reg s.cfg p .ier) s.cfg.ierAllOff, .out (reg s.cfg p .lcr) s.cfg.lcr8n1,
        .out (reg s.cfg p .fcr) s.cfg.fcrResetEnable] ∧
      t.uart (otherPort p) = s.uart (otherPort p) ∧ SameCrc s t ∧ SameCon s t ∧ SameCursor s t ∧ SameMemory s t ∧
      SameHost s t

/-- Derived from 70_reset R271: SER.RESET with DLAB found set puts its first byte into the high divisor latch and leaves the
interrupt enables; a second SER.RESET then reaches them. -/
def Obligations.SerResetWithDlabSetIsRepairedByASecond : Prop :=
  ∀ (s : State) (p : Port), s.cfg.Ok → dlabSet s.cfg (s.uart p).lcr = true →
    ∃ t u, exec (.serReset p) s = .next t ∧
      (t.uart p).dlm = s.cfg.ierAllOff ∧ (t.uart p).ier = (s.uart p).ier ∧ (t.uart p).lcr = s.cfg.lcr8n1 ∧
      (t.uart p).rxq = [] ∧
      exec (.serReset p) t = .next u ∧ (u.uart p).ier = s.cfg.ierAllOff ∧ (u.uart p).dlm = s.cfg.ierAllOff

/-- Stated, 43_serial R175: the valid rates are exactly the 89 listed, which are the divisors of 115200 but 1, each with the
listed divisor, which is exact and fits the 16-bit latch. -/
def Obligations.ValidRatesAndDivisorsAreTheListed : Prop :=
  (∀ r : Word, baudValid r = true ↔ r.toNat ∈ rateTable.map Prod.fst) ∧
  (∀ r : Word, baudValid r = true ↔ r.toNat ∣ 115200 ∧ r.toNat ≠ 1) ∧
  (∀ r : Word, baudValid r = true → (r.toNat, (baudDivisor r).toNat) ∈ rateTable ∧
    (baudDivisor r).toNat = 115200 / r.toNat ∧ (baudDivisor r).toNat * r.toNat = 115200 ∧
    1 ≤ (baudDivisor r).toNat ∧ (baudDivisor r).toNat ≤ 57600) ∧
  rateTable.length = 89 ∧ (rateTable.map Prod.fst).Nodup

/-- Derived from 43_serial R174: SER.BAUD with a valid rate leaves the divisor in the latches and LCR as it was with DLAB clear,
by one port read and four port writes in order; the bytes that arrived at these five events stand in order behind those that
waited, and none was lost; nothing else changes. -/
def Obligations.SerBaudProgramsTheDivisor : Prop :=
  ∀ (s : State) (p : Port) (a : Word), s.cfg.Ok → baudValid a = true →
    ∃ t, exec (.serBaud a p) s = .next t ∧ Responded .ok 0 t ∧
      t.uart p = { s.uart p with
        lcr := (s.uart p).lcr &&& ~~~s.cfg.lcrDlab
        dll := (BitVec.ofNat 16 (115200 / a.toNat)).extractLsb' 0 8
        dlm := (BitVec.ofNat 16 (115200 / a.toNat)).extractLsb' 8 8
        rxq := (s.uart p).rxq ++ arrivedIn p s 5, line := (s.uart p).line.drop 5 } ∧
      Events s t [
        .inp (reg s.cfg p .lcr) (s.uart p).lcr,
        .out (reg s.cfg p .lcr) ((s.uart p).lcr ||| s.cfg.lcrDlab),
        .out (reg s.cfg p .dll) ((BitVec.ofNat 16 (115200 / a.toNat)).extractLsb' 0 8),
        .out (reg s.cfg p .dlm) ((BitVec.ofNat 16 (115200 / a.toNat)).extractLsb' 8 8),
        .out (reg s.cfg p .lcr) ((s.uart p).lcr &&& ~~~s.cfg.lcrDlab)] ∧
      t.uart (otherPort p) = s.uart (otherPort p) ∧ SameCrc s t ∧ SameCon s t ∧ SameCursor s t ∧ SameMemory s t ∧
      SameHost s t

/-- Derived from 43_serial R173, R174: SER.BAUD with an invalid rate answers ERR_BAUD with the rejected rate; nothing changes
and no bus event occurs. -/
def Obligations.SerBaudRejectsInvalidRates : Prop :=
  ∀ (s : State) (p : Port) (a : Word), ¬ (2 ≤ a.toNat ∧ a.toNat ≤ 115200 ∧ 115200 % a.toNat = 0) →
    exec (.serBaud a p) s = .next { s with
      cmd := none, rxPart := [], resp := some ⟨.errBaud, a⟩, hist := .resp ⟨.errBaud, a⟩ :: s.hist }

/-- Stated, 43_serial R176: a SER.BAUD that reads LCR leaves it as read with DLAB cleared; and after
SER.RESET followed by any number of SER.BAUD on the same port LCR is LCR_8N1. -/
def Obligations.LineControlIsPreserved : Prop :=
  (∀ (s t : State) (p : Port) (a : Word), s.cfg.Ok → baudValid a = true → exec (.serBaud a p) s = .next t →
    (t.uart p).lcr = (s.uart p).lcr &&& ~~~s.cfg.lcrDlab) ∧
  (∀ (s : State) (p : Port) (rates : List Word), s.cfg.Ok →
    ∃ t, execAll (.serReset p :: rates.map fun r => .serBaud r p) s = .next t ∧ (t.uart p).lcr = s.cfg.lcr8n1)

/-- Derived from 43_serial R178, R182: SER.RXB with a byte waiting and DLAB clear answers that byte: one read of LSR with data
ready and the other bits as the environment has them, then one read of DATA, which takes the byte from the queue; what arrives at
that read stands behind the rest; nothing is written and nothing else changes. -/
def Obligations.SerRxbAnswersTheOldestByte : Prop :=
  ∀ (s : State) (p : Port) (b : Byte) (rest : List Byte), s.cfg.Ok → dlabSet s.cfg (s.uart p).lcr = false →
    queueNow p s = b :: rest →
    ∃ t, exec (.serRxb p) s = .next t ∧ Responded .ok (b.setWidth 32) t ∧
      t.uart p = { s.uart p with rxq := rest ++ (momentAt p s 1).arrived, line := (s.uart p).line.drop 2 } ∧
      (∃ v, v &&& s.cfg.lsrDr ≠ 0 ∧ v &&& ~~~s.cfg.lsrDr = (momentAt p s 0).lsr &&& ~~~s.cfg.lsrDr ∧
        Events s t [.inp (reg s.cfg p .lsr) v, .inp (reg s.cfg p .data) b]) ∧
      t.uart (otherPort p) = s.uart (otherPort p) ∧ SameCrc s t ∧ SameCon s t ∧ SameCursor s t ∧ SameMemory s t ∧
      SameHost s t

/-- Derived from 43_serial R178, R184, 60_exceptions R249: SER.RXB and SER.RXW with nothing waiting make one poll, which shows
data ready clear, and stay in progress: no response, no fault, DATA not read, the bytes received so far kept. (That a step makes
exactly one such poll and ends with the command in progress is the model's choice, log 9: the spec has a loop and no steps.) -/
def Obligations.ReceiveCommandsWaitForData : Prop :=
  ∀ (s : State) (p : Port) (i : Instr), s.cfg.Ok → queueNow p s = [] → s.rxPart.length < 4 →
    i = .serRxb p ∨ i = .serRxw p →
    ∃ t, exec i s = .next t ∧ t.cmd = s.cmd ∧ t.resp = s.resp ∧ t.rxPart = s.rxPart ∧
      t.uart p = { s.uart p with rxq := [], line := (s.uart p).line.drop 1 } ∧
      (∃ v, v &&& s.cfg.lsrDr = 0 ∧ Events s t [.inp (reg s.cfg p .lsr) v]) ∧
      t.uart (otherPort p) = s.uart (otherPort p) ∧ SameCrc s t ∧ SameCon s t ∧ SameCursor s t ∧ SameMemory s t ∧
      SameHost s t

/-- Derived from 43_serial R180, R182, 30_encoding R93: SER.RXW answers the word in the step at each of whose polls the next of the
bytes it still needs (all four at its first step, fewer when it has received some) waits or has just come: the first byte in bits
7:0 under LE and in bits 31:24 under BE. It takes exactly those bytes from the queue; what else waited or came at its events
stands there, in order; nothing else changes. (That such a run of polls is one step is the model's choice, log 9; the moments of
the events are log 8.) -/
def Obligations.SerRxwAssemblesFourBytes : Prop :=
  ∀ (s : State) (p : Port) (b0 b1 b2 b3 : Byte) (need : List Byte), s.cfg.Ok →
    dlabSet s.cfg (s.uart p).lcr = false → s.rxPart ++ need = [b0, b1, b2, b3] →
    (∀ k, k < need.length → need.take (k + 1) <+: (s.uart p).rxq ++ arrivedIn p s (2 * k + 1)) →
    ∃ t w, exec (.serRxw p) s = .next t ∧ Responded .ok w t ∧
      (match s.cfg.serWordOrder with
        | .le => w.extractLsb' 0 8 = b0 ∧ w.extractLsb' 8 8 = b1 ∧ w.extractLsb' 16 8 = b2 ∧ w.extractLsb' 24 8 = b3
        | .be => w.extractLsb' 0 8 = b3 ∧ w.extractLsb' 8 8 = b2 ∧ w.extractLsb' 16 8 = b1 ∧ w.extractLsb' 24 8 = b0) ∧
      t.uart p = { s.uart p with
        rxq := ((s.uart p).rxq ++ arrivedIn p s (2 * need.length)).drop need.length
        line := (s.uart p).line.drop (2 * need.length) } ∧
      t.uart (otherPort p) = s.uart (otherPort p) ∧ SameCrc s t ∧ SameCon s t ∧ SameCursor s t ∧ SameMemory s t ∧
      SameHost s t

/-- Derived from 43_serial R180, R182, R183, 10_state R41 (b): a step of SER.RXW that does not end it has taken every byte that
was waiting and every byte that arrived at the step's own events, in order, behind those it had, and no byte is lost: it made
two events for each byte it took and one poll that found nothing; it is still in progress, with fewer than four bytes. (That it
may stop between two bytes is the model's step, log 9; the moments of the events are log 8.) -/
def Obligations.SerRxwKeepsTheBytesOfAnUnfinishedWord : Prop :=
  ∀ (s t : State) (p : Port), s.cfg.Ok → dlabSet s.cfg (s.uart p).lcr = false → s.rxPart.length < 4 →
    s.cmd = some (encode (.serRxw p)) → exec (.serRxw p) s = .next t → t.cmd ≠ none →
    ∃ taken, t.rxPart = s.rxPart ++ taken ∧ taken = (s.uart p).rxq ++ arrivedIn p s (2 * taken.length + 1) ∧
      t.rxPart.length < 4 ∧ t.now = s.now + (2 * taken.length + 1) ∧
      t.busEvents.length = s.busEvents.length + (2 * taken.length + 1) ∧
      t.uart p = { s.uart p with rxq := [], line := (s.uart p).line.drop (2 * taken.length + 1) } ∧
      t.cmd = s.cmd ∧ t.resp = s.resp ∧ t.uart (otherPort p) = s.uart (otherPort p)

/-- Derived from 43_serial R180: when four bytes are waiting, SER.RXW answers the word assembled from what four SER.RXB on the
same port answer, makes the same bus events and leaves the same UART. -/
def Obligations.SerRxwIsFourSerRxb : Prop :=
  ∀ (s : State) (p : Port), s.cfg.Ok → dlabSet s.cfg (s.uart p).lcr = false → s.rxPart = [] →
    4 ≤ (s.uart p).rxq.length →
    ∃ (t u1 u2 u3 u4 : State) (b0 b1 b2 b3 : Byte),
      exec (.serRxb p) s = .next u1 ∧ u1.resp = some ⟨.ok, b0.setWidth 32⟩ ∧
      exec (.serRxb p) u1 = .next u2 ∧ u2.resp = some ⟨.ok, b1.setWidth 32⟩ ∧
      exec (.serRxb p) u2 = .next u3 ∧ u3.resp = some ⟨.ok, b2.setWidth 32⟩ ∧
      exec (.serRxb p) u3 = .next u4 ∧ u4.resp = some ⟨.ok, b3.setWidth 32⟩ ∧
      exec (.serRxw p) s = .next t ∧ t.resp = some ⟨.ok, assembleWord s.cfg.serWordOrder [b0, b1, b2, b3]⟩ ∧
      t.uart p = u4.uart p ∧ t.busEvents = u4.busEvents

/-- Derived from 20_memory R58, 30_encoding R93: a received word folded by CRC.WORD folds its four bytes in the order in which
they came over the line when the two word orders are equal, and in the reverse order when they differ. -/
def Obligations.ReceivedWordsFoldInLineOrder : Prop :=
  ∀ (acc : Word) (ser crc : ByteOrder) (b0 b1 b2 b3 : Byte),
    crcFold acc (cutWord crc (assembleWord ser [b0, b1, b2, b3])) =
      crcFold acc (if ser = crc then [b0, b1, b2, b3] else [b3, b2, b1, b0])

/-- Derived from 70_reset R275, 60_exceptions R249: there is no time-out. For every number of polls and every line so silent, a
receive command makes that many reads of LSR, each with data ready clear and the other bits as the environment has them, no
other bus event, and is then still in progress, without a response and without a fault. (That a step makes one poll is the
model's choice, log 9; the scripted moments are log 8.) -/
def Obligations.NoTimeOut : Prop :=
  ∀ (s : State) (p : Port) (i : Instr) (ms later : List Config.Moment), s.cfg.Ok → s.rxPart.length < 4 →
    i = .serRxb p ∨ i = .serRxw p → s.cmd = some (encode i) → (s.uart p).rxq = [] →
    (∀ m ∈ ms, m.arrived = []) → (s.uart p).line = ms ++ later →
    ∃ t, Sys2Proof.core.run ms.length s = .next t ∧ t.cmd = s.cmd ∧ t.resp = s.resp ∧ t.rxPart = s.rxPart ∧
      Events s t (ms.map fun m => .inp (reg s.cfg p .lsr) (m.lsr &&& ~~~s.cfg.lsrDr)) ∧
      t.uart p = { s.uart p with line := later }

/-- Derived from 43_serial R170: a SER command on one port leaves the other port's UART alone and makes no bus event on its
ports. -/
def Obligations.SerialPortsAreIndependent : Prop :=
  ∀ (s t : State) (p : Port) (a : Word) (i : Instr), s.cfg.Ok →
    i = .serReset p ∨ i = .serBaud a p ∨ i = .serRxb p ∨ i = .serRxw p → exec i s = .next t →
    t.uart (otherPort p) = s.uart (otherPort p) ∧
    t.busEvents.filter (onPortsOf s.cfg (otherPort p)) = s.busEvents.filter (onPortsOf s.cfg (otherPort p))

/-! ### LOAD, the host and the halt -/

/-- Derived from 45_loader_sequence R206, 60_exceptions R231: when the count is above 16 the check ends LOAD as fatal with the
count recorded; nothing remains for the host but the report and the halt, and memory and devices are as they were. A count of 0
to 16 is accepted: what comes next is the rest of the header for that count (its order is in
HeaderComesBeforeAnyPayloadByte). -/
def Obligations.LoadRejectsMoreThanSixteenSegments : Prop :=
  ∀ (s : State) (rest : List HostOp), s.cmd = none → s.halted = false → s.host = .checkCount :: rest →
    (16 < s.loader.count.toNat →
      step s = .next { s with
        load := .fatal .segmentCount s.loader.count, host := [.report, .halt] }) ∧
    (s.loader.count.toNat ≤ 16 → step s = .next { s with host := headerOps s.loader.count.toNat ++ rest })

/-- Derived from 45_loader_sequence R204, R207, R211: a header checksum that differs from the digest ends LOAD as fatal with the
received checksum recorded, before any payload byte: nothing remains but the report and the halt. An equal one is accepted: what
comes next is, but for reports, each segment's copy in declared order, then CRC.RESET, one CRC.BUF for each segment in the same
order, the digest and the data check. -/
def Obligations.LoadRejectsWrongHeaderChecksum : Prop :=
  (∀ (s : State) (rest : List HostOp), s.cmd = none → s.halted = false → s.host = .checkHeader :: rest →
    (s.loader.headerSum ≠ s.loader.headerDigest →
      step s = .next { s with
        load := .fatal .headerChecksum s.loader.headerSum, host := [.report, .halt] }) ∧
    (s.loader.headerSum = s.loader.headerDigest →
      step s = .next { s with host := payloadOps s.loader.segs ++ rest })) ∧
  (∀ segs : List Segment, (payloadOps segs).filter (fun o => decide (o ≠ .report)) =
    segs.map .segment ++ [.command (encode .crcReset)] ++
      segs.map (fun g => .command (encode (.crcBuf g.dest g.len))) ++ [.digest .dataDigest, .checkData])

/-- Derived from 45_loader_sequence R211, R212: the data check returns the start address when the digests agree and is fatal,
with the computed digest recorded and memory left as it is, when they differ. -/
def Obligations.LoadReturnsStartOrRejectsData : Prop :=
  ∀ (s : State) (rest : List HostOp), s.cmd = none → s.halted = false → s.host = .checkData :: rest →
    (s.loader.dataDigest = s.loader.dataSum → step s = .next { s with load := .returned s.loader.start, host := rest }) ∧
    (s.loader.dataDigest ≠ s.loader.dataSum → step s = .next { s with
      load := .fatal .dataChecksum s.loader.dataDigest, host := [.report, .halt] })

/-- Derived from 45_loader_sequence R209: a step of a segment's copy asks for one byte; once it has come it is stored at the
next address of the segment, and no other byte of memory changes; a copy with no byte left, and so the copy of a segment of
length 0, receives and writes nothing. (That the host goes on unaffected whatever address it stores to, its own program's memory
among them, is the model's choice, log 26.) -/
def Obligations.LoadStoresEachByteInOrder : Prop :=
  (∀ (s : State) (a : Addr) (n : Nat) (rest : List HostOp), s.cmd = none → s.halted = false →
    s.host = .copy a (n + 1) :: rest →
    step s = .next { s with
      host := .store a :: .copy (a + 1) n :: rest, cmd := some (encode (.serRxb s.loader.port)), rxPart := [] }) ∧
  (∀ (s : State) (a : Addr) (rest : List HostOp), s.cmd = none → s.halted = false → s.host = .copy a 0 :: rest →
    step s = .next { s with host := rest }) ∧
  (∀ (s : State) (a : Addr) (rest : List HostOp), s.cmd = none → s.halted = false → s.host = .segment ⟨a, 0⟩ :: rest →
    step s = .next { s with host := .copy a 0 :: rest }) ∧
  (∀ (s : State) (a : Addr) (r : Response) (rest : List HostOp), s.cmd = none → s.halted = false → s.mem.wf = true →
    s.host = .store a :: rest → s.resp = some r →
    ∃ t, step s = .next t ∧ t.mem.read a.toNat = r.value.extractLsb' 0 8 ∧
      (∀ b : Addr, b ≠ a → t.mem.read b.toNat = s.mem.read b.toNat) ∧
      Events s t [.wr a (r.value.extractLsb' 0 8)] ∧
      t = { s with mem := t.mem, hist := t.hist, now := t.now, host := rest })

/-- Derived from 45_loader_sequence R202, R204, R205, R208: LOAD puts the header's actions in front of what the host does, and is
then before the check of its header; every step from there stays there or takes a check of the count that is above 16 or the
check of the header; until then no step changes a byte of memory but a report's CON command in the cell array, no action of
the host makes a bus event, and no SER.RXB is ever in progress. In that part, reports left out, the fields come in wire order:
each is received with SER.RXW, kept, and folded with CRC.WORD, all but the last; a received word and a digest are kept in their own
variable, a pair goes to the end of the table. (That every LOAD begins with its words 0 and its table empty is the model's
choice, log 21.) -/
def Obligations.HeaderComesBeforeAnyPayloadByte : Prop :=
  (∀ (s : State) (p : Port) (rest : List HostOp), s.cmd = none → s.halted = false → s.host = .load p :: rest →
    ∃ t, step s = .next t ∧ t.InHeader ∧
      t = { s with loader := { Loader.reset with port := p }, load := .running, host := loadOps ++ rest }) ∧
  (∀ s t : State, s.Inv → s.InHeader → step s = .next t →
    (t.InHeader ∨ (s.cmd = none ∧ ∃ rest, s.host = .checkHeader :: rest) ∨
      (s.cmd = none ∧ 16 < s.loader.count.toNat ∧ ∃ rest, s.host = .checkCount :: rest)) ∧
    (∀ a : Addr, ¬ inCellArray s.cfg a → t.mem.read a.toNat = s.mem.read a.toNat) ∧
    (s.cmd = none → t.mem = s.mem ∧ t.hist = s.hist) ∧ (∀ q, s.cmd ≠ some (encode (.serRxb q)))) ∧
  (loadOps.filter (fun o => decide (o ≠ .report)) = [.command (encode .crcReset),
    .recvWord .start, .fold .start, .recvWord .count, .fold .count, .checkCount]) ∧
  (∀ n, (headerOps n).filter (fun o => decide (o ≠ .report)) =
    (List.replicate n [.recvWord .dest, .fold .dest, .recvWord .len, .fold .len, .addSegment]).flatten ++
      [.recvWord .dataSum, .fold .dataSum, .digest .headerDigest, .recvWord .headerSum, .checkHeader]) ∧
  (∀ (s : State) (x : LoadVar) (rest : List HostOp), s.cmd = none → s.halted = false →
    (s.host = .recvWord x :: rest → step s = .next { s with
      host := .take x :: rest, cmd := some (encode (.serRxw s.loader.port)), rxPart := [] }) ∧
    (s.host = .digest x :: rest → step s = .next { s with
      host := .take x :: rest, cmd := some (encode .crcFinal), rxPart := [] }) ∧
    (∀ r, s.host = .take x :: rest → s.resp = some r → step s = .next { s with
      host := rest, loader := s.loader.set x r.value }) ∧
    (s.host = .fold x :: rest → step s = .next { s with
      host := rest, cmd := some (encode (.crcWord (s.loader.get x))), rxPart := [] }) ∧
    (s.host = .addSegment :: rest → step s = .next { s with
      host := rest
      loader := { s.loader with segs := s.loader.segs ++ [⟨s.loader.get .dest, s.loader.get .len⟩] } })) ∧
  (∀ (l : Loader) (x y : LoadVar) (v : Word),
    (l.set x v).get y = (if y = x then v else l.get y) ∧ (l.set x v).port = l.port ∧ (l.set x v).segs = l.segs)

/-- Derived from 45_loader_sequence R213: a report is commands of the CON unit and nothing else, and it changes no register, no
memory and no device by itself. -/
def Obligations.ReportsAreConsoleCommands : Prop :=
  ∀ (s : State) (rest : List HostOp), s.cmd = none → s.halted = false → s.host = .report :: rest →
    ∃ is : List Instr, (∀ i ∈ is, i.isCon = true ∧ i.wf = true) ∧
      step s = .next { s with
        reports := s.reports.tail, reportNo := s.reportNo + 1
        host := is.map (fun i => HostOp.command (encode i)) ++ rest }

/-- Derived from 60_exceptions R240, R241: the last action of a fatal outcome halts the host and leaves it nothing to do; the halt
is for ever: any number of steps of a halted host with no command in progress leaves the whole state as it is. (That the UARTs'
queues are among what is left as it is, although R240 lets them receive bytes, is the model's choice, log 18.) -/
def Obligations.HaltIsForEver : Prop :=
  (∀ (s : State) (rest : List HostOp), s.cmd = none → s.halted = false → s.host = .halt :: rest →
    step s = .next { s with halted := true, host := [] }) ∧
  (∀ (s : State) (n : Nat), s.cmd = none → s.halted = true → Sys2Proof.core.run n s = .next s)

/-- Derived from 45_loader_sequence R209, 20_memory R55: a segment inside the address space is copied byte for byte from its
destination on; one that runs past the top is the fault AddressRange (when its copy begins: the model's choice, log 17). -/
def Obligations.LoadSegmentsStayInTheAddressSpace : Prop :=
  ∀ (s : State) (g : Segment) (rest : List HostOp), s.cmd = none → s.halted = false → s.host = .segment g :: rest →
    (g.dest.toNat + g.len.toNat ≤ 2 ^ 32 → step s = .next { s with host := .copy g.dest g.len.toNat :: rest }) ∧
    (2 ^ 32 < g.dest.toNat + g.len.toNat → step s = .fault .addressRange)
end

