-- ==== Sys2Proof/Laws/Memory.lean ====
section
/-! SUPPORT. Memory: what a read gives after a write, and that every operation keeps the canonical form. -/

namespace Sys2Proof.Machine

theorem Memory.read_below {lo a : Nat} {m : Memory} (h : Memory.wfFrom lo m = true) (ha : a < lo) :
    Memory.read m a = Memory.unlisted := by
  induction m generalizing lo with
  | nil => rfl
  | cons c m ih =>
    obtain ⟨k, w⟩ := c
    simp only [Memory.wfFrom, Bool.and_eq_true, decide_eq_true_eq] at h
    have hne : a ≠ k := by omega
    simp only [Memory.read, hne, if_false]
    exact ih h.2 (by omega)

theorem Memory.wfFrom_mono {lo lo' : Nat} {m : Memory} (h : Memory.wfFrom lo m = true) (hle : lo' ≤ lo) :
    Memory.wfFrom lo' m = true := by
  cases m with
  | nil => rfl
  | cons c m =>
    simp only [Memory.wfFrom, Bool.and_eq_true, decide_eq_true_eq] at h ⊢
    exact ⟨⟨⟨by omega, h.1.1.2⟩, h.1.2⟩, h.2⟩

theorem Memory.consUnless_wfFrom {lo a : Nat} {v : Byte} {m : Memory} (hlo : lo ≤ a) (ha : a < 2 ^ 32)
    (h : Memory.wfFrom (a + 1) m = true) : Memory.wfFrom lo (Memory.consUnless a v m) = true := by
  unfold Memory.consUnless
  split
  · exact Memory.wfFrom_mono h (by omega)
  · rename_i hv
    simp only [Memory.wfFrom, Bool.and_eq_true, decide_eq_true_eq]
    exact ⟨⟨⟨hlo, ha⟩, hv⟩, h⟩

theorem Memory.write_wfFrom {lo a : Nat} {v : Byte} {m : Memory} (hlo : lo ≤ a) (ha : a < 2 ^ 32)
    (h : Memory.wfFrom lo m = true) : Memory.wfFrom lo (Memory.write m a v) = true := by
  induction m generalizing lo with
  | nil => exact Memory.consUnless_wfFrom hlo ha rfl
  | cons c m ih =>
    obtain ⟨k, w⟩ := c
    have hc := h
    simp only [Memory.wfFrom, Bool.and_eq_true, decide_eq_true_eq] at h
    simp only [Memory.write]
    split
    · refine Memory.consUnless_wfFrom hlo ha ?_
      simp only [Memory.wfFrom, Bool.and_eq_true, decide_eq_true_eq]
      exact ⟨⟨⟨by omega, h.1.1.2⟩, h.1.2⟩, h.2⟩
    · split
      · subst_vars
        exact Memory.consUnless_wfFrom hlo ha h.2
      · simp only [Memory.wfFrom, Bool.and_eq_true, decide_eq_true_eq]
        exact ⟨h.1, ih (by omega) h.2⟩

/-- A write inside the address space keeps the canonical form. -/
theorem Memory.write_wf {a : Nat} {v : Byte} {m : Memory} (ha : a < 2 ^ 32) (h : m.wf = true) :
    (m.write a v).wf = true :=
  Memory.write_wfFrom (Nat.zero_le a) ha h

theorem Memory.read_consUnless_same (a : Nat) (v : Byte) {m : Memory} (h : Memory.read m a = Memory.unlisted) :
    Memory.read (Memory.consUnless a v m) a = v := by
  unfold Memory.consUnless
  split
  · rename_i hv
    rw [h, hv]
  · simp [Memory.read]

theorem Memory.read_consUnless_other {a b : Nat} (v : Byte) (m : Memory) (h : b ≠ a) :
    Memory.read (Memory.consUnless a v m) b = Memory.read m b := by
  unfold Memory.consUnless
  split
  · rfl
  · simp [Memory.read, h]

theorem Memory.read_write_same_from {lo a : Nat} {v : Byte} {m : Memory} (h : Memory.wfFrom lo m = true) :
    Memory.read (Memory.write m a v) a = v := by
  induction m generalizing lo with
  | nil => exact Memory.read_consUnless_same a v rfl
  | cons c m ih =>
    obtain ⟨k, w⟩ := c
    have hc := h
    simp only [Memory.wfFrom, Bool.and_eq_true, decide_eq_true_eq] at h
    simp only [Memory.write]
    split
    · refine Memory.read_consUnless_same a v ?_
      have hne : a ≠ k := by omega
      simp only [Memory.read, hne, if_false]
      exact Memory.read_below h.2 (by omega)
    · split
      · subst_vars
        exact Memory.read_consUnless_same _ v (Memory.read_below h.2 (by omega))
      · rename_i hne
        simp only [Memory.read, hne, if_false]
        exact ih h.2

/-- A read after a write to the same address gives the byte written (20_memory R53). -/
theorem Memory.read_write_same {a : Nat} {v : Byte} {m : Memory} (h : m.wf = true) : (m.write a v).read a = v :=
  Memory.read_write_same_from h

/-- A write leaves every other address alone (20_memory R54). -/
theorem Memory.read_write_other {a b : Nat} (v : Byte) (m : Memory) (h : b ≠ a) :
    Memory.read (Memory.write m a v) b = Memory.read m b := by
  induction m with
  | nil => exact Memory.read_consUnless_other v [] h
  | cons c m ih =>
    obtain ⟨k, w⟩ := c
    simp only [Memory.write]
    split
    · exact Memory.read_consUnless_other v _ h
    · split
      · subst_vars
        rw [Memory.read_consUnless_other v _ h]
        simp [Memory.read, h]
      · simp only [Memory.read]
        split
        · rfl
        · exact ih

theorem Memory.ext_from {lo : Nat} {m n : Memory} (hm : Memory.wfFrom lo m = true) (hn : Memory.wfFrom lo n = true)
    (h : ∀ a, lo ≤ a → a < 2 ^ 32 → Memory.read m a = Memory.read n a) : m = n := by
  induction m generalizing lo n with
  | nil =>
    cases n with
    | nil => rfl
    | cons c n =>
      obtain ⟨k, w⟩ := c
      simp only [Memory.wfFrom, Bool.and_eq_true, decide_eq_true_eq] at hn
      have := h k hn.1.1.1 hn.1.1.2
      simp only [Memory.read, if_true] at this
      exact absurd this.symm hn.1.2
  | cons c m ih =>
    obtain ⟨k, w⟩ := c
    have hmc := hm
    simp only [Memory.wfFrom, Bool.and_eq_true, decide_eq_true_eq] at hm
    cases n with
    | nil =>
      have := h k hm.1.1.1 hm.1.1.2
      simp only [Memory.read, if_true] at this
      exact absurd this hm.1.2
    | cons d n =>
      obtain ⟨j, x⟩ := d
      have hnc := hn
      simp only [Memory.wfFrom, Bool.and_eq_true, decide_eq_true_eq] at hn
      have hk := h k hm.1.1.1 hm.1.1.2
      have hj := h j hn.1.1.1 hn.1.1.2
      have hkj : k = j := by
        rcases Nat.lt_trichotomy k j with hlt | heq | hgt
        · have : k ≠ j := by omega
          simp only [Memory.read, if_true, this, if_false] at hk
          rw [Memory.read_below hn.2 (by omega)] at hk
          exact absurd hk hm.1.2
        · exact heq
        · have : j ≠ k := by omega
          simp only [Memory.read, if_true, this, if_false] at hj
          rw [Memory.read_below hm.2 (by omega)] at hj
          exact absurd hj.symm hn.1.2
      subst hkj
      simp only [Memory.read, if_true] at hk
      subst hk
      rw [ih hm.2 hn.2 fun a ha ha' => ?_]
      have := h a (by omega) ha'
      have hne : a ≠ k := by omega
      simpa only [Memory.read, hne, if_false] using this

/-- Memories in canonical form that read the same everywhere are the same data. -/
theorem Memory.ext {m n : Memory} (hm : m.wf = true) (hn : n.wf = true)
    (h : ∀ a : Addr, m.read a.toNat = n.read a.toNat) : m = n :=
  Memory.ext_from hm hn fun a _ ha => by
    have := h (BitVec.ofNat 32 a)
    rwa [BitVec.toNat_ofNat, Nat.mod_eq_of_lt ha] at this

end Sys2Proof.Machine
end

