-- ==== Sys2Proof/Laws/State.lean ====
section
/-! SUPPORT. The small lemmas of the state's updates: one per field and update, each true by rfl. No later proof unfolds a
record update. -/

namespace Sys2Proof.Machine

@[simp] theorem State.emit_cfg (s : State) (e : Event) : (s.emit e).cfg = s.cfg := rfl
@[simp] theorem State.emit_acc (s : State) (e : Event) : (s.emit e).acc = s.acc := rfl
@[simp] theorem State.emit_validCrc (s : State) (e : Event) : (s.emit e).validCrc = s.validCrc := rfl
@[simp] theorem State.emit_pos (s : State) (e : Event) : (s.emit e).pos = s.pos := rfl
@[simp] theorem State.emit_attr (s : State) (e : Event) : (s.emit e).attr = s.attr := rfl
@[simp] theorem State.emit_validCon (s : State) (e : Event) : (s.emit e).validCon = s.validCon := rfl
@[simp] theorem State.emit_crtcIndex (s : State) (e : Event) : (s.emit e).crtcIndex = s.crtcIndex := rfl
@[simp] theorem State.emit_cursorLoc (s : State) (e : Event) : (s.emit e).cursorLoc = s.cursorLoc := rfl
@[simp] theorem State.emit_com1 (s : State) (e : Event) : (s.emit e).com1 = s.com1 := rfl
@[simp] theorem State.emit_com2 (s : State) (e : Event) : (s.emit e).com2 = s.com2 := rfl
@[simp] theorem State.emit_mem (s : State) (e : Event) : (s.emit e).mem = s.mem := rfl
@[simp] theorem State.emit_cmd (s : State) (e : Event) : (s.emit e).cmd = s.cmd := rfl
@[simp] theorem State.emit_rxPart (s : State) (e : Event) : (s.emit e).rxPart = s.rxPart := rfl
@[simp] theorem State.emit_resp (s : State) (e : Event) : (s.emit e).resp = s.resp := rfl
@[simp] theorem State.emit_host (s : State) (e : Event) : (s.emit e).host = s.host := rfl
@[simp] theorem State.emit_loader (s : State) (e : Event) : (s.emit e).loader = s.loader := rfl
@[simp] theorem State.emit_load (s : State) (e : Event) : (s.emit e).load = s.load := rfl
@[simp] theorem State.emit_halted (s : State) (e : Event) : (s.emit e).halted = s.halted := rfl
@[simp] theorem State.emit_reports (s : State) (e : Event) : (s.emit e).reports = s.reports := rfl
@[simp] theorem State.emit_reportNo (s : State) (e : Event) : (s.emit e).reportNo = s.reportNo := rfl
@[simp] theorem State.emit_now (s : State) (e : Event) : (s.emit e).now = s.now + 1 := rfl
@[simp] theorem State.emit_hist (s : State) (e : Event) : (s.emit e).hist = e :: s.hist := rfl

@[simp] theorem State.respond_cfg (s : State) (st : Status) (v : Word) : (s.respond st v).cfg = s.cfg := rfl
@[simp] theorem State.respond_acc (s : State) (st : Status) (v : Word) : (s.respond st v).acc = s.acc := rfl
@[simp] theorem State.respond_validCrc (s : State) (st : Status) (v : Word) : (s.respond st v).validCrc = s.validCrc := rfl
@[simp] theorem State.respond_pos (s : State) (st : Status) (v : Word) : (s.respond st v).pos = s.pos := rfl
@[simp] theorem State.respond_attr (s : State) (st : Status) (v : Word) : (s.respond st v).attr = s.attr := rfl
@[simp] theorem State.respond_validCon (s : State) (st : Status) (v : Word) : (s.respond st v).validCon = s.validCon := rfl
@[simp] theorem State.respond_crtcIndex (s : State) (st : Status) (v : Word) : (s.respond st v).crtcIndex = s.crtcIndex := rfl
@[simp] theorem State.respond_cursorLoc (s : State) (st : Status) (v : Word) : (s.respond st v).cursorLoc = s.cursorLoc := rfl
@[simp] theorem State.respond_com1 (s : State) (st : Status) (v : Word) : (s.respond st v).com1 = s.com1 := rfl
@[simp] theorem State.respond_com2 (s : State) (st : Status) (v : Word) : (s.respond st v).com2 = s.com2 := rfl
@[simp] theorem State.respond_mem (s : State) (st : Status) (v : Word) : (s.respond st v).mem = s.mem := rfl
@[simp] theorem State.respond_cmd (s : State) (st : Status) (v : Word) : (s.respond st v).cmd = none := rfl
@[simp] theorem State.respond_rxPart (s : State) (st : Status) (v : Word) : (s.respond st v).rxPart = [] := rfl
@[simp] theorem State.respond_resp (s : State) (st : Status) (v : Word) : (s.respond st v).resp = some ⟨st, v⟩ := rfl
@[simp] theorem State.respond_host (s : State) (st : Status) (v : Word) : (s.respond st v).host = s.host := rfl
@[simp] theorem State.respond_loader (s : State) (st : Status) (v : Word) : (s.respond st v).loader = s.loader := rfl
@[simp] theorem State.respond_load (s : State) (st : Status) (v : Word) : (s.respond st v).load = s.load := rfl
@[simp] theorem State.respond_halted (s : State) (st : Status) (v : Word) : (s.respond st v).halted = s.halted := rfl
@[simp] theorem State.respond_reports (s : State) (st : Status) (v : Word) : (s.respond st v).reports = s.reports := rfl
@[simp] theorem State.respond_reportNo (s : State) (st : Status) (v : Word) : (s.respond st v).reportNo = s.reportNo := rfl
@[simp] theorem State.respond_now (s : State) (st : Status) (v : Word) : (s.respond st v).now = s.now := rfl
@[simp] theorem State.respond_hist (s : State) (st : Status) (v : Word) : (s.respond st v).hist = .resp ⟨st, v⟩ :: s.hist := rfl

@[simp] theorem State.raise_cfg (s : State) (st : Status) (v : Word) : (s.raise st v).cfg = s.cfg := rfl
@[simp] theorem State.raise_acc (s : State) (st : Status) (v : Word) : (s.raise st v).acc = s.acc := rfl
@[simp] theorem State.raise_validCrc (s : State) (st : Status) (v : Word) : (s.raise st v).validCrc = s.validCrc := rfl
@[simp] theorem State.raise_pos (s : State) (st : Status) (v : Word) : (s.raise st v).pos = s.pos := rfl
@[simp] theorem State.raise_attr (s : State) (st : Status) (v : Word) : (s.raise st v).attr = s.attr := rfl
@[simp] theorem State.raise_validCon (s : State) (st : Status) (v : Word) : (s.raise st v).validCon = s.validCon := rfl
@[simp] theorem State.raise_crtcIndex (s : State) (st : Status) (v : Word) : (s.raise st v).crtcIndex = s.crtcIndex := rfl
@[simp] theorem State.raise_cursorLoc (s : State) (st : Status) (v : Word) : (s.raise st v).cursorLoc = s.cursorLoc := rfl
@[simp] theorem State.raise_com1 (s : State) (st : Status) (v : Word) : (s.raise st v).com1 = s.com1 := rfl
@[simp] theorem State.raise_com2 (s : State) (st : Status) (v : Word) : (s.raise st v).com2 = s.com2 := rfl
@[simp] theorem State.raise_mem (s : State) (st : Status) (v : Word) : (s.raise st v).mem = s.mem := rfl
@[simp] theorem State.raise_cmd (s : State) (st : Status) (v : Word) : (s.raise st v).cmd = none := rfl
@[simp] theorem State.raise_rxPart (s : State) (st : Status) (v : Word) : (s.raise st v).rxPart = [] := rfl
@[simp] theorem State.raise_resp (s : State) (st : Status) (v : Word) : (s.raise st v).resp = some ⟨st, v⟩ := rfl
@[simp] theorem State.raise_host (s : State) (st : Status) (v : Word) : (s.raise st v).host = s.host := rfl
@[simp] theorem State.raise_loader (s : State) (st : Status) (v : Word) : (s.raise st v).loader = s.loader := rfl
@[simp] theorem State.raise_load (s : State) (st : Status) (v : Word) : (s.raise st v).load = s.load := rfl
@[simp] theorem State.raise_halted (s : State) (st : Status) (v : Word) : (s.raise st v).halted = s.halted := rfl
@[simp] theorem State.raise_reports (s : State) (st : Status) (v : Word) : (s.raise st v).reports = s.reports := rfl
@[simp] theorem State.raise_reportNo (s : State) (st : Status) (v : Word) : (s.raise st v).reportNo = s.reportNo := rfl
@[simp] theorem State.raise_now (s : State) (st : Status) (v : Word) : (s.raise st v).now = s.now := rfl
@[simp] theorem State.raise_hist (s : State) (st : Status) (v : Word) : (s.raise st v).hist = .resp ⟨st, v⟩ :: s.hist := rfl

@[simp] theorem State.deliver_cfg (s : State) (w : Command) : (s.deliver w).cfg = s.cfg := rfl
@[simp] theorem State.deliver_acc (s : State) (w : Command) : (s.deliver w).acc = s.acc := rfl
@[simp] theorem State.deliver_validCrc (s : State) (w : Command) : (s.deliver w).validCrc = s.validCrc := rfl
@[simp] theorem State.deliver_pos (s : State) (w : Command) : (s.deliver w).pos = s.pos := rfl
@[simp] theorem State.deliver_attr (s : State) (w : Command) : (s.deliver w).attr = s.attr := rfl
@[simp] theorem State.deliver_validCon (s : State) (w : Command) : (s.deliver w).validCon = s.validCon := rfl
@[simp] theorem State.deliver_crtcIndex (s : State) (w : Command) : (s.deliver w).crtcIndex = s.crtcIndex := rfl
@[simp] theorem State.deliver_cursorLoc (s : State) (w : Command) : (s.deliver w).cursorLoc = s.cursorLoc := rfl
@[simp] theorem State.deliver_com1 (s : State) (w : Command) : (s.deliver w).com1 = s.com1 := rfl
@[simp] theorem State.deliver_com2 (s : State) (w : Command) : (s.deliver w).com2 = s.com2 := rfl
@[simp] theorem State.deliver_mem (s : State) (w : Command) : (s.deliver w).mem = s.mem := rfl
@[simp] theorem State.deliver_cmd (s : State) (w : Command) : (s.deliver w).cmd = some w := rfl
@[simp] theorem State.deliver_rxPart (s : State) (w : Command) : (s.deliver w).rxPart = [] := rfl
@[simp] theorem State.deliver_resp (s : State) (w : Command) : (s.deliver w).resp = s.resp := rfl
@[simp] theorem State.deliver_host (s : State) (w : Command) : (s.deliver w).host = s.host := rfl
@[simp] theorem State.deliver_loader (s : State) (w : Command) : (s.deliver w).loader = s.loader := rfl
@[simp] theorem State.deliver_load (s : State) (w : Command) : (s.deliver w).load = s.load := rfl
@[simp] theorem State.deliver_halted (s : State) (w : Command) : (s.deliver w).halted = s.halted := rfl
@[simp] theorem State.deliver_reports (s : State) (w : Command) : (s.deliver w).reports = s.reports := rfl
@[simp] theorem State.deliver_reportNo (s : State) (w : Command) : (s.deliver w).reportNo = s.reportNo := rfl
@[simp] theorem State.deliver_now (s : State) (w : Command) : (s.deliver w).now = s.now := rfl
@[simp] theorem State.deliver_hist (s : State) (w : Command) : (s.deliver w).hist = s.hist := rfl

@[simp] theorem State.first_cfg (s : State) (ops : List HostOp) : (s.first ops).cfg = s.cfg := rfl
@[simp] theorem State.first_acc (s : State) (ops : List HostOp) : (s.first ops).acc = s.acc := rfl
@[simp] theorem State.first_validCrc (s : State) (ops : List HostOp) : (s.first ops).validCrc = s.validCrc := rfl
@[simp] theorem State.first_pos (s : State) (ops : List HostOp) : (s.first ops).pos = s.pos := rfl
@[simp] theorem State.first_attr (s : State) (ops : List HostOp) : (s.first ops).attr = s.attr := rfl
@[simp] theorem State.first_validCon (s : State) (ops : List HostOp) : (s.first ops).validCon = s.validCon := rfl
@[simp] theorem State.first_crtcIndex (s : State) (ops : List HostOp) : (s.first ops).crtcIndex = s.crtcIndex := rfl
@[simp] theorem State.first_cursorLoc (s : State) (ops : List HostOp) : (s.first ops).cursorLoc = s.cursorLoc := rfl
@[simp] theorem State.first_com1 (s : State) (ops : List HostOp) : (s.first ops).com1 = s.com1 := rfl
@[simp] theorem State.first_com2 (s : State) (ops : List HostOp) : (s.first ops).com2 = s.com2 := rfl
@[simp] theorem State.first_mem (s : State) (ops : List HostOp) : (s.first ops).mem = s.mem := rfl
@[simp] theorem State.first_cmd (s : State) (ops : List HostOp) : (s.first ops).cmd = s.cmd := rfl
@[simp] theorem State.first_rxPart (s : State) (ops : List HostOp) : (s.first ops).rxPart = s.rxPart := rfl
@[simp] theorem State.first_resp (s : State) (ops : List HostOp) : (s.first ops).resp = s.resp := rfl
@[simp] theorem State.first_host (s : State) (ops : List HostOp) : (s.first ops).host = ops ++ s.host := rfl
@[simp] theorem State.first_loader (s : State) (ops : List HostOp) : (s.first ops).loader = s.loader := rfl
@[simp] theorem State.first_load (s : State) (ops : List HostOp) : (s.first ops).load = s.load := rfl
@[simp] theorem State.first_halted (s : State) (ops : List HostOp) : (s.first ops).halted = s.halted := rfl
@[simp] theorem State.first_reports (s : State) (ops : List HostOp) : (s.first ops).reports = s.reports := rfl
@[simp] theorem State.first_reportNo (s : State) (ops : List HostOp) : (s.first ops).reportNo = s.reportNo := rfl
@[simp] theorem State.first_now (s : State) (ops : List HostOp) : (s.first ops).now = s.now := rfl
@[simp] theorem State.first_hist (s : State) (ops : List HostOp) : (s.first ops).hist = s.hist := rfl

@[simp] theorem State.setUart_cfg (s : State) (p : Port) (u : Uart) : (s.setUart p u).cfg = s.cfg := by
  cases p <;> rfl
@[simp] theorem State.setUart_acc (s : State) (p : Port) (u : Uart) : (s.setUart p u).acc = s.acc := by
  cases p <;> rfl
@[simp] theorem State.setUart_validCrc (s : State) (p : Port) (u : Uart) : (s.setUart p u).validCrc = s.validCrc := by
  cases p <;> rfl
@[simp] theorem State.setUart_pos (s : State) (p : Port) (u : Uart) : (s.setUart p u).pos = s.pos := by
  cases p <;> rfl
@[simp] theorem State.setUart_attr (s : State) (p : Port) (u : Uart) : (s.setUart p u).attr = s.attr := by
  cases p <;> rfl
@[simp] theorem State.setUart_validCon (s : State) (p : Port) (u : Uart) : (s.setUart p u).validCon = s.validCon := by
  cases p <;> rfl
@[simp] theorem State.setUart_crtcIndex (s : State) (p : Port) (u : Uart) : (s.setUart p u).crtcIndex = s.crtcIndex := by
  cases p <;> rfl
@[simp] theorem State.setUart_cursorLoc (s : State) (p : Port) (u : Uart) : (s.setUart p u).cursorLoc = s.cursorLoc := by
  cases p <;> rfl
@[simp] theorem State.setUart_mem (s : State) (p : Port) (u : Uart) : (s.setUart p u).mem = s.mem := by
  cases p <;> rfl
@[simp] theorem State.setUart_cmd (s : State) (p : Port) (u : Uart) : (s.setUart p u).cmd = s.cmd := by
  cases p <;> rfl
@[simp] theorem State.setUart_rxPart (s : State) (p : Port) (u : Uart) : (s.setUart p u).rxPart = s.rxPart := by
  cases p <;> rfl
@[simp] theorem State.setUart_resp (s : State) (p : Port) (u : Uart) : (s.setUart p u).resp = s.resp := by
  cases p <;> rfl
@[simp] theorem State.setUart_host (s : State) (p : Port) (u : Uart) : (s.setUart p u).host = s.host := by
  cases p <;> rfl
@[simp] theorem State.setUart_loader (s : State) (p : Port) (u : Uart) : (s.setUart p u).loader = s.loader := by
  cases p <;> rfl
@[simp] theorem State.setUart_load (s : State) (p : Port) (u : Uart) : (s.setUart p u).load = s.load := by
  cases p <;> rfl
@[simp] theorem State.setUart_halted (s : State) (p : Port) (u : Uart) : (s.setUart p u).halted = s.halted := by
  cases p <;> rfl
@[simp] theorem State.setUart_reports (s : State) (p : Port) (u : Uart) : (s.setUart p u).reports = s.reports := by
  cases p <;> rfl
@[simp] theorem State.setUart_reportNo (s : State) (p : Port) (u : Uart) : (s.setUart p u).reportNo = s.reportNo := by
  cases p <;> rfl
@[simp] theorem State.setUart_now (s : State) (p : Port) (u : Uart) : (s.setUart p u).now = s.now := by
  cases p <;> rfl
@[simp] theorem State.setUart_hist (s : State) (p : Port) (u : Uart) : (s.setUart p u).hist = s.hist := by
  cases p <;> rfl

@[simp] theorem State.setUart_uart (s : State) (p : Port) (u : Uart) : (s.setUart p u).uart p = u := by
  cases p <;> rfl

/-- The two UARTs are independent (43_serial R170). -/
theorem State.setUart_uart_other (s : State) {p q : Port} (h : q ≠ p) (u : Uart) :
    (s.setUart p u).uart q = s.uart q := by
  cases p <;> cases q <;> first | rfl | exact absurd rfl h

@[simp] theorem State.emit_uart (s : State) (e : Event) (p : Port) : (s.emit e).uart p = s.uart p := by
  cases p <;> rfl

@[simp] theorem State.respond_uart (s : State) (st : Status) (v : Word) (p : Port) :
    (s.respond st v).uart p = s.uart p := by
  cases p <;> rfl

@[simp] theorem State.raise_uart (s : State) (st : Status) (v : Word) (p : Port) :
    (s.raise st v).uart p = s.uart p := by
  cases p <;> rfl

@[simp] theorem State.setUart_setUart (s : State) (p : Port) (u v : Uart) :
    (s.setUart p u).setUart p v = s.setUart p v := by
  cases p <;> rfl

@[simp] theorem State.emit_setUart (s : State) (p : Port) (u : Uart) (e : Event) :
    (s.emit e).setUart p u = (s.setUart p u).emit e := by
  cases p <;> rfl

/-- Two states with the same fields are the same state, said of the two UARTs through the accessor. -/
theorem State.setUart_self (s : State) (p : Port) : s.setUart p (s.uart p) = s := by
  cases p <;> rfl

/-! ### The bus events of a state -/

/-- A bus event is the newest of the bus events. -/
theorem State.busEvents_emit (s : State) (e : Event) (h : ∀ r, e ≠ .resp r) :
    (s.emit e).busEvents = s.busEvents ++ [e] := by
  cases e with
  | resp r => exact absurd rfl (h r)
  | _ => simp [State.busEvents, State.emit]

/-- A response is no bus event. -/
@[simp] theorem State.busEvents_respond (s : State) (st : Status) (v : Word) :
    (s.respond st v).busEvents = s.busEvents := by
  simp [State.busEvents, State.respond]

/-- An error outcome is no bus event (60_exceptions R235). -/
@[simp] theorem State.busEvents_raise (s : State) (st : Status) (v : Word) :
    (s.raise st v).busEvents = s.busEvents := by
  simp [State.raise]

/-- The bus events depend on the history alone. -/
theorem State.busEvents_congr {s t : State} (h : s.hist = t.hist) : s.busEvents = t.busEvents := by
  simp [State.busEvents, h]

@[simp] theorem Loader.get_set (l : Loader) (x : LoadVar) (v : Word) : (l.set x v).get x = v := by
  cases x <;> rfl

theorem Loader.get_set_other (l : Loader) {x y : LoadVar} (h : y ≠ x) (v : Word) : (l.set x v).get y = l.get y := by
  cases x <;> cases y <;> first | rfl | exact absurd rfl h

@[simp] theorem Loader.set_segs (l : Loader) (x : LoadVar) (v : Word) : (l.set x v).segs = l.segs := by
  cases x <;> rfl

end Sys2Proof.Machine
end

