-- ==== Sys2Proof/Laws/Ports.lean ====
section
/-! SUPPORT. The port bus: in a legal build each of the block's ports has its own address, and the primitives PortOut and
PortIn reach the register the rules name (00_scope R9, 40_port_io R110, R111). -/

namespace Sys2Proof.Machine

open Sys2Proof.Config (Params)

/-- The offset of one of the five ports of a UART. -/
def portOffset (c : Params) : UartPort → PortAddr
  | .data => c.uartDataOff
  | .ier => c.uartIerOff
  | .fcr => c.uartFcrOff
  | .lcr => c.uartLcrOff
  | .lsr => c.uartLsrOff

theorem portOffset_lt {c : Params} (h : c.Ok) (r : UartPort) : (portOffset c r).toNat < 8 := by
  have := h.offsetsInBlock
  cases r <;> exact this _ (by simp [portOffset])

theorem portOffset_inj {c : Params} (h : c.Ok) {r r' : UartPort} (hr : r ≠ r') :
    (portOffset c r).toNat ≠ (portOffset c r').toNat := by
  have hd := h.offsetsDistinct
  simp only [List.pairwise_cons, List.mem_cons, List.not_mem_nil, or_false, forall_eq_or_imp, forall_eq] at hd
  intro he
  have he' := BitVec.eq_of_toNat_eq he
  obtain ⟨⟨h1, h2, h3, h4⟩, ⟨h5, h6, h7⟩, ⟨h8, h9⟩, h10, -⟩ := hd
  cases r <;> cases r' <;> simp only [portOffset] at he' <;> first | exact hr rfl | simp_all

theorem uartAddress_toNat {c : Params} (h : c.Ok) (p : Port) (r : UartPort) :
    (portAddress c (.uart p r)).toNat = (c.base p).toNat + (portOffset c r).toNat := by
  have ho := portOffset_lt h r
  have h1 := h.com1Fits
  have h2 := h.com2Fits
  have hb : (c.base p).toNat + 7 ≤ 0xFFFF := by cases p <;> assumption
  have : portAddress c (.uart p r) = c.base p + portOffset c r := by cases r <;> rfl
  rw [this, BitVec.toNat_add, Nat.mod_eq_of_lt (by omega)]

/-- In a legal build no two of the block's ports share an address (00_scope R9). -/
theorem portAddress_inj {c : Params} (h : c.Ok) {o o' : Owner} (he : portAddress c o = portAddress c o') : o = o' := by
  have hn := congrArg BitVec.toNat he
  have h1 := h.com1Fits
  have hx := h.blocksDisjoint
  have hi1 := h.indexOutside1
  have hi2 := h.indexOutside2
  have hd1 := h.dataOutside1
  have hd2 := h.dataOutside2
  have outside : ∀ (q : PortAddr) (p : Port) (r : UartPort), Config.outsideBlock c.com1Base q →
      Config.outsideBlock c.com2Base q → q.toNat ≠ (portAddress c (.uart p r)).toNat := by
    intro q p r hq1 hq2
    have ho := portOffset_lt h r
    rw [uartAddress_toNat h]
    unfold Config.outsideBlock at hq1 hq2
    cases p <;> simp only [Params.base] <;> omega
  cases o with
  | crtcIndex =>
    cases o' with
    | crtcIndex => rfl
    | crtcData => exact absurd he h.crtcDistinct
    | uart p r => exact absurd hn (outside _ p r hi1 hi2)
  | crtcData =>
    cases o' with
    | crtcIndex => exact absurd he.symm h.crtcDistinct
    | crtcData => rfl
    | uart p r => exact absurd hn (outside _ p r hd1 hd2)
  | uart p r =>
    cases o' with
    | crtcIndex => exact absurd hn.symm (outside _ p r hi1 hi2)
    | crtcData => exact absurd hn.symm (outside _ p r hd1 hd2)
    | uart p' r' =>
      rw [uartAddress_toNat h, uartAddress_toNat h] at hn
      have ho := portOffset_lt h r
      have ho' := portOffset_lt h r'
      have hp : p = p' := by
        cases p <;> cases p' <;> simp only [Params.base] at hn <;> first | rfl | (exfalso; omega)
      subst hp
      have hr : r = r' := by
        by_contra hne
        exact portOffset_inj h hne (by omega)
      rw [hr]

theorem mem_owners (o : Owner) : o ∈ owners := by
  cases o with
  | crtcIndex => decide
  | crtcData => decide
  | uart p r => cases p <;> cases r <;> decide

/-- In a legal build the owner of a port's address is that port (40_port_io R110). -/
theorem ownerOf_portAddress {c : Params} (h : c.Ok) (o : Owner) : ownerOf c (portAddress c o) = some o := by
  unfold ownerOf
  cases hf : owners.find? fun o' => portAddress c o' == portAddress c o with
  | none =>
    have := List.find?_eq_none.mp hf o (mem_owners o)
    simp at this
  | some o' =>
    have := List.find?_some hf
    rw [beq_iff_eq] at this
    rw [portAddress_inj h this]

theorem ownerOf_crtcIndex {c : Params} (h : c.Ok) : ownerOf c c.crtcIndexPort = some .crtcIndex :=
  ownerOf_portAddress h .crtcIndex

theorem ownerOf_crtcData {c : Params} (h : c.Ok) : ownerOf c c.crtcDataPort = some .crtcData :=
  ownerOf_portAddress h .crtcData

/-- The port a register of the UART stands at: DLL shares with DATA, DLM with IER (00_scope R9 a). -/
def UartReg.port : UartReg → UartPort
  | .data => .data
  | .ier => .ier
  | .dll => .data
  | .dlm => .ier
  | .fcr => .fcr
  | .lcr => .lcr
  | .lsr => .lsr

theorem ownerOf_reg {c : Params} (h : c.Ok) (p : Port) (x : UartReg) : ownerOf c (reg c p x) = some (.uart p x.port) := by
  have : reg c p x = portAddress c (.uart p x.port) := by
    cases x <;> simp only [UartReg.port, portAddress, reg, uartOffset, h.dataIsDll, h.ierIsDlm]
  rw [this]
  exact ownerOf_portAddress h _

theorem State.writeCursorData_cfg (s : State) (v : Byte) : (s.writeCursorData v).cfg = s.cfg := by
  unfold State.writeCursorData
  split
  · rfl
  · split <;> rfl

/-- No bus event changes the build. -/
@[simp] theorem portOut_cfg (q : PortAddr) (v : Byte) (s : State) : (portOut q v s).cfg = s.cfg := by
  unfold portOut State.deviceWrite
  split <;> simp [State.writeCursorData_cfg]

/-- No bus event changes the build. -/
@[simp] theorem portIn_cfg (q : PortAddr) (s : State) : (portIn q s).2.cfg = s.cfg := by
  unfold portIn State.deviceRead
  split <;> simp

/-- Everything a port write to a UART register does (40_port_io R110, 43_serial R182). -/
theorem portOut_reg {c : Params} (h : c.Ok) {s : State} (hc : s.cfg = c) (p : Port) (x : UartReg) (v : Byte) :
    portOut (reg c p x) v s =
      (s.setUart p (((s.uart p).afterMoment (momentOf p s.now (s.uart p))).write c x.port v)).emit
        (.out (reg c p x) v) := by
  subst hc
  unfold portOut
  rw [ownerOf_reg h]
  rfl

/-- Everything a port read of a UART register does (40_port_io R111, 43_serial R182). -/
theorem portIn_reg {c : Params} (h : c.Ok) {s : State} (hc : s.cfg = c) (p : Port) (x : UartReg) :
    portIn (reg c p x) s =
      let m := momentOf p s.now (s.uart p)
      let answer := ((s.uart p).afterMoment m).read c x.port m.lsr (Config.arbitraryByte s.now)
      (answer.1, (s.setUart p answer.2).emit (.inp (reg c p x) answer.1)) := by
  subst hc
  unfold portIn
  rw [ownerOf_reg h]
  rfl

/-- A write to the cursor index register sets the latch (10_state R36). -/
theorem portOut_crtcIndex {c : Params} (h : c.Ok) {s : State} (hc : s.cfg = c) (v : Byte) :
    portOut c.crtcIndexPort v s = ({ s with crtcIndex := v }).emit (.out c.crtcIndexPort v) := by
  subst hc
  unfold portOut
  rw [ownerOf_crtcIndex h]
  rfl

/-- A write to the cursor data register reaches the byte the latch selects (10_state R36). -/
theorem portOut_crtcData {c : Params} (h : c.Ok) {s : State} (hc : s.cfg = c) (v : Byte) :
    portOut c.crtcDataPort v s = (s.writeCursorData v).emit (.out c.crtcDataPort v) := by
  subst hc
  unfold portOut
  rw [ownerOf_crtcData h]
  rfl

/-! ### The bits the receive and the baud command test -/

theorem mem_oneBitMasks_and {m : Byte} (h : m ∈ Config.oneBitMasks) : m ≠ 0 := by
  intro h0
  subst h0
  revert h
  decide

/-- LSR shows data ready exactly when the queue is not empty (43_serial R182 b). -/
theorem dataReady_lsrValue {c : Params} (h : c.Ok) (other : Byte) (q : List Byte) :
    dataReady c (lsrValue c other q) = !q.isEmpty := by
  have hm := mem_oneBitMasks_and h.drOneBit
  have key : (other &&& ~~~c.lsrDr) &&& c.lsrDr = 0 := by
    ext i hi
    simp
  unfold dataReady lsrValue
  cases q with
  | nil => simp [key]
  | cons b q =>
    simp only [List.isEmpty_cons, Bool.false_eq_true, if_false, Bool.not_false, bne_iff_ne, ne_eq]
    intro h0
    apply hm
    rw [← h0]
    ext i hi
    simp
    exact fun h1 => .inr h1

/-- Setting DLAB sets it (43_serial R174). -/
theorem dlabSet_or {c : Params} (h : c.Ok) (v : Byte) : dlabSet c (v ||| c.lcrDlab) = true := by
  have hm := mem_oneBitMasks_and h.dlabOneBit
  unfold dlabSet
  simp only [bne_iff_ne, ne_eq]
  intro h0
  apply hm
  rw [← h0]
  ext i hi
  simp
  exact fun h1 => .inr h1

/-- Clearing DLAB clears it (43_serial R174). -/
theorem dlabSet_clear (c : Params) (v : Byte) : dlabSet c (v &&& ~~~c.lcrDlab) = false := by
  have key : (v &&& ~~~c.lcrDlab) &&& c.lcrDlab = 0 := by
    ext i hi
    simp
  simp [dlabSet, key]

/-- The 8N1 format has DLAB clear (00_scope R9 d). -/
theorem dlabSet_8n1 {c : Params} (h : c.Ok) : dlabSet c c.lcr8n1 = false := by
  simp [dlabSet, h.lcr8n1NoDlab]

theorem lowByte_joinBytes (hi lo : Byte) : lowByte (joinBytes hi lo) = lo := by
  unfold lowByte joinBytes
  apply BitVec.eq_of_getLsbD_eq
  intro i h
  simp only [BitVec.getLsbD_extractLsb', BitVec.getLsbD_append]
  simp [h]

theorem highByte_joinBytes (hi lo : Byte) : highByte (joinBytes hi lo) = hi := by
  unfold highByte joinBytes
  apply BitVec.eq_of_getLsbD_eq
  intro i h
  simp only [BitVec.getLsbD_extractLsb', BitVec.getLsbD_append]
  simp [h]

theorem joinBytes_split (v : BitVec 16) : joinBytes (highByte v) (lowByte v) = v := by
  unfold highByte lowByte joinBytes
  apply BitVec.eq_of_getLsbD_eq
  intro i h
  simp only [BitVec.getLsbD_append, BitVec.getLsbD_extractLsb']
  by_cases h8 : i < 8
  · simp [h8]
  · have h1 : i - 8 < 8 := by omega
    have h2 : 8 + (i - 8) = i := by omega
    simp [h8, h1, h2]

end Sys2Proof.Machine
end

