-- ==== Sys2Proof/Laws/Cells.lean ====
section
/-! SUPPORT. Memory and cells through the machine's operations: one lemma for each that says everything it can do, the rule
for bounded loops, and the cursor update. -/

namespace Sys2Proof.Machine

open Sys2Proof.Config (Params)

/-- Nothing but memory, the history and the event counter differs. -/
def OnlyMemory (s t : State) : Prop := t = { s with mem := t.mem, hist := t.hist, now := t.now }

theorem OnlyMemory.refl (s : State) : OnlyMemory s s := rfl

theorem OnlyMemory.trans {s t u : State} (h : OnlyMemory s t) (h' : OnlyMemory t u) : OnlyMemory s u := by
  unfold OnlyMemory at *
  revert h'
  generalize u.mem = m
  generalize u.hist = g
  generalize u.now = n
  rintro rfl
  revert h
  generalize t.mem = m'
  generalize t.hist = g'
  generalize t.now = n'
  rintro rfl
  rfl

theorem OnlyMemory.cfg {s t : State} (h : OnlyMemory s t) : t.cfg = s.cfg := by rw [h]
theorem OnlyMemory.pos {s t : State} (h : OnlyMemory s t) : t.pos = s.pos := by rw [h]
theorem OnlyMemory.attr {s t : State} (h : OnlyMemory s t) : t.attr = s.attr := by rw [h]

/-! ### Bounded loops -/

/-- What holds before a bounded loop and is kept by each pass holds after it. -/
theorem forUp_induct (P : Nat → State → Prop) (body : Nat → State → State) (i n : Nat) (s : State) (h0 : P i s)
    (hs : ∀ j t, i ≤ j → j < i + n → P j t → P (j + 1) (body j t)) : P (i + n) (forUp body i n s) := by
  induction n generalizing i s with
  | zero => exact h0
  | succ n ih =>
    have h1 := ih (i + 1) (body i s) (hs i s (Nat.le_refl i) (by omega) h0)
      (fun j t hj hj' => hs j t (by omega) (by omega))
    have : i + (n + 1) = i + 1 + n := by omega
    rw [this]
    exact h1

/-! ### Addresses of cells -/

theorem cellAddr_toNat {c : Params} (h : c.Ok) {i : Nat} (hi : i < Config.cells) :
    (cellAddr c i).toNat = c.videoBase.toNat + 2 * i := by
  have hv := h.videoFits
  unfold cellAddr
  rw [BitVec.toNat_add, BitVec.toNat_ofNat]
  simp only [Config.cells] at hi hv
  omega

theorem cellAddr_succ_toNat {c : Params} (h : c.Ok) {i : Nat} (hi : i < Config.cells) :
    (cellAddr c i + 1).toNat = c.videoBase.toNat + 2 * i + 1 := by
  have hv := h.videoFits
  rw [BitVec.toNat_add, cellAddr_toNat h hi]
  simp only [Config.cells] at hi hv
  show (_ + 1) % _ = _
  omega

theorem ofCell_toNat {c : Params} (h : c.Ok) {i : Nat} (hi : i < Config.cells) {a : Addr} (ha : ofCell c i a) :
    a.toNat = c.videoBase.toNat + 2 * i ∨ a.toNat = c.videoBase.toNat + 2 * i + 1 := by
  rcases ha with rfl | rfl
  · exact .inl (cellAddr_toNat h hi)
  · exact .inr (cellAddr_succ_toNat h hi)

/-- Different cells have different addresses. -/
theorem ofCell_disjoint {c : Params} (h : c.Ok) {i j : Nat} (hi : i < Config.cells) (hj : j < Config.cells) (hij : i ≠ j)
    {a : Addr} (ha : ofCell c i a) : ¬ ofCell c j a := by
  intro hb
  have h1 := ofCell_toNat h hi ha
  have h2 := ofCell_toNat h hj hb
  omega

theorem addr_ne_succ (a : Addr) : a ≠ a + 1 := by
  intro h
  have := congrArg BitVec.toNat h
  rw [BitVec.toNat_add] at this
  have := a.isLt
  simp at *

theorem toNat_ne {a b : Addr} (h : a ≠ b) : a.toNat ≠ b.toNat := fun he => h (BitVec.eq_of_toNat_eq he)

/-! ### Memory accesses -/

theorem memWrite_onlyMemory (a : Addr) (v : Byte) (s : State) : OnlyMemory s (memWrite a v s) := rfl

theorem memWrite_wf (a : Addr) (v : Byte) {s : State} (h : s.mem.wf = true) : (memWrite a v s).mem.wf = true :=
  Memory.write_wf a.isLt h

theorem memWrite_read_same (a : Addr) (v : Byte) {s : State} (h : s.mem.wf = true) :
    (memWrite a v s).mem.read a.toNat = v :=
  Memory.read_write_same h

theorem memWrite_read_other {a b : Addr} (v : Byte) (s : State) (h : b ≠ a) :
    (memWrite a v s).mem.read b.toNat = s.mem.read b.toNat :=
  Memory.read_write_other v s.mem (toNat_ne h)

/-- The host's own write stores its byte outside the cell array and does nothing inside it (70_reset R277, log 25). -/
theorem hostWrite_outside {s : State} {a : Addr} (h : ¬ inCellArray s.cfg a) (v : Byte) :
    hostWrite a v s = memWrite a v s := if_neg h

theorem hostWrite_inside {s : State} {a : Addr} (h : inCellArray s.cfg a) (v : Byte) : hostWrite a v s = s := if_pos h

/-- No byte but the one it is for is changed by the host's own write, and none of the cell array (70_reset R277). -/
theorem hostWrite_read_other {s : State} {a b : Addr} (v : Byte) (h : b ≠ a ∨ inCellArray s.cfg b) :
    (hostWrite a v s).mem.read b.toNat = s.mem.read b.toNat := by
  by_cases hi : inCellArray s.cfg a
  · rw [hostWrite_inside hi]
  · rw [hostWrite_outside hi]
    refine memWrite_read_other v s ?_
    rintro rfl
    exact h.elim (fun h => h rfl) hi

theorem memRead_onlyMemory (a : Addr) (s : State) : OnlyMemory s (memRead a s).2 := rfl

/-! ### Cells -/

theorem cellWrite_onlyMemory (i : Nat) (ch attr : Byte) (s : State) : OnlyMemory s (cellWrite i ch attr s) := rfl

theorem cellWrite_wf (i : Nat) (ch attr : Byte) {s : State} (h : s.mem.wf = true) :
    (cellWrite i ch attr s).mem.wf = true :=
  memWrite_wf _ attr (memWrite_wf _ ch h)

/-- The cell written holds what was written (20_memory R56). -/
theorem cellWrite_cell_same (i : Nat) (ch attr : Byte) {s : State} (h : s.mem.wf = true) :
    (cellWrite i ch attr s).cell i = (ch, attr) := by
  show ((cellWrite i ch attr s).mem.read (cellAddr s.cfg i).toNat,
    (cellWrite i ch attr s).mem.read (cellAddr s.cfg i + 1).toNat) = _
  unfold cellWrite
  rw [memWrite_read_other _ _ (addr_ne_succ _), memWrite_read_same _ _ h,
    memWrite_read_same _ _ (memWrite_wf _ ch h)]

/-- Every other byte is unchanged (20_memory R56). -/
theorem cellWrite_read_other (i : Nat) (ch attr : Byte) (s : State) {a : Addr} (ha : ¬ ofCell s.cfg i a) :
    (cellWrite i ch attr s).mem.read a.toNat = s.mem.read a.toNat := by
  unfold cellWrite
  rw [memWrite_read_other _ _ (fun h => ha (.inr h)), memWrite_read_other _ _ (fun h => ha (.inl h))]

/-- Every other cell is unchanged. -/
theorem cellWrite_cell_other {i j : Nat} (ch attr : Byte) {s : State} (h : s.cfg.Ok) (hi : i < Config.cells)
    (hj : j < Config.cells) (hij : j ≠ i) : (cellWrite i ch attr s).cell j = s.cell j := by
  show ((cellWrite i ch attr s).mem.read (cellAddr s.cfg j).toNat,
    (cellWrite i ch attr s).mem.read (cellAddr s.cfg j + 1).toNat) = _
  rw [cellWrite_read_other _ _ _ _ (ofCell_disjoint h hj hi hij (.inl rfl)),
    cellWrite_read_other _ _ _ _ (ofCell_disjoint h hj hi hij (.inr rfl))]
  rfl

theorem cellWrite_hist (i : Nat) (ch attr : Byte) (s : State) :
    (cellWrite i ch attr s).hist = .wr (cellAddr s.cfg i + 1) attr :: .wr (cellAddr s.cfg i) ch :: s.hist := rfl

theorem cellRead_value (i : Nat) (s : State) : (cellRead i s).1 = s.cell i := rfl

theorem cellRead_onlyMemory (i : Nat) (s : State) : OnlyMemory s (cellRead i s).2 := rfl

theorem cellRead_mem (i : Nat) (s : State) : (cellRead i s).2.mem = s.mem := rfl

theorem cellRead_hist (i : Nat) (s : State) :
    (cellRead i s).2.hist = .rd (cellAddr s.cfg i + 1) (s.cell i).2 :: .rd (cellAddr s.cfg i) (s.cell i).1 :: s.hist := rfl

/-- The cells of a state depend on its memory and its build alone. -/
theorem State.cell_congr {s t : State} (hc : t.cfg = s.cfg) (hm : t.mem = s.mem) (i : Nat) : t.cell i = s.cell i := by
  unfold State.cell
  rw [hc, hm]

/-- An address outside the cell array belongs to no cell. -/
theorem not_ofCell_outside {c : Params} (h : c.Ok) {i : Nat} (hi : i < Config.cells) {a : Addr} (ha : ¬ inCellArray c a) :
    ¬ ofCell c i a := by
  intro hb
  have := ofCell_toNat h hi hb
  simp only [inCellArray, Config.cells] at *
  omega

/-! ### The cursor update -/

/-- Everything a cursor update does in a legal build: the location is the position, the latch selects the high byte, and
four port writes are recorded (42_console R141). -/
theorem cursorUpdate_eq {s : State} (h : s.cfg.Ok) :
    cursorUpdate s = { s with
      cursorLoc := s.pos.setWidth 16
      crtcIndex := s.cfg.cursorHiIdx
      now := s.now + 4
      hist := (cursorEvents s.cfg (s.pos.setWidth 16)).reverse ++ s.hist } := by
  have hne := h.cursorIdxDistinct.symm
  unfold cursorUpdate
  simp only []
  rw [portOut_crtcData h (by simp), portOut_crtcIndex h (by simp), portOut_crtcData h (by simp), portOut_crtcIndex h rfl]
  simp only [State.emit_cfg, State.writeCursorData, State.emit_crtcIndex, hne, if_false, if_true, State.emit_cursorLoc,
    lowByte_joinBytes, joinBytes_split]
  rfl

end Sys2Proof.Machine
end

