-- ==== Sys2Proof/Laws/Codec.lean ====
section
/-! SUPPORT. The three fields of a command word and the bits the formats reserve (30_encoding R80, R81, R86). -/

namespace Sys2Proof

theorem opField_commandWord (op : Byte) (a b : Word) : opField (commandWord op a b) = op := by
  unfold opField commandWord
  apply BitVec.eq_of_getLsbD_eq
  intro i h
  simp only [BitVec.getLsbD_extractLsb', BitVec.getLsbD_append]
  have h1 : ¬ (64 + i < 32) := by omega
  have h2 : ¬ (64 + i - 32 < 32) := by omega
  have h3 : 64 + i - 32 - 32 = i := by omega
  simp [h, h1, h2, h3]

theorem aField_commandWord (op : Byte) (a b : Word) : aField (commandWord op a b) = a := by
  unfold aField commandWord
  apply BitVec.eq_of_getLsbD_eq
  intro i h
  simp only [BitVec.getLsbD_extractLsb', BitVec.getLsbD_append]
  have h1 : ¬ (32 + i < 32) := by omega
  have h3 : 32 + i - 32 = i := by omega
  simp [h, h1, h3]

theorem bField_commandWord (op : Byte) (a b : Word) : bField (commandWord op a b) = b := by
  unfold bField commandWord
  apply BitVec.eq_of_getLsbD_eq
  intro i h
  simp only [BitVec.getLsbD_extractLsb', BitVec.getLsbD_append]
  simp [h]

/-- Every word is made of its three fields. -/
theorem commandWord_fields (w : Command) : commandWord (opField w) (aField w) (bField w) = w := by
  unfold opField aField bField commandWord
  apply BitVec.eq_of_getLsbD_eq
  intro i h
  simp only [BitVec.getLsbD_extractLsb', BitVec.getLsbD_append]
  by_cases h1 : i < 32
  · simp [h1]
  · by_cases h2 : i - 32 < 32
    · have : 32 + (i - 32) = i := by omega
      simp [h1, h2, this]
    · have : 64 + (i - 32 - 32) = i := by omega
      have h3 : i - 32 - 32 < 8 := by omega
      simp [h1, h2, h3, this]

/-- Two words are the same when their fields are. -/
theorem commandWord_inj {op op' : Byte} {a a' b b' : Word} :
    commandWord op a b = commandWord op' a' b' ↔ op = op' ∧ a = a' ∧ b = b' := by
  constructor
  · intro h
    have h1 := congrArg opField h
    have h2 := congrArg aField h
    have h3 := congrArg bField h
    rw [opField_commandWord, opField_commandWord] at h1
    rw [aField_commandWord, aField_commandWord] at h2
    rw [bField_commandWord, bField_commandWord] at h3
    exact ⟨h1, h2, h3⟩
  · rintro ⟨rfl, rfl, rfl⟩
    rfl

/-- A mask acts on each field by itself. -/
theorem commandWord_and (op op' : Byte) (a a' b b' : Word) :
    commandWord op a b &&& commandWord op' a' b' = commandWord (op &&& op') (a &&& a') (b &&& b') := by
  unfold commandWord
  rw [BitVec.and_append, BitVec.and_append]

/-- A port field whose reserved bits are zero is the field of the port it names (30_encoding R88). -/
theorem portField_portOf {b : Word} (h : portBitsOk b = true) : portField (portOf b) = b := by
  have hb : b = 0 ∨ b = 1 := by
    have hlt : b.toNat < 2 := by simpa [portBitsOk] using h
    rcases Nat.lt_or_eq_of_le (Nat.le_of_lt_succ hlt) with h | h
    · exact .inl (BitVec.eq_of_toNat_eq (by simp; omega))
    · exact .inr (BitVec.eq_of_toNat_eq (by simp; omega))
  rcases hb with rfl | rfl <;> rfl

theorem portOf_portField (p : Port) : portOf (portField p) = p := by
  cases p <;> rfl

theorem portBitsOk_portField (p : Port) : portBitsOk (portField p) = true := by
  cases p <;> rfl

/-- What `unreserved` accepts. -/
theorem unreserved_eq_ok {ok : Bool} {i j : Instr} : unreserved ok j = .ok i ↔ ok = true ∧ j = i := by
  unfold unreserved
  cases ok <;> simp

/-- The bits above the lowest `k` are zero exactly when the value is below `2^k`. -/
theorem and_not_low_eq_zero {a : Word} {k : Nat} {m : Word} (hm : ∀ i, i < 32 → m.getLsbD i = decide (k ≤ i)) :
    a &&& m = 0 ↔ a.toNat < 2 ^ k := by
  constructor
  · intro h
    apply Nat.lt_pow_two_of_testBit
    intro i hi
    rw [BitVec.testBit_toNat]
    by_cases h32 : i < 32
    · have := congrArg (fun v : Word => v.getLsbD i) h
      simp only [BitVec.getLsbD_and, hm i h32, hi, decide_true, Bool.and_true] at this
      rw [this]
      exact BitVec.getLsbD_zero
    · exact BitVec.getLsbD_of_ge _ _ (by omega)
  · intro h
    apply BitVec.eq_of_getLsbD_eq
    intro i hi
    simp only [BitVec.getLsbD_and, hm i hi]
    by_cases hk : k ≤ i
    · have : a.getLsbD i = false := by
        rw [← BitVec.testBit_toNat]
        exact Nat.testBit_lt_two_pow (Nat.lt_of_lt_of_le h (Nat.pow_le_pow_right (by omega) hk))
      simp [this]
    · simp [hk]

end Sys2Proof
end

