-- ==== Sys2Proof/Laws/Console.lean ====
section
/-! SUPPORT. The CON unit's procedures: what a run of blanked cells, the copy of the scroll, the scroll and the advance do. -/

namespace Sys2Proof.Machine

open Sys2Proof.Config (Params)

theorem OnlyMemory.validCon {s t : State} (h : OnlyMemory s t) : t.validCon = s.validCon := by rw [h]

/-- What blanking `n` cells from cell `i` on leaves: those cells blank in the current attribute, every other byte as
before, and the writes in the history. -/
structure Blanked (s : State) (i n : Nat) (t : State) : Prop where
  only : OnlyMemory s t
  wf : t.mem.wf = true
  blank : ∀ j, i ≤ j → j < i + n → t.cell j = (s.cfg.blankCode, s.attr)
  others : ∀ j, j < Config.cells → (j < i ∨ i + n ≤ j) → t.cell j = s.cell j
  outside : ∀ a : Addr, ¬ inCellArray s.cfg a → t.mem.read a.toNat = s.mem.read a.toNat
  hist : t.hist = (blankEvents s.cfg s.attr i n).reverse ++ s.hist

theorem forUp_blankCell {s : State} (h : s.cfg.Ok) (hw : s.mem.wf = true) (i n : Nat) (hn : i + n ≤ Config.cells) :
    Blanked s i n (forUp blankCell i n s) := by
  have := forUp_induct (fun k t => ∃ m, k = i + m ∧ Blanked s i m t) blankCell i n s
    ⟨0, rfl, .refl s, hw, fun j hj hj' => by omega, fun _ _ _ => rfl, fun _ _ => rfl, by simp [blankEvents]⟩ ?_
  · obtain ⟨m, hm, hb⟩ := this
    have : n = m := by omega
    subst this
    exact hb
  · rintro k t hk hk' ⟨m, rfl, hb⟩
    have hc := hb.only.cfg
    have ha := hb.only.attr
    have ht : t.cfg.Ok := hc ▸ h
    have hlt : i + m < Config.cells := by omega
    refine ⟨m + 1, rfl, hb.only.trans (cellWrite_onlyMemory _ _ _ t), cellWrite_wf _ _ _ hb.wf, ?_, ?_, ?_, ?_⟩
    · intro j hj hj'
      by_cases hjm : j = i + m
      · subst hjm
        exact (cellWrite_cell_same _ _ _ hb.wf).trans (by rw [hc, ha])
      · exact (cellWrite_cell_other _ _ ht hlt (by omega) hjm).trans (hb.blank j hj (by omega))
    · intro j hj hj'
      exact (cellWrite_cell_other _ _ ht hlt hj (by omega)).trans (hb.others j hj (by omega))
    · intro a hout
      refine (cellWrite_read_other _ _ _ t ?_).trans (hb.outside a hout)
      rw [hc]
      exact not_ofCell_outside h hlt hout
    · show (cellWrite (i + m) t.cfg.blankCode t.attr t).hist = _
      rw [cellWrite_hist, hb.hist, hc, ha]
      simp [blankEvents, List.range_succ, cellWriteEvents]

/-- What moving the first `n` cells up by a row leaves. -/
structure Copied (s : State) (n : Nat) (t : State) : Prop where
  only : OnlyMemory s t
  wf : t.mem.wf = true
  moved : ∀ j, j < n → t.cell j = s.cell (j + Config.width)
  others : ∀ j, n ≤ j → j < Config.cells → t.cell j = s.cell j
  outside : ∀ a : Addr, ¬ inCellArray s.cfg a → t.mem.read a.toNat = s.mem.read a.toNat
  hist : t.hist = (copyEvents s n).reverse ++ s.hist

theorem forUp_copyCellUp {s : State} (h : s.cfg.Ok) (hw : s.mem.wf = true) (n : Nat)
    (hn : n + Config.width ≤ Config.cells) : Copied s n (forUp copyCellUp 0 n s) := by
  have := forUp_induct (fun k t => Copied s k t) copyCellUp 0 n s
    ⟨.refl s, hw, fun j hj => by omega, fun _ _ _ => rfl, fun _ _ => rfl, by simp [copyEvents]⟩ ?_
  · simpa using this
  · intro k t _ hk hb
    have hc := hb.only.cfg
    have ht : t.cfg.Ok := hc ▸ h
    simp only [Config.cells, Config.width] at hn
    have hlt : k < Config.cells := by simp only [Config.cells]; omega
    have hval : t.cell (k + Config.width) = s.cell (k + Config.width) :=
      hb.others _ (by omega) (by simp only [Config.cells, Config.width]; omega)
    have hr := cellRead_onlyMemory (k + Config.width) t
    have hrm : (cellRead (k + Config.width) t).2.mem = t.mem := rfl
    have hrc : (cellRead (k + Config.width) t).2.cfg = t.cfg := rfl
    have hcong := State.cell_congr hrc hrm
    refine ⟨hb.only.trans (hr.trans (cellWrite_onlyMemory _ _ _ _)), cellWrite_wf _ _ _ hb.wf, ?_, ?_, ?_, ?_⟩
    · intro j hj
      by_cases hjk : j = k
      · subst hjk
        exact (cellWrite_cell_same _ _ _ (by exact hb.wf)).trans (by rw [cellRead_value, hval])
      · refine (cellWrite_cell_other _ _ (by exact ht) hlt (by omega) hjk).trans ?_
        rw [hcong]
        exact hb.moved j (by omega)
    · intro j hj hj'
      refine (cellWrite_cell_other _ _ (by exact ht) hlt hj' (by omega)).trans ?_
      rw [hcong]
      exact hb.others j (by omega) hj'
    · intro a hout
      refine (cellWrite_read_other _ _ _ _ ?_).trans (hb.outside a hout)
      rw [hrc, hc]
      exact not_ofCell_outside h hlt hout
    · show (cellWrite k (cellRead (k + Config.width) t).1.1 (cellRead (k + Config.width) t).1.2
        (cellRead (k + Config.width) t).2).hist = _
      rw [cellWrite_hist, cellRead_hist, cellRead_value, hval, hb.hist, hrc, hc]
      simp [copyEvents, List.range_succ, cellReadEvents, cellWriteEvents]

/-- Everything a scroll does in a legal build with memory in canonical form (42_console R150): rows 1 to 24 are now rows 0
to 23, row 24 is blank in the current attribute, nothing outside the array changes, the position is cell 1920. -/
theorem scroll_spec {s : State} (h : s.cfg.Ok) (hw : s.mem.wf = true) :
    (∀ j, j < 1920 → (scroll s).cell j = s.cell (j + 80)) ∧
    (∀ j, 1920 ≤ j → j < 2000 → (scroll s).cell j = (s.cfg.blankCode, s.attr)) ∧
    (∀ a : Addr, ¬ inCellArray s.cfg a → (scroll s).mem.read a.toNat = s.mem.read a.toNat) ∧
    (scroll s).mem.wf = true ∧
    (scroll s).hist = (scrollEvents s).reverse ++ s.hist ∧
    scroll s = { s with
      pos := 1920, mem := (scroll s).mem, hist := (scroll s).hist, now := (scroll s).now } := by
  have hc := forUp_copyCellUp h hw (Config.cells - Config.width) (by decide)
  have hs : scroll s = { forUp blankCell (Config.cells - Config.width) Config.width
      (forUp copyCellUp 0 (Config.cells - Config.width) s) with pos := BitVec.ofNat 11 (Config.cells - Config.width) } := by
    unfold scroll
    rfl
  generalize forUp copyCellUp 0 (Config.cells - Config.width) s = t at hc hs
  have hcfg := hc.only.cfg
  have hattr := hc.only.attr
  have hb := forUp_blankCell (s := t) (hcfg ▸ h) hc.wf (Config.cells - Config.width) Config.width (by decide)
  generalize forUp blankCell (Config.cells - Config.width) Config.width t = u at hb hs
  have hcell : ∀ j, (scroll s).cell j = u.cell j := fun j => State.cell_congr (by rw [hs]) (by rw [hs]) j
  have hmem : (scroll s).mem = u.mem := by rw [hs]
  have hcells : Config.cells = 2000 := rfl
  have hwidth : Config.width = 80 := rfl
  refine ⟨fun j hj => ?_, fun j hj hj' => ?_, fun a ha => ?_, ?_, ?_, ?_⟩
  · rw [hcell, hb.others j (by omega) (.inl (by omega))]
    exact hc.moved j (by omega)
  · rw [hcell, hb.blank j (by omega) (by omega), hcfg, hattr]
  · rw [hmem]
    exact (hb.outside a (hcfg.symm ▸ ha)).trans (hc.outside a ha)
  · rw [hmem]
    exact hb.wf
  · rw [hs]
    show u.hist = _
    rw [hb.hist, hc.hist, hcfg, hattr]
    simp only [scrollEvents, List.reverse_append, List.append_assoc]
  · have := hc.only.trans hb.only
    rw [hs]
    rw [this]
    rfl

/-- Everything CON.CLEAR's operation does in a legal build with memory in canonical form (42_console R142). -/
theorem clearScreen_spec {s : State} (h : s.cfg.Ok) (hw : s.mem.wf = true) :
    (∀ j, j < Config.cells → (clearScreen s).cell j = (s.cfg.blankCode, s.cfg.defaultAttr)) ∧
    (∀ a : Addr, ¬ inCellArray s.cfg a → (clearScreen s).mem.read a.toNat = s.mem.read a.toNat) ∧
    (clearScreen s).mem.wf = true ∧
    (clearScreen s).hist = (blankEvents s.cfg s.cfg.defaultAttr 0 Config.cells ++ cursorEvents s.cfg 0).reverse ++ s.hist ∧
    clearScreen s = { s with
      pos := 0, attr := s.cfg.defaultAttr, validCon := true, cursorLoc := 0, crtcIndex := s.cfg.cursorHiIdx
      mem := (clearScreen s).mem, hist := (clearScreen s).hist, now := (clearScreen s).now } := by
  have hb := forUp_blankCell (s := { s with pos := 0, attr := s.cfg.defaultAttr, validCon := true }) h hw 0 Config.cells
    (by omega)
  have hs : clearScreen s = cursorUpdate (forUp blankCell 0 Config.cells
      { s with pos := 0, attr := s.cfg.defaultAttr, validCon := true }) := by
    unfold clearScreen
    rfl
  generalize forUp blankCell 0 Config.cells _ = t at hb hs
  have hcfg : t.cfg = s.cfg := hb.only.cfg
  have hpos : t.pos = 0 := hb.only.pos
  rw [cursorUpdate_eq (hcfg ▸ h), hpos] at hs
  have hcell : ∀ j, (clearScreen s).cell j = t.cell j := fun j => State.cell_congr (by rw [hs]) (by rw [hs]) j
  refine ⟨fun j hj => ?_, fun a ha => ?_, ?_, ?_, ?_⟩
  · rw [hcell, hb.blank j (by omega) (by omega)]
  · rw [hs]
    exact hb.outside a ha
  · rw [hs]
    exact hb.wf
  · rw [hs]
    show _ ++ t.hist = _
    rw [hb.hist, hcfg, List.reverse_append, List.append_assoc]
    rfl
  · have := hb.only
    rw [hs]
    rw [this]
    rfl

/-- An advance that stays on the screen moves the position and updates the cursor (42_console R150). -/
theorem advance_on_screen {s : State} {n : Nat} (hn : s.pos.toNat + n < Config.cells) :
    advance n s = cursorUpdate { s with pos := BitVec.ofNat 11 (s.pos.toNat + n) } := by
  unfold advance
  rw [if_pos hn]

/-- An advance that leaves the screen scrolls and updates the cursor (42_console R150). -/
theorem advance_off_screen {s : State} {n : Nat} (hn : Config.cells ≤ s.pos.toNat + n) :
    advance n s = cursorUpdate (scroll s) := by
  unfold advance
  rw [if_neg (by omega)]

end Sys2Proof.Machine
end

