-- ==== Sys2Proof/Laws/Crc.lean ====
section
/-! SUPPORT. The CRC unit: the fold of a concatenation, and what the fold of memory does. -/

namespace Sys2Proof.Machine

/-- The fold of a concatenation goes on from the fold of its first part (41_crc32 R128). -/
theorem crcFold_append (acc : Word) (xs ys : List Byte) : crcFold acc (xs ++ ys) = crcFold (crcFold acc xs) ys :=
  List.foldl_append

theorem crcFold_nil (acc : Word) : crcFold acc [] = acc := rfl

theorem crcFold_cons (acc : Word) (b : Byte) (bs : List Byte) : crcFold acc (b :: bs) = crcFold (crcStep acc b) bs := rfl

theorem addr_add_succ (a : Addr) (k : Nat) : a + BitVec.ofNat 32 (k + 1) = a + 1 + BitVec.ofNat 32 k := by
  rw [BitVec.add_assoc]
  congr 1
  apply BitVec.eq_of_toNat_eq
  rw [BitVec.toNat_add, BitVec.toNat_ofNat, BitVec.toNat_ofNat]
  show (k + 1) % 2 ^ 32 = (1 + k % 2 ^ 32) % 2 ^ 32
  omega

/-- The bytes of a region: the first one, then the rest. -/
theorem memBytes_succ (s : State) (a : Addr) (n : Nat) :
    memBytes s a (n + 1) = s.mem.read a.toNat :: memBytes s (a + 1) n := by
  simp only [memBytes, List.range_succ_eq_map, List.map_cons, List.map_map]
  congr 1
  · simp
  · apply List.map_congr_left
    intro k _
    simp only [Function.comp, Nat.succ_eq_add_one, addr_add_succ]

theorem readEvents_succ (s : State) (a : Addr) (n : Nat) :
    readEvents s a (n + 1) = .rd a (s.mem.read a.toNat) :: readEvents s (a + 1) n := by
  simp only [readEvents, List.range_succ_eq_map, List.map_cons, List.map_map]
  congr 1
  · simp
  · apply List.map_congr_left
    intro k _
    simp only [Function.comp, Nat.succ_eq_add_one, addr_add_succ]

/-- Everything the fold of memory does: the accumulator folds the bytes in address order, each is read once, and nothing else
changes (41_crc32 R125). -/
theorem crcMemory_eq (n : Nat) (a : Addr) (s : State) :
    crcMemory n a s = { s with
      acc := crcFold s.acc (memBytes s a n)
      hist := (readEvents s a n).reverse ++ s.hist
      now := s.now + n } := by
  induction n generalizing a s with
  | zero => rfl
  | succ n ih =>
    rw [crcMemory, ih, memBytes_succ, readEvents_succ]
    have hm : ∀ t : State, t.mem = s.mem → ∀ b, memBytes t b n = memBytes s b n := fun t ht b => by
      simp only [memBytes, ht]
    have hr : ∀ t : State, t.mem = s.mem → ∀ b, readEvents t b n = readEvents s b n := fun t ht b => by
      simp only [readEvents, ht]
    rw [hm _ rfl, hr _ rfl]
    simp only [memRead, crcFold_cons, State.emit_hist, State.emit_acc, State.emit_now, List.reverse_cons,
      List.append_assoc, List.cons_append, List.nil_append]
    congr 1
    omega

end Sys2Proof.Machine
end

