-- ==== Sys2Proof/Laws/Frame.lean ====
section
/-! SUPPORT. What every operation of the block keeps in every state, legal build or not: the build, the host, the validity
marks, the accumulator, the form of memory, and the history recorded so far. -/

namespace Sys2Proof.Machine

/-- The bus side of a command: what no bus event changes (20_memory R60, R70; 10_state R26). -/
structure Kept (s t : State) : Prop where
  cfg : t.cfg = s.cfg
  acc : t.acc = s.acc
  validCrc : t.validCrc = s.validCrc
  validCon : t.validCon = s.validCon
  attr : t.attr = s.attr
  cmd : t.cmd = s.cmd
  resp : t.resp = s.resp
  rxPart : t.rxPart = s.rxPart
  host : t.host = s.host
  loader : t.loader = s.loader
  load : t.load = s.load
  halted : t.halted = s.halted
  reports : t.reports = s.reports
  reportNo : t.reportNo = s.reportNo
  memWf : s.mem.wf = true → t.mem.wf = true
  grows : ∃ es, t.hist = es ++ s.hist

theorem Kept.refl (s : State) : Kept s s := by
  constructor <;> first | rfl | exact id | exact ⟨[], rfl⟩

theorem Kept.trans {s t u : State} (h : Kept s t) (k : Kept t u) : Kept s u where
  cfg := k.cfg.trans h.cfg
  acc := k.acc.trans h.acc
  validCrc := k.validCrc.trans h.validCrc
  validCon := k.validCon.trans h.validCon
  attr := k.attr.trans h.attr
  cmd := k.cmd.trans h.cmd
  resp := k.resp.trans h.resp
  rxPart := k.rxPart.trans h.rxPart
  host := k.host.trans h.host
  loader := k.loader.trans h.loader
  load := k.load.trans h.load
  halted := k.halted.trans h.halted
  reports := k.reports.trans h.reports
  reportNo := k.reportNo.trans h.reportNo
  memWf w := k.memWf (h.memWf w)
  grows := by
    obtain ⟨es, he⟩ := h.grows
    obtain ⟨fs, hf⟩ := k.grows
    exact ⟨fs ++ es, by rw [hf, he, List.append_assoc]⟩

theorem kept_emit (s : State) (e : Event) : Kept s (s.emit e) := by
  constructor <;> first | rfl | exact id | exact ⟨[e], rfl⟩

theorem kept_setUart (s : State) (p : Port) (u : Uart) : Kept s (s.setUart p u) := by
  cases p <;> constructor <;> first | rfl | exact id | exact ⟨[], rfl⟩

theorem kept_deviceWrite (s : State) (o : Option Owner) (v : Byte) : Kept s (s.deviceWrite o v) := by
  cases o with
  | none => exact .refl s
  | some o =>
    cases o with
    | crtcIndex => constructor <;> first | rfl | exact id | exact ⟨[], rfl⟩
    | crtcData =>
      show Kept s (s.writeCursorData v)
      unfold State.writeCursorData
      split
      · constructor <;> first | rfl | exact id | exact ⟨[], rfl⟩
      · split
        · constructor <;> first | rfl | exact id | exact ⟨[], rfl⟩
        · exact .refl s
    | uart p r => exact kept_setUart s p _

theorem kept_deviceRead (s : State) (o : Option Owner) : Kept s (s.deviceRead o).2 := by
  cases o with
  | none => exact .refl s
  | some o =>
    cases o with
    | crtcIndex => exact .refl s
    | crtcData => exact .refl s
    | uart p r => exact kept_setUart s p _

theorem kept_portOut (q : PortAddr) (v : Byte) (s : State) : Kept s (portOut q v s) :=
  (kept_deviceWrite s _ v).trans (kept_emit _ _)

theorem kept_portIn (q : PortAddr) (s : State) : Kept s (portIn q s).2 :=
  (kept_deviceRead s _).trans (kept_emit _ _)

theorem kept_memWrite (a : Addr) (v : Byte) (s : State) : Kept s (memWrite a v s) := by
  constructor
  case memWf => exact fun h => Memory.write_wf a.isLt h
  all_goals first | rfl | exact ⟨[.wr a v], rfl⟩

theorem kept_memRead (a : Addr) (s : State) : Kept s (memRead a s).2 := kept_emit s _

theorem kept_cellWrite (i : Nat) (ch attr : Byte) (s : State) : Kept s (cellWrite i ch attr s) :=
  (kept_memWrite _ _ _).trans (kept_memWrite _ _ _)

theorem kept_cellRead (i : Nat) (s : State) : Kept s (cellRead i s).2 :=
  (kept_memRead _ _).trans (kept_memRead _ _)

theorem kept_forUp (body : Nat → State → State) (h : ∀ i s, Kept s (body i s)) (i n : Nat) (s : State) :
    Kept s (forUp body i n s) := by
  induction n generalizing i s with
  | zero => exact .refl s
  | succ n ih => exact (h i s).trans (ih _ _)

theorem kept_setPos (s : State) (v : BitVec 11) : Kept s { s with pos := v } := by
  constructor <;> first | rfl | exact id | exact ⟨[], rfl⟩

theorem kept_cursorUpdate (s : State) : Kept s (cursorUpdate s) :=
  (((kept_portOut _ _ _).trans (kept_portOut _ _ _)).trans (kept_portOut _ _ _)).trans (kept_portOut _ _ _)

theorem kept_blankCell (i : Nat) (s : State) : Kept s (blankCell i s) := kept_cellWrite _ _ _ _

theorem kept_copyCellUp (i : Nat) (s : State) : Kept s (copyCellUp i s) :=
  (kept_cellRead _ _).trans (kept_cellWrite _ _ _ _)

theorem kept_scroll (s : State) : Kept s (scroll s) :=
  ((kept_forUp _ kept_copyCellUp _ _ s).trans (kept_forUp _ kept_blankCell _ _ _)).trans (kept_setPos _ _)

theorem kept_advance (n : Nat) (s : State) : Kept s (advance n s) := by
  unfold advance
  split
  · exact (kept_setPos s _).trans (kept_cursorUpdate _)
  · exact (kept_scroll s).trans (kept_cursorUpdate _)

theorem kept_putChar (a : Word) (s : State) : Kept s (putChar a s) := by
  unfold putChar
  split
  · exact (kept_blankCell _ _).trans (kept_advance _ _)
  · exact kept_advance _ _
  · exact (kept_cellWrite _ _ _ _).trans (kept_advance _ _)
  · exact (kept_cellWrite _ _ _ _).trans (kept_advance _ _)
  · exact .refl s

theorem kept_clearScreen (s : State) :
    Kept { s with pos := 0, attr := s.cfg.defaultAttr, validCon := true } (clearScreen s) :=
  (kept_forUp _ kept_blankCell _ _ _).trans (kept_cursorUpdate _)

theorem kept_resetUart (p : Port) (s : State) : Kept s (resetUart p s) :=
  ((kept_portOut _ _ _).trans (kept_portOut _ _ _)).trans (kept_portOut _ _ _)

theorem kept_pollByte (p : Port) (s : State) : Kept s (pollByte p s).2 := by
  unfold pollByte
  simp only []
  split
  · exact (kept_portIn _ _).trans (kept_portIn _ _)
  · exact kept_portIn _ _

theorem kept_programDivisor (p : Port) (d : BitVec 16) (s : State) : Kept s (programDivisor p d s) :=
  ((((kept_portIn _ _).trans (kept_portOut _ _ _)).trans (kept_portOut _ _ _)).trans (kept_portOut _ _ _)).trans
    (kept_portOut _ _ _)

/-! ### What a step is -/

theorem step_command {s : State} {w : Command} (h : s.cmd = some w) : step s = runCommand w s := by
  unfold step
  rw [h]

theorem step_idle {s : State} (h : s.cmd = none) : step s = hostTurn s := by
  unfold step
  rw [h]

theorem hostTurn_act {s : State} (h : s.halted = false) {op : HostOp} {rest : List HostOp} (hh : s.host = op :: rest) :
    hostTurn s = hostAct op { s with host := rest } := by
  unfold hostTurn
  rw [h, hh]
  rfl

theorem runCommand_ok {w : Command} {i : Instr} (h : decode w = .ok i) (s : State) : runCommand w s = exec i s := by
  unfold runCommand
  rw [h]

theorem runCommand_error {w : Command} {e : DecodeError} (h : decode w = .error e) (s : State) :
    runCommand w s = .next (s.raise .illegal 0) := by
  unfold runCommand
  rw [h]

end Sys2Proof.Machine
end

