-- ==== Sys2Proof/Laws/Screen.lean ====
section
/-! SUPPORT. The bus events of an operation read off its history, the whole effect of an advance, and what each class of
character does. -/

namespace Sys2Proof.Machine

/-! ### Bus events -/

/-- None of these entries is a response. -/
def BusOnly (es : List Event) : Prop := ∀ e ∈ es, ∀ r, e ≠ .resp r

theorem BusOnly.append {xs ys : List Event} (h : BusOnly xs) (k : BusOnly ys) : BusOnly (xs ++ ys) := fun e he =>
  (List.mem_append.mp he).elim (h e) (k e)

/-- What an operation added to the history, when it is no response, is its bus events. -/
theorem events_of_hist {s t : State} {es : List Event} (h : BusOnly es) (ht : t.hist = es.reverse ++ s.hist) :
    Events s t es := by
  unfold Events
  simp only [State.busEvents, ht, List.reverse_append, List.reverse_reverse, List.filter_append]
  congr 1
  rw [List.filter_eq_self]
  intro e he
  have := h e he
  cases e <;> first | rfl | exact absurd rfl (this _)

theorem Events.respond {s t : State} {es : List Event} (h : Events s t es) (st : Status) (v : Word) :
    Events s (t.respond st v) es := by
  unfold Events at *
  rw [State.busEvents_respond, h]

theorem busOnly_cursorEvents (c : Config.Params) (loc : BitVec 16) : BusOnly (cursorEvents c loc) := by
  intro e he r
  simp only [cursorEvents, List.mem_cons, List.not_mem_nil, or_false] at he
  rcases he with rfl | rfl | rfl | rfl <;> simp

theorem busOnly_cellWriteEvents (c : Config.Params) (i : Nat) (ch attr : Byte) : BusOnly (cellWriteEvents c i ch attr) := by
  intro e he r
  simp only [cellWriteEvents, List.mem_cons, List.not_mem_nil, or_false] at he
  rcases he with rfl | rfl <;> simp

theorem busOnly_blankEvents (c : Config.Params) (attr : Byte) (i n : Nat) : BusOnly (blankEvents c attr i n) := by
  intro e he r
  obtain ⟨k, -, hk⟩ := List.mem_flatMap.mp he
  exact busOnly_cellWriteEvents _ _ _ _ e hk r

theorem busOnly_copyEvents (s : State) (n : Nat) : BusOnly (copyEvents s n) := by
  intro e he r
  obtain ⟨k, -, hk⟩ := List.mem_flatMap.mp he
  simp only [cellReadEvents, cellWriteEvents, List.mem_append, List.mem_cons, List.not_mem_nil, or_false] at hk
  rcases hk with (rfl | rfl) | (rfl | rfl) <;> simp

theorem busOnly_scrollEvents (s : State) : BusOnly (scrollEvents s) :=
  (busOnly_copyEvents _ _).append (busOnly_blankEvents _ _ _ _)

/-! ### The advance -/

/-- What an advance to position `p` always does: the cursor is on `p`, both UARTs are as they were, and what `Kept` names. -/
structure Advanced (s t : State) (p : BitVec 11) : Prop where
  pos : t.pos = p
  cursorLoc : t.cursorLoc = p.setWidth 16
  crtcIndex : t.crtcIndex = s.cfg.cursorHiIdx
  com1 : t.com1 = s.com1
  com2 : t.com2 = s.com2
  kept : Kept s t

/-- Everything an advance on the screen does (42_console R150). -/
theorem advance_on_screen_spec {s : State} (h : s.cfg.Ok) {n : Nat} (hn : s.pos.toNat + n < Config.cells) :
    Advanced s (advance n s) (BitVec.ofNat 11 (s.pos.toNat + n)) ∧ (advance n s).mem = s.mem ∧
    (advance n s).hist =
      (cursorEvents s.cfg ((BitVec.ofNat 11 (s.pos.toNat + n)).setWidth 16)).reverse ++ s.hist := by
  have k := kept_advance n s
  rw [advance_on_screen hn, cursorUpdate_eq (by exact h)] at k ⊢
  exact ⟨⟨rfl, rfl, rfl, rfl, rfl, k⟩, rfl, rfl⟩

/-- Everything an advance off the screen does: the scroll and the cursor update (42_console R150). -/
theorem advance_off_screen_spec {s : State} (h : s.cfg.Ok) (hw : s.mem.wf = true) {n : Nat}
    (hn : Config.cells ≤ s.pos.toNat + n) :
    Advanced s (advance n s) 1920 ∧
    (∀ i, i < 1920 → (advance n s).cell i = s.cell (i + 80)) ∧
    (∀ i, 1920 ≤ i → i < 2000 → (advance n s).cell i = (s.cfg.blankCode, s.attr)) ∧
    (∀ a : Addr, ¬ inCellArray s.cfg a → (advance n s).mem.read a.toNat = s.mem.read a.toNat) ∧
    (advance n s).hist = (scrollEvents s ++ cursorEvents s.cfg 1920).reverse ++ s.hist := by
  have k := kept_advance n s
  rw [advance_off_screen hn] at k ⊢
  obtain ⟨moved, blank, outside, -, hist, he⟩ := scroll_spec h hw
  have hc : (scroll s).cfg = s.cfg := by rw [he]
  have h1 : (scroll s).com1 = s.com1 := by rw [he]
  have h2 : (scroll s).com2 = s.com2 := by rw [he]
  have h3 : (scroll s).pos = 1920 := by rw [he]
  clear he
  generalize scroll s = u at *
  have ok : u.cfg.Ok := hc ▸ h
  have hcell : ∀ i, (cursorUpdate u).cell i = u.cell i := fun i =>
    State.cell_congr (by rw [cursorUpdate_eq ok]) (by rw [cursorUpdate_eq ok]) i
  refine ⟨?_, fun i hi => by rw [hcell, moved i hi], fun i hi hi' => by rw [hcell, blank i hi hi'], fun a ha => ?_, ?_⟩
  · rw [cursorUpdate_eq ok] at k ⊢
    exact ⟨h3, h3 ▸ rfl, hc ▸ rfl, h1, h2, k⟩
  · rw [cursorUpdate_eq ok]
    exact outside a ha
  · rw [cursorUpdate_eq ok]
    show _ ++ u.hist = _
    rw [hist, hc, h3, List.reverse_append, List.append_assoc]
    rfl

/-! ### The classes of a character -/

/-- A character that writes a glyph writes it at the position and advances by one (42_console R146, R147, R149). -/
theorem putChar_glyph {s : State} {a : Word} {g : Byte} (h : WritesGlyph s.cfg a g) :
    putChar a s = advance 1 (cellWrite s.pos.toNat g s.attr s) := by
  unfold putChar classify
  rcases h with ⟨h, rfl⟩ | ⟨h, h', rfl⟩ | ⟨h, rfl⟩
  · rw [if_pos h]
    rfl
  · rw [if_neg (by omega), if_neg (by omega), if_pos ⟨h, h'⟩]
    rfl
  · rw [if_neg (by omega), if_neg (by omega), if_neg (by omega), if_pos h]
    rfl

/-- A newline advances to the next multiple of WIDTH (42_console R148). -/
theorem putChar_newline {s : State} {a : Word} (h : a.toNat = 0x0A) :
    putChar a s = advance (Config.width - s.pos.toNat % Config.width) s := by
  unfold putChar classify
  rw [if_neg (by omega), if_pos h]
  rfl

/-- Another control character does nothing (42_console R151). -/
theorem putChar_ignored {s : State} {a : Word} (h : IgnoredChar a) : putChar a s = s := by
  unfold putChar classify
  unfold IgnoredChar at h
  rw [if_neg (by omega), if_neg (by omega), if_neg (by omega), if_neg (by omega)]

end Sys2Proof.Machine
end

