-- ==== Sys2Proof/Laws/Serial.lean ====
section
/-! SUPPORT. The SER unit: what one pass of the poll loop, the writes of SER.RESET and the sequence of SER.BAUD do to the
UART. -/

namespace Sys2Proof.Machine

/-! ### The moments of a run of events on one port -/

/-- The first moment from now on is the one of the next event. -/
theorem momentAt_zero (p : Port) (s : State) : momentAt p s 0 = momentOf p s.now (s.uart p) := rfl

/-- After `n` events on the port the moments to come are those `n` later (43_serial R182). -/
theorem momentAt_add {p : Port} {s t : State} {n : Nat} (hn : t.now = s.now + n)
    (hl : (t.uart p).line = (s.uart p).line.drop n) (k : Nat) : momentAt p t k = momentAt p s (n + k) := by
  unfold momentAt momentOf
  simp only [hn, hl, List.drop_drop, Nat.add_assoc]

@[simp] theorem arrivedIn_zero (p : Port) (s : State) : arrivedIn p s 0 = [] := rfl

/-- The arrivals of one more event come last. -/
theorem arrivedIn_succ (p : Port) (s : State) (n : Nat) :
    arrivedIn p s (n + 1) = arrivedIn p s n ++ (momentAt p s n).arrived := by
  simp [arrivedIn, List.range_succ]

/-- The arrivals of two runs of events, one after the other. -/
theorem arrivedIn_add {p : Port} {s t : State} {n : Nat} (hn : t.now = s.now + n)
    (hl : (t.uart p).line = (s.uart p).line.drop n) (k : Nat) :
    arrivedIn p s (n + k) = arrivedIn p s n ++ arrivedIn p t k := by
  simp [arrivedIn, List.range_add, List.flatMap_append, List.flatMap_map, momentAt_add hn hl]

theorem queueNow_eq (p : Port) (s : State) : queueNow p s = (s.uart p).rxq ++ (momentAt p s 0).arrived := rfl

/-! ### The poll -/

/-- The bits of LSR other than data ready are the environment's (43_serial R182 b). -/
theorem lsrValue_other (c : Config.Params) (other : Byte) (q : List Byte) :
    lsrValue c other q &&& ~~~c.lsrDr = other &&& ~~~c.lsrDr := by
  unfold lsrValue
  ext i hi
  split <;> cases h : c.lsrDr[i] <;> simp [h]

/-- What one pass of the poll loop does when the queue is empty: one read of LSR without data ready, and the line moves on
(43_serial R178). -/
theorem pollByte_waits {s : State} (h : s.cfg.Ok) (p : Port) (hq : queueNow p s = []) :
    pollByte p s =
      (none, (s.setUart p { s.uart p with rxq := [], line := (s.uart p).line.drop 1 }).emit
        (.inp (reg s.cfg p .lsr) (lsrValue s.cfg (momentAt p s 0).lsr []))) := by
  unfold queueNow at hq
  unfold pollByte
  rw [portIn_reg h rfl]
  simp only [UartReg.port, Uart.read, Uart.afterMoment, hq, dataReady_lsrValue h, List.drop_one]
  rfl

/-- What one pass of the poll loop does when a byte is waiting and DLAB is clear: a read of LSR with data ready, then one
read of DATA that takes the oldest byte away; the bytes that arrive at that read stand behind (43_serial R178, R182). -/
theorem pollByte_ready {s : State} (h : s.cfg.Ok) (p : Port) (hd : dlabSet s.cfg (s.uart p).lcr = false) {b : Byte}
    {rest : List Byte} (hq : queueNow p s = b :: rest) :
    pollByte p s =
      (some b, ((s.setUart p { s.uart p with
          rxq := rest ++ (momentAt p s 1).arrived, line := (s.uart p).line.drop 2 }).emit
        (.inp (reg s.cfg p .lsr) (lsrValue s.cfg (momentAt p s 0).lsr (b :: rest)))).emit
        (.inp (reg s.cfg p .data) b)) := by
  unfold queueNow at hq
  unfold pollByte
  rw [portIn_reg h rfl]
  simp only [UartReg.port, Uart.read, Uart.afterMoment, hq, dataReady_lsrValue h, List.isEmpty_cons, Bool.not_false, if_true]
  rw [portIn_reg h (by simp)]
  simp only [UartReg.port, Uart.read, Uart.afterMoment, State.emit_uart, State.setUart_uart, hd, Bool.false_eq_true,
    if_false, List.cons_append, State.emit_setUart, State.setUart_setUart]
  simp only [momentAt, momentOf, ← List.drop_one, List.drop_drop, List.drop_zero, State.setUart_now, State.emit,
    Nat.add_zero, Nat.reduceAdd]

/-- A UART write to IER with DLAB clear sets the interrupt enables; with DLAB set it sets DLM (10_state R40 b). -/
theorem Uart.write_ier (u : Uart) (c : Config.Params) (v : Byte) :
    u.write c .ier v = if dlabSet c u.lcr then { u with dlm := v } else { u with ier := v } := rfl

/-- Everything the writes of SER.RESET do. With DLAB clear the first reaches IER, with DLAB set the high divisor latch; either
way the line is 8N1 and the FIFOs are enabled and empty (43_serial R172, 70_reset R271). -/
theorem resetUart_eq {s : State} (h : s.cfg.Ok) (p : Port) :
    resetUart p s =
    (((s.setUart p { s.uart p with
        ier := if dlabSet s.cfg (s.uart p).lcr then (s.uart p).ier else s.cfg.ierAllOff
        dlm := if dlabSet s.cfg (s.uart p).lcr then s.cfg.ierAllOff else (s.uart p).dlm
        lcr := s.cfg.lcr8n1, fcr := s.cfg.fcrResetEnable, fifoOn := true, rxq := [], txq := []
        line := (s.uart p).line.drop 3 }).emit (.out (reg s.cfg p .ier) s.cfg.ierAllOff)).emit
      (.out (reg s.cfg p .lcr) s.cfg.lcr8n1)).emit (.out (reg s.cfg p .fcr) s.cfg.fcrResetEnable) := by
  unfold resetUart
  rw [portOut_reg h (by simp), portOut_reg h (by simp), portOut_reg h rfl]
  cases hd : dlabSet s.cfg (s.uart p).lcr <;>
  simp only [UartReg.port, Uart.write, Uart.afterMoment, hd, if_true, Bool.false_eq_true, if_false, State.emit_uart,
    State.setUart_uart, State.emit_setUart, State.setUart_setUart, ← List.drop_one, List.drop_drop, Nat.reduceAdd]

/-- What the sequence of SER.BAUD does: the divisor latches hold the divisor, LCR is as it was with DLAB clear, the bytes that
arrive at its five events stand behind those that waited, and the five events are recorded (43_serial R174, R176). -/
theorem programDivisor_eq {s : State} (h : s.cfg.Ok) (p : Port) (d : BitVec 16) :
    programDivisor p d s =
      (((((s.setUart p { s.uart p with
          lcr := (s.uart p).lcr &&& ~~~s.cfg.lcrDlab, dll := lowByte d, dlm := highByte d,
          rxq := (s.uart p).rxq ++ arrivedIn p s 5, line := (s.uart p).line.drop 5 }).emit
        (.inp (reg s.cfg p .lcr) (s.uart p).lcr)).emit
        (.out (reg s.cfg p .lcr) ((s.uart p).lcr ||| s.cfg.lcrDlab))).emit
        (.out (reg s.cfg p .dll) (lowByte d))).emit
        (.out (reg s.cfg p .dlm) (highByte d))).emit
        (.out (reg s.cfg p .lcr) ((s.uart p).lcr &&& ~~~s.cfg.lcrDlab)) := by
  unfold programDivisor
  simp only []
  rw [portOut_reg h (by simp), portOut_reg h (by simp), portOut_reg h (by simp), portOut_reg h (by simp),
    portIn_reg h rfl]
  simp only [UartReg.port, Uart.write, Uart.read, Uart.afterMoment, State.emit_uart, State.setUart_uart,
    State.emit_setUart, State.setUart_setUart, dlabSet_or h, if_true, List.append_assoc]
  simp only [arrivedIn_succ, arrivedIn_zero, List.nil_append, List.append_assoc, momentAt, momentOf,
    ← List.drop_one, List.drop_drop, State.setUart_now, State.emit, Nat.add_zero, Nat.add_assoc, List.drop_zero,
    Nat.reduceAdd]

end Sys2Proof.Machine
end

