-- ==== Sys2Proof/Tests/Slice0.lean ====
section
/-! SUPPORT. Tests with expected values from 95_test_vectors, and for each statement with hypotheses a concrete state and
operands that meet them. -/

namespace Sys2Proof.Tests

open Sys2Proof Sys2Proof.Machine

/-! ### Well-formedness and decoding (95_test_vectors section 2) -/

theorem test_wf_refuses_wide_byte : Instr.wf (.crcByte 0x100) = false := by decide
theorem test_wf_refuses_wide_foreground : Instr.wf (.conFg 16) = false := by decide
theorem test_wf_refuses_wide_background : Instr.wf (.conBg 16) = false := by decide

/-- Each word is written out bit by bit from 30_encoding R80 and R84: op, then a, then b. -/
theorem test_decode_crcReset :
    decode 0b000100000000000000000000000000000000000000000000000000000000000000000000 = .ok .crcReset := by decide
theorem test_decode_crcByte :
    decode 0b000100010000000000000000000000001111111100000000000000000000000000000000 = .ok (.crcByte 0xFF) := by decide
theorem test_decode_crcWord :
    decode 0b000100100001001000110100010101100111100000000000000000000000000000000000 = .ok (.crcWord 0x12345678) := by
  decide
theorem test_decode_crcBuf :
    decode 0b000100110000000000010000000000000000000000000000000000000000000000000100 = .ok (.crcBuf 0x00100000 4) := by
  decide
theorem test_decode_crcFinal :
    decode 0b000101000000000000000000000000000000000000000000000000000000000000000000 = .ok .crcFinal := by decide
theorem test_decode_conClear :
    decode 0b001000000000000000000000000000000000000000000000000000000000000000000000 = .ok .conClear := by decide
theorem test_decode_conSetpos :
    decode 0b001000010000000000000000000001111100111100000000000000000000000000000000 = .ok (.conSetpos 1999) := by decide
theorem test_decode_conFg :
    decode 0b001000100000000000000000000000000000111100000000000000000000000000000000 = .ok (.conFg 15) := by decide
theorem test_decode_conBg :
    decode 0b001000110000000000000000000000000000000100000000000000000000000000000000 = .ok (.conBg 1) := by decide
theorem test_decode_conPutc :
    decode 0b001001000000000000000000000000000100000100000000000000000000000000000000 = .ok (.conPutc 0x41) := by decide
theorem test_decode_serReset :
    decode 0b001100000000000000000000000000000000000000000000000000000000000000000001 = .ok (.serReset .com2) := by decide
theorem test_decode_serBaud :
    decode 0b001100010000000000000000001001011000000000000000000000000000000000000000 = .ok (.serBaud 9600 .com1) := by
  decide
theorem test_decode_serRxb :
    decode 0b001100100000000000000000000000000000000000000000000000000000000000000000 = .ok (.serRxb .com1) := by decide
theorem test_decode_serRxw :
    decode 0b001100110000000000000000000000000000000000000000000000000000000000000001 = .ok (.serRxw .com2) := by decide

/-- T-ENC-20 to T-ENC-25: opcodes that select nothing. -/
theorem test_decode_undefined_opcodes :
    ([0x000000000000000000, 0xFFFFFFFFFFFFFFFFFF, 0x150000000000000000, 0x250000000000000000, 0x340000000000000000,
      0x0F0000000000000000, 0x1F0000000000000000, 0x400000000000000000] : List Command).map decode =
      List.replicate 8 (.error .undefinedOpcode) := by decide +kernel

/-- T-ENC-26 to T-ENC-32: reserved bits set. -/
theorem test_decode_reserved_bits :
    ([0x100000000000000001, 0x110000010000000000, 0x121234567800000001, 0x220000001000000000, 0x240000004180000000,
      0x320000000000000002, 0x300000000100000000] : List Command).map decode =
      List.replicate 7 (.error .reservedBits) := by decide +kernel

/-- The table's rows numbered from bit 0, a row of 72 bits and one of 80. -/
theorem test_decodeTableWord : decodeTableWord 72 0x220000000F00000000 = some (.conFg 15) ∧
    decodeTableWord 80 0x100220000000F00000000 = some (.conFg 15) ∧
    decodeTableWord 80 0x01220000000F00000000 = none := by decide

/-! ### Small states -/

/-- Both units initialised, as after CRC.RESET and CON.CLEAR but for the cells. -/
def ready : State := { State.reset with acc := 0xFFFFFFFF, validCrc := true, attr := 0x07, validCon := true }

/-- `ready` with the position on `k`. -/
def at' (k : BitVec 11) : State := { ready with pos := k }

/-- `ready` with this in COM1's line control. -/
def lcrIs (v : Byte) : State := { ready with com1 := { Uart.reset with lcr := v } }

/-- `ready` with these bytes waiting on COM1 and quiet moments to come. -/
def waiting (q : List Byte) : State :=
  { ready with com1 := { Uart.reset with rxq := q, line := List.replicate 9 ⟨[], 0x60⟩ } }

/-- The command's word delivered. -/
def delivered (i : Instr) (s : State) : State := { s with cmd := some (encode i) }

/-- The host about to do this. -/
def hostDoes (ops : List HostOp) (s : State) : State := { s with host := ops }

/-- What one command leaves of interest. -/
def after {α : Type} (i : Instr) (s : State) (f : State → α) : Option α :=
  match exec i s with
  | .next t => some (f t)
  | .fault _ => none
  | .refused _ => none

theorem p0_ok : Config.P0.Ok := by
  constructor
  case offsetsInBlock => simp [Config.P0]
  all_goals decide +kernel

/-! ### One step each (95_test_vectors sections 3 to 7) -/

theorem test_crcReset : after .crcReset State.reset (·.acc) = some 0xFFFFFFFF := by decide
/-- T-CRC-11, first step. -/
theorem test_crcByte : after (.crcByte 0x31) ready (·.acc) = some 0x7C231048 := by decide +kernel
/-- T-CRC-12. -/
theorem test_crcWord_le : after (.crcWord 0x12345678) ready (·.acc) = some 0x5092782D := by decide +kernel
theorem test_crcWord_be :
    after (.crcWord 0x12345678) { ready with cfg := { Config.P0 with crcWordOrder := .be } } (·.acc) = some 0xB5F6F167 := by
  decide +kernel
/-- T-CRC-9. -/
theorem test_crcBuf : after (.crcBuf 0x1000 4)
    { ready with mem := [(0x1000, 0xDE), (0x1001, 0xAD), (0x1002, 0xBE), (0x1003, 0xEF)] } (·.acc) = some 0x83635CA5 := by
  decide +kernel
/-- T-CRC-14 (c). -/
theorem test_crcBuf_past_top : exec (.crcBuf 0xFFFFFFFF 2) ready = .fault .addressRange := by rfl
/-- T-CRC-4. -/
theorem test_crcFinal : after .crcFinal { ready with acc := 0x174841BC } (·.resp) = some (some ⟨.ok, 0xE8B7BE43⟩) := by
  decide
/-- T-CON-3. -/
theorem test_conSetpos : after (.conSetpos 1999) ready (fun t => (t.pos, t.cursorLoc, t.busEvents)) =
    some (1999, 1999, [.out 0x3D4 0x0F, .out 0x3D5 0xCF, .out 0x3D4 0x0E, .out 0x3D5 0x07]) := by decide
/-- T-CON-5. -/
theorem test_conSetpos_rejects :
    after (.conSetpos 0xFFFFFFFF) (at' 81) (fun t => (t.pos, t.resp)) = some (81, some ⟨.errPosition, 0xFFFFFFFF⟩) := by
  decide
/-- T-CON-6. -/
theorem test_conFg : after (.conFg 15) ready (·.attr) = some 0x0F := by decide
theorem test_conBg : after (.conBg 9) { ready with attr := 0x1F } (·.attr) = some 0x9F := by decide
/-- T-CON-7. -/
theorem test_conPutc : after (.conPutc 0x41) ready (fun t => (t.cell 0, t.pos, t.busEvents)) =
    some ((0x41, 0x07), 1, [.wr 0xB8000 0x41, .wr 0xB8001 0x07, .out 0x3D4 0x0F, .out 0x3D5 0x01, .out 0x3D4 0x0E,
      .out 0x3D5 0x00]) := by decide
/-- T-CON-10. -/
theorem test_conPutc_newline : after (.conPutc 0x0A) (at' 80) (fun t => (t.pos, t.cursorLoc, t.mem)) =
    some (160, 160, []) := by decide
/-- T-SER-1. -/
theorem test_serReset : after (.serReset .com1) ready (·.busEvents) =
    some [.out 0x3F9 0x00, .out 0x3FB 0x03, .out 0x3FA 0x07] := by decide
/-- T-SER-21. -/
theorem test_serReset_dlab : after (.serReset .com1) { ready with com1 := { Uart.reset with lcr := 0x83, ier := 0x0F } }
    (fun t => (t.com1.ier, t.com1.dlm, t.com1.lcr)) = some (0x0F, 0x00, 0x03) := by decide
/-- T-SER-10. -/
theorem test_serBaud : after (.serBaud 9600 .com1) (lcrIs 0x83) (fun t => (t.busEvents, t.com1.lcr)) =
    some ([.inp 0x3FB 0x83, .out 0x3FB 0x83, .out 0x3F8 0x0C, .out 0x3F9 0x00, .out 0x3FB 0x03], 0x03) := by decide
/-- T-SER-5. -/
theorem test_serBaud_rejects : after (.serBaud 9601 .com1) ready (fun t => (t.resp, t.busEvents)) =
    some (some ⟨.errBaud, 0x2581⟩, []) := by decide +kernel
/-- T-SER-12, with the other bits of LSR as 0x60. -/
theorem test_serRxb : after (.serRxb .com1) (waiting [0x5A]) (fun t => (t.resp, t.busEvents)) =
    some (some ⟨.ok, 0x5A⟩, [.inp 0x3FD 0x61, .inp 0x3F8 0x5A]) := by decide
/-- T-SER-14. -/
theorem test_serRxb_waits : after (.serRxb .com1) (delivered (.serRxb .com1) (waiting [])) (fun t => (t.cmd, t.busEvents)) =
    some (some 0x320000000000000000, [.inp 0x3FD 0x60]) := by decide
/-- T-SER-16. -/
theorem test_serRxw : after (.serRxw .com1) (waiting [0x78, 0x56, 0x34, 0x12]) (·.resp) =
    some (some ⟨.ok, 0x12345678⟩) := by decide
/-- T-SER-18. -/
theorem test_serRxw_waits : after (.serRxw .com1) (waiting [0x78, 0x56, 0x34]) (fun t => (t.rxPart, t.com1.rxq, t.resp)) =
    some ([0x78, 0x56, 0x34], [], none) := by decide
/-- The ends of the classes of 42_console R152. -/
theorem test_classify : ([0x00, 0x01, 0x09, 0x0A, 0x0B, 0x1F, 0x20, 0x7E, 0x7F, 0x80, 0xFFFFFFFF] : List Word).map classify =
    [.nul, .ignored, .ignored, .newline, .ignored, .ignored, .printable, .printable, .ignored, .nonAscii, .nonAscii] := by
  decide
/-- The codes of 30_encoding R83 in the response word of R82. -/
theorem test_responseWord : [(⟨.ok, 0x174841BC⟩ : Response), ⟨.errPosition, 2000⟩, ⟨.errBaud, 9601⟩, ⟨.illegal, 0⟩].map
    responseWord = [0x00174841BC, 0x01000007D0, 0x0200002581, 0x7F00000000] := by decide
/-- 70_reset R277: the host's own write stores below the cell array and does nothing in its first byte. -/
theorem test_hostWrite : (hostWrite 0xB7FFF 0x41 ready).mem = [(0xB7FFF, 0x41)] ∧ hostWrite 0xB8000 0x41 ready = ready ∧
    hostWrite 0xB8F9F 0x41 ready = ready ∧ (hostWrite 0xB8FA0 0x41 ready).mem = [(0xB8FA0, 0x41)] := by decide
/-- T-ERR-3. -/
theorem test_illegal_comes_first : step { State.reset with cmd := some 0x220000001000000000 } =
    .next { State.reset with resp := some ⟨.illegal, 0⟩, hist := [.resp ⟨.illegal, 0⟩] } := by rfl

/-! ### Witnesses: the hypotheses of each statement can be met, each clause at a boundary -/

theorem witness_DecodeEncode : Instr.wf (.crcByte 0xFF) = true ∧ Instr.wf (.conFg 15) = true := by decide
theorem witness_IllFormed : Instr.wf (.crcByte 0x100) = false ∧ Instr.wf (.conBg 16) = false := by decide
theorem witness_DecodedCommands : decode 0x22000000_0F_00000000 = .ok (.conFg 15) := by decide
theorem witness_DecodeFollows : (⟨"CRC.BUF", 0xFF0000000000000000, 0x130000000000000000⟩ : OpcodeRow) ∈ opcodeTable ∧
    (0x13FFFFFFFFFFFFFFFF : Command) &&& 0xFF0000000000000000 = 0x130000000000000000 := by decide
theorem witness_Unselected : (delivered (.conFg 16) ready).cmd = some 0x220000001000000000 ∧
    ∀ r ∈ opcodeTable, (0x220000001000000000 : Command) &&& r.mask ≠ r.pattern := by decide
theorem witness_StepRuns : (delivered .crcFinal ready).cmd = some 0x140000000000000000 ∧
    decode 0x140000000000000000 = .ok .crcFinal := by decide
theorem witness_StepRuns_issue : State.reset.cmd = none ∧ State.reset.halted = false ∧
    (hostDoes [.command 0x140000000000000000] State.reset).host = .command 0x140000000000000000 :: [] := ⟨rfl, rfl, rfl⟩
theorem witness_PlacedWord : Instr.wf (.conBg 15) = true := by decide

theorem dlabSet_zero : dlabSet Config.P0 0 = false := by decide

theorem inv_of_reset_like (c : Option Command) (b : Bool) (a : Word) :
    { State.reset with cmd := c, validCrc := b, acc := a }.Inv where
  cfgOk := p0_ok
  memWf := rfl
  posOnScreen h := by cases h
  cursorTracks h := by cases h
  latchHigh h := by cases h
  dlabClear p := by cases p <;> exact dlabSet_zero
  partShort := Nat.zero_lt_succ 3
  partOfWord h := absurd rfl h

theorem witness_StepKeepsInvariant : ∃ t, (delivered .crcReset State.reset).Inv ∧
    step (delivered .crcReset State.reset) = .next t := ⟨_, inv_of_reset_like _ _ _, rfl⟩

theorem witness_ValidityMarks : State.reset.validCrc = false ∧ State.reset.validCon = false ∧
    (∃ t, step (delivered .crcReset State.reset) = .next t ∧ t.validCrc = true) ∧
    (∃ t, exec .crcReset ready = .next t) ∧ (∃ t, exec .conClear ready = .next t) :=
  ⟨rfl, rfl, ⟨_, rfl, rfl⟩, ⟨_, rfl⟩, ⟨_, rfl⟩⟩

/-- The step that makes the mark of the CON unit true. -/
theorem witness_ValidityMarks_con : ∃ t, step (delivered .conClear State.reset) = .next t ∧ t.validCon = true := by
  have hd : decode (encode .conClear) = .ok .conClear := by decide
  have hs := (step_command (s := delivered .conClear State.reset) rfl).trans (runCommand_ok hd _)
  simp only [exec, execConClear] at hs
  refine ⟨_, hs, ?_⟩
  rw [State.respond_validCon]
  exact (kept_clearScreen _).validCon

theorem witness_BuildIsFixed : ∃ t, step (hostDoes [.write 0x1000 0x36] State.reset) = .next t := ⟨_, rfl⟩
theorem witness_HostWaits : ∃ t, (delivered .crcFinal ready).cmd = some 0x140000000000000000 ∧
    step (delivered .crcFinal ready) = .next t := ⟨_, rfl, rfl⟩
theorem witness_CommandsWriteOnly : ∃ t, ready.cfg.Ok ∧ ready.mem.wf = true ∧ exec (.conPutc 0x41) ready = .next t ∧
    ready.validCon = true ∧ ready.pos.toNat < Config.cells ∧ ¬ inCellArray ready.cfg 0xB7FFF :=
  ⟨_, p0_ok, rfl, rfl, rfl, by decide, by decide⟩
theorem witness_CommandsWriteOnly_host : ∃ t, State.reset.cmd = none ∧
    step (hostDoes [.write 0xB7FFF 0x41] State.reset) = .next t := ⟨_, rfl, rfl⟩
theorem witness_CommandsWriteOnly_write : State.reset.cmd = none ∧ State.reset.halted = false ∧ State.reset.mem.wf = true ∧
    (hostDoes [.write 0xB8FA0 0x41] State.reset).host = .write 0xB8FA0 0x41 :: [] ∧ ¬ inCellArray State.reset.cfg 0xB8FA0 ∧
    (hostDoes [.write 0xB8F9F 0x41] State.reset).host = .write 0xB8F9F 0x41 :: [] ∧ inCellArray State.reset.cfg 0xB8F9F :=
  ⟨rfl, rfl, rfl, rfl, by decide, rfl, by decide⟩
theorem witness_ErrorOutcomes : (∃ t, (delivered (.conSetpos 2000) ready).cmd = some (encode (.conSetpos 2000)) ∧
      exec (.conSetpos 2000) (delivered (.conSetpos 2000) ready) = .next t ∧ t.cmd = none ∧
      t.resp = some ⟨.errPosition, 2000⟩) ∧
    ∃ t, (delivered (.serBaud 1 .com1) ready).cmd = some (encode (.serBaud 1 .com1)) ∧
      exec (.serBaud 1 .com1) (delivered (.serBaud 1 .com1) ready) = .next t ∧ t.cmd = none ∧
      t.resp = some ⟨.errBaud, 1⟩ := ⟨⟨_, rfl, rfl, rfl, rfl⟩, ⟨_, rfl, rfl, rfl, rfl⟩⟩

theorem witness_CrcFold : ready.validCrc = true := rfl
theorem witness_CrcBuf : ready.validCrc = true ∧ (0xFFFFFFFF : Word).toNat + (1 : Word).toNat ≤ 2 ^ 32 ∧
    2 ^ 32 < (0xFFFFFFFF : Word).toNat + (2 : Word).toNat ∧ ∃ t, exec (.crcBuf 0xFFFFFFFF 0) ready = .next t :=
  ⟨rfl, by decide, by decide, _, rfl⟩
theorem witness_CrcFinal : ready.validCrc = true ∧ State.reset.validCrc = false ∧ (∃ t, exec .crcFinal ready = .next t) ∧
    ready.cfg.crcInit = 0xFFFFFFFF ∧ ready.cfg.crcXorout = 0xFFFFFFFF := ⟨rfl, rfl, ⟨_, rfl⟩, rfl, rfl⟩
theorem witness_CrcFoldAffine : ([0x00, 0xFF] : List Byte).length = ([0x5A, 0x31] : List Byte).length := rfl
theorem witness_OneFlippedBit : 0 < 8 ∧ 7 < 8 := by decide
theorem witness_Chunking : ∃ t, [Instr.crcByte 0x31, .crcWord 5, .crcBuf 0x1000 2].map (foldedBytes State.reset) =
      [[0x31], [5, 0, 0, 0], [0, 0]].map some ∧
    execAll (.crcReset :: [.crcByte 0x31, .crcWord 5, .crcBuf 0x1000 2]) State.reset = .next t := ⟨_, by decide, rfl⟩

theorem witness_CursorUpdate : ready.cfg.Ok := p0_ok
theorem witness_ConClear : State.reset.cfg.Ok ∧ State.reset.mem.wf = true := ⟨p0_ok, rfl⟩
theorem witness_ConSetpos : ready.cfg.Ok ∧ ready.validCon = true ∧ (1999 : Word).toNat < 2000 ∧
    2000 ≤ (2000 : Word).toNat ∧ State.reset.validCon = false := ⟨p0_ok, rfl, by decide, by decide, rfl⟩
theorem witness_Colours : ready.validCon = true := rfl
theorem witness_BackgroundColour : ∃ t, (15 : Word).toNat < 16 ∧ exec (.conBg 15) ready = .next t := ⟨_, by decide, rfl⟩

/-- The ends of the classes that write a glyph. -/
theorem witness_WritesGlyph : WritesGlyph Config.P0 0 0x20 ∧ WritesGlyph Config.P0 0x20 0x20 ∧
    WritesGlyph Config.P0 0x7E 0x7E ∧ WritesGlyph Config.P0 0x80 0xFE ∧ WritesGlyph Config.P0 0xFFFFFFFF 0xFE := by
  unfold WritesGlyph
  decide
theorem witness_PutcWritesGlyph : ready.cfg.Ok ∧ ready.mem.wf = true ∧ ready.validCon = true ∧
    (at' 1998).pos.toNat < 1999 ∧ WritesGlyph ready.cfg 0x7E 0x7E := ⟨p0_ok, rfl, rfl, by decide, witness_WritesGlyph.2.2.1⟩
theorem witness_PutcInLastCell : (at' 1999).cfg.Ok ∧ (at' 1999).mem.wf = true ∧ (at' 1999).validCon = true ∧
    (at' 1999).pos.toNat = 1999 ∧ WritesGlyph (at' 1999).cfg 0 0x20 := ⟨p0_ok, rfl, rfl, by decide, witness_WritesGlyph.1⟩
theorem witness_NewlineMoves : (at' 1919).cfg.Ok ∧ (at' 1919).validCon = true ∧ (at' 1919).pos.toNat < 1920 ∧
    (0x0A : Word).toNat = 0x0A := ⟨p0_ok, rfl, by decide, by decide⟩
theorem witness_NewlineScrolls : (at' 1920).cfg.Ok ∧ (at' 1920).mem.wf = true ∧ (at' 1920).validCon = true ∧
    1920 ≤ (at' 1920).pos.toNat ∧ (at' 1999).pos.toNat < 2000 ∧ (0x0A : Word).toNat = 0x0A :=
  ⟨p0_ok, rfl, rfl, by decide, by decide, by decide⟩
theorem witness_Ignored : ready.validCon = true ∧ IgnoredChar 0x01 ∧ IgnoredChar 0x09 ∧ IgnoredChar 0x0B ∧
    IgnoredChar 0x1F ∧ IgnoredChar 0x7F := by
  unfold IgnoredChar
  decide
theorem witness_FillingTheScreen : ready.cfg.Ok ∧ ready.mem.wf = true ∧ ready.validCon = true ∧ ready.pos = 0 ∧
    (List.replicate 2005 (0x41 : Word)).length = 2005 ∧
    ∀ a ∈ List.replicate 2005 (0x41 : Word), 0x20 ≤ a.toNat ∧ a.toNat ≤ 0x7E := by
  refine ⟨p0_ok, rfl, rfl, rfl, List.length_replicate, fun a ha => ?_⟩
  rw [(List.mem_replicate.mp ha).2]
  decide

theorem witness_SerReset : ready.cfg.Ok ∧ dlabSet ready.cfg (ready.uart .com1).lcr = false := ⟨p0_ok, by decide⟩
theorem witness_SerResetDlab : (lcrIs 0x83).cfg.Ok ∧ dlabSet (lcrIs 0x83).cfg ((lcrIs 0x83).uart .com1).lcr = true :=
  ⟨p0_ok, by decide⟩
theorem witness_ValidRates : baudValid 2 = true ∧ baudValid 115200 = true ∧ baudValid 1 = false := by decide
theorem witness_SerBaud : ready.cfg.Ok ∧ baudValid 2 = true ∧ baudValid 115200 = true := ⟨p0_ok, by decide, by decide⟩
theorem witness_SerBaudRejects : ([0, 1, 7, 9601, 115201, 0xFFFFFFFF] : List Word).map
    (fun a => decide (2 ≤ a.toNat ∧ a.toNat ≤ 115200 ∧ 115200 % a.toNat = 0)) = List.replicate 6 false := by
  decide +kernel
theorem witness_LineControl : ∃ t, ready.cfg.Ok ∧ baudValid 9600 = true ∧ exec (.serBaud 9600 .com1) ready = .next t :=
  ⟨_, p0_ok, by decide, rfl⟩
theorem witness_SerRxb : (waiting [0x5A]).cfg.Ok ∧
    dlabSet (waiting [0x5A]).cfg ((waiting [0x5A]).uart .com1).lcr = false ∧
    queueNow .com1 (waiting [0x5A]) = 0x5A :: [] := ⟨p0_ok, by decide, by decide⟩
theorem witness_ReceiveWaits : (waiting []).cfg.Ok ∧ queueNow .com1 (waiting []) = [] ∧
    (waiting []).rxPart.length < 4 ∧ (Instr.serRxw .com1 = .serRxb .com1 ∨ Instr.serRxw .com1 = .serRxw .com1) :=
  ⟨p0_ok, by decide, by decide, .inr rfl⟩
theorem witness_SerRxw : (waiting [0x78, 0x56, 0x34, 0x12, 0x99]).cfg.Ok ∧
    dlabSet (waiting [0x78, 0x56, 0x34, 0x12, 0x99]).cfg ((waiting [0x78, 0x56, 0x34, 0x12, 0x99]).uart .com1).lcr = false ∧
    (waiting [0x78, 0x56, 0x34, 0x12, 0x99]).rxPart ++ [0x78, 0x56, 0x34, 0x12] = [0x78, 0x56, 0x34, 0x12] ∧
    ∀ k, k < [0x78, 0x56, 0x34, 0x12].length → ([0x78, 0x56, 0x34, 0x12] : List Byte).take (k + 1) <+:
      ((waiting [0x78, 0x56, 0x34, 0x12, 0x99]).uart .com1).rxq ++
        arrivedIn .com1 (waiting [0x78, 0x56, 0x34, 0x12, 0x99]) (2 * k + 1) :=
  ⟨p0_ok, by decide, by decide, by decide⟩

/-- Two bytes received, nothing waiting: the last two come at the step's own polls. -/
def resuming : State := { delivered (.serRxw .com1) ready with
  rxPart := [0x78, 0x56]
  com1 := { Uart.reset with line := [⟨[0x34], 0x60⟩, ⟨[], 0x60⟩, ⟨[0x12, 0x99], 0x60⟩, ⟨[], 0x60⟩] } }

theorem witness_SerRxw_resumed : resuming.cfg.Ok ∧ dlabSet resuming.cfg (resuming.uart .com1).lcr = false ∧
    resuming.rxPart ++ [0x34, 0x12] = [0x78, 0x56, 0x34, 0x12] ∧
    ∀ k, k < [0x34, 0x12].length → ([0x34, 0x12] : List Byte).take (k + 1) <+:
      (resuming.uart .com1).rxq ++ arrivedIn .com1 resuming (2 * k + 1) := ⟨p0_ok, by decide, by decide, by decide⟩
/-- By 43_serial R180 and R182: the word is answered and the byte behind it stays in the queue. -/
theorem test_serRxw_resumed : after (.serRxw .com1) resuming (fun t => (t.resp, t.com1.rxq)) =
    some (some ⟨.ok, 0x12345678⟩, [0x99]) := by decide

/-- One byte waiting and one that comes while it is read. -/
def arriving : State := delivered (.serRxw .com1)
  { ready with com1 := { Uart.reset with rxq := [0x78], line := [⟨[], 0x60⟩, ⟨[0x56], 0x60⟩, ⟨[], 0x60⟩, ⟨[], 0x60⟩, ⟨[], 0x60⟩] } }

theorem witness_SerRxwUnfinished : ∃ t, arriving.cfg.Ok ∧ dlabSet arriving.cfg (arriving.uart .com1).lcr = false ∧
    arriving.rxPart.length < 4 ∧ arriving.cmd = some (encode (.serRxw .com1)) ∧
    exec (.serRxw .com1) arriving = .next t ∧ t.cmd ≠ none ∧ t.rxPart = [0x78, 0x56] :=
  ⟨_, p0_ok, by decide, by decide, rfl, rfl, by decide, by decide⟩
theorem witness_SerRxwIsFour : (waiting [1, 2, 3, 4]).cfg.Ok ∧
    dlabSet (waiting [1, 2, 3, 4]).cfg ((waiting [1, 2, 3, 4]).uart .com1).lcr = false ∧
    (waiting [1, 2, 3, 4]).rxPart = [] ∧ 4 ≤ ((waiting [1, 2, 3, 4]).uart .com1).rxq.length :=
  ⟨p0_ok, by decide, rfl, by decide⟩

/-- A line that is silent for three polls and then delivers a byte. -/
def silent : State :=
  { ready with
    cmd := some (encode (.serRxb .com1))
    com1 := { Uart.reset with line := List.replicate 3 ⟨[], 0x60⟩ ++ [⟨[0x5A], 0x60⟩] } }

theorem witness_NoTimeOut : silent.cfg.Ok ∧ silent.rxPart.length < 4 ∧
    (Instr.serRxb .com1 = .serRxb .com1 ∨ Instr.serRxb .com1 = .serRxw .com1) ∧
    silent.cmd = some (encode (.serRxb .com1)) ∧ (silent.uart .com1).rxq = [] ∧
    (∀ m ∈ List.replicate 3 (⟨[], 0x60⟩ : Config.Moment), m.arrived = []) ∧
    (silent.uart .com1).line = List.replicate 3 ⟨[], 0x60⟩ ++ [⟨[0x5A], 0x60⟩] :=
  ⟨p0_ok, by decide, .inl rfl, rfl, rfl, by decide, rfl⟩
theorem witness_PortsIndependent : ∃ t, ready.cfg.Ok ∧
    (Instr.serReset .com1 = .serReset .com1 ∨ Instr.serReset .com1 = .serBaud 0 .com1 ∨
      Instr.serReset .com1 = .serRxb .com1 ∨ Instr.serReset .com1 = .serRxw .com1) ∧
    exec (.serReset .com1) ready = .next t := ⟨_, p0_ok, .inl rfl, rfl⟩

theorem witness_LoadCount : State.reset.cmd = none ∧ State.reset.halted = false ∧
    (hostDoes [.checkCount] State.reset).host = .checkCount :: [] ∧
    16 < { Loader.reset with count := 17 }.count.toNat ∧ { Loader.reset with count := 16 }.count.toNat ≤ 16 :=
  ⟨rfl, rfl, rfl, by decide, by decide⟩
theorem witness_LoadHeader : State.reset.cmd = none ∧ State.reset.halted = false ∧
    (hostDoes [.checkHeader] State.reset).host = .checkHeader :: [] ∧
    Loader.reset.headerSum = Loader.reset.headerDigest ∧
    { Loader.reset with headerSum := 1 }.headerSum ≠ { Loader.reset with headerSum := 1 }.headerDigest :=
  ⟨rfl, rfl, rfl, rfl, by decide⟩
theorem witness_LoadData : State.reset.cmd = none ∧ State.reset.halted = false ∧
    (hostDoes [.checkData] State.reset).host = .checkData :: [] ∧ Loader.reset.dataDigest = Loader.reset.dataSum ∧
    { Loader.reset with dataSum := 1 }.dataDigest ≠ { Loader.reset with dataSum := 1 }.dataSum :=
  ⟨rfl, rfl, rfl, rfl, by decide⟩
theorem witness_LoadStores : (hostDoes [.store 0xFFFFFFFF] { ready with resp := some ⟨.ok, 0x5A⟩ }).cmd = none ∧
    ready.halted = false ∧ ready.mem.wf = true ∧
    (hostDoes [.store 0xFFFFFFFF] { ready with resp := some ⟨.ok, 0x5A⟩ }).host = .store 0xFFFFFFFF :: [] ∧
    (hostDoes [.store 0xFFFFFFFF] { ready with resp := some ⟨.ok, 0x5A⟩ }).resp = some ⟨.ok, 0x5A⟩ ∧
    (hostDoes [.copy 0x1000 1] ready).host = .copy 0x1000 (0 + 1) :: [] ∧
    (hostDoes [.copy 0x1000 0] ready).host = .copy 0x1000 0 :: [] ∧
    (hostDoes [.segment ⟨0xFFFFFFFF, 0⟩] ready).host = .segment ⟨0xFFFFFFFF, 0⟩ :: [] :=
  ⟨rfl, rfl, rfl, rfl, rfl, rfl, rfl, rfl⟩
/-- Hosts about to begin LOAD and about to take each action that writes a variable of it. -/
theorem witness_HeaderFirst : State.reset.cmd = none ∧ State.reset.halted = false ∧
    (hostDoes [.load .com2] State.reset).host = .load .com2 :: [] ∧
    (hostDoes [.take .count] { ready with resp := some ⟨.ok, 16⟩ }).host = .take .count :: [] ∧
    (hostDoes [.recvWord .start] ready).host = .recvWord .start :: [] ∧
    (hostDoes [.digest .headerDigest] ready).host = .digest .headerDigest :: [] ∧
    (hostDoes [.fold .dataSum] ready).host = .fold .dataSum :: [] ∧
    (hostDoes [.addSegment] ready).host = .addSegment :: [] := ⟨rfl, rfl, rfl, rfl, rfl, rfl, rfl, rfl⟩

/-- Inside the header of a LOAD, about to do this. -/
def inHeader (ops : List HostOp) : State :=
  { State.reset with load := .running, loader := { Loader.reset with count := 16 }, host := ops }

theorem inHeader_inv (ops : List HostOp) : (inHeader ops).Inv where
  cfgOk := p0_ok
  memWf := rfl
  posOnScreen h := by cases h
  cursorTracks h := by cases h
  latchHigh h := by cases h
  dlabClear p := by cases p <;> exact dlabSet_zero
  partShort := Nat.zero_lt_succ 3
  partOfWord h := absurd rfl h

theorem witness_HeaderFirst_step : ∃ t, (inHeader [.report, .checkCount]).Inv ∧ (inHeader [.report, .checkCount]).InHeader ∧
    step (inHeader [.report, .checkCount]) = .next t :=
  ⟨_, inHeader_inv _, ⟨rfl, rfl, ⟨[.report], .checkCount, [], rfl, .inl rfl, by decide⟩, fun _ h => by cases h⟩, rfl⟩
theorem witness_Reports : State.reset.cmd = none ∧ State.reset.halted = false ∧
    (hostDoes [.report] State.reset).host = .report :: [] := ⟨rfl, rfl, rfl⟩
theorem witness_Halt : { State.reset with halted := true }.cmd = none ∧ { State.reset with halted := true }.halted = true ∧
    State.reset.cmd = none ∧ State.reset.halted = false ∧ (hostDoes [.halt] State.reset).host = .halt :: [] :=
  ⟨rfl, rfl, rfl, rfl, rfl⟩
theorem witness_LoadSegments : State.reset.cmd = none ∧ State.reset.halted = false ∧
    (hostDoes [.segment ⟨0xFFFFFFFF, 1⟩] State.reset).host = .segment ⟨0xFFFFFFFF, 1⟩ :: [] ∧
    (0xFFFFFFFF : Word).toNat + (1 : Word).toNat ≤ 2 ^ 32 ∧ 2 ^ 32 < (0xFFFFFFFF : Word).toNat + (2 : Word).toNat :=
  ⟨rfl, rfl, rfl, by decide, by decide⟩

end Sys2Proof.Tests
end

section
/-! SUPPORT. The statements about the machine as a whole. First what a step can do, said once: what a command leaves
unchanged in every state (`Ran`), what it leaves unchanged in a legal build (`ScreenKept`, `PortWork`, `ConsoleWork`),
and what the host does (`IdleStep`). The statements are read off these. -/

namespace Sys2Proof.Machine

/-! ### Words and their commands -/

/-- One row of the decoder: it is this row's opcode and the reserved bits are zero, or the rows after it decide. -/
theorem decode_row {c : Prop} [Decidable c] {ok : Bool} {i j : Instr} {rest : Except DecodeError Instr}
    (h : (if c then unreserved ok j else rest) = .ok i) : (c ∧ ok = true ∧ j = i) ∨ rest = .ok i := by
  by_cases hc : c
  · rw [if_pos hc] at h
    exact .inl ⟨hc, unreserved_eq_ok.mp h⟩
  · rw [if_neg hc] at h
    exact .inr h

/-- The word of a decoded command is its encoding (30_encoding R84, R86). -/
theorem encode_of_decode {w : Command} {i : Instr} (h : decode w = .ok i) : encode i = w := by
  rw [← commandWord_fields w]
  unfold decode at h
  simp only [] at h
  generalize opField w = op, aField w = a, bField w = b at h ⊢
  iterate 14
    rcases decode_row h with ⟨rfl, hok, rfl⟩ | h
    · revert hok
      simp +contextual [encode, portField_portOf]
  cases h

/-- With a command in progress a step is that command's meaning, or the answer ILLEGAL to a word that is no command. -/
theorem step_command_cases {s t : State} {w : Command} (hw : s.cmd = some w) (h : step s = .next t) :
    (∃ i, w = encode i ∧ exec i s = .next t) ∨ t = s.raise .illegal 0 := by
  rw [step_command hw] at h
  cases hd : decode w with
  | ok i =>
    rw [runCommand_ok hd] at h
    exact .inl ⟨i, (encode_of_decode hd).symm, h⟩
  | error e =>
    rw [runCommand_error hd] at h
    cases h
    exact .inr rfl

/-! ### The work of a command, in every state -/

/-- What a command keeps in every state (10_state R26, R27, 20_memory R70): the build and the host, the form of memory, the
history so far, the accumulator but for the CRC unit's own commands, and the marks but for the two unit resets. -/
structure Frame (i : Instr) (s u : State) : Prop where
  host : SameHost s u
  memWf : s.mem.wf = true → u.mem.wf = true
  grows : ∃ es, u.hist = es ++ s.hist
  acc : foldedBytes s i = none → i ≠ .crcReset → u.acc = s.acc
  validCrc : u.validCrc = s.validCrc ∨ i = .crcReset ∧ u.validCrc = true
  validCon : u.validCon = s.validCon ∨ i = .conClear ∧ u.validCon = true

/-- What a command keeps before it answers: its frame, itself in progress, and the response before it (10_state R28). -/
structure Work (i : Instr) (s u : State) : Prop where
  frame : Frame i s u
  cmd : u.cmd = s.cmd
  resp : u.resp = s.resp

theorem Frame.respond {i : Instr} {s u : State} (h : Frame i s u) (st : Status) (v : Word) :
    Frame i s (u.respond st v) := by
  obtain ⟨⟨hc, hh, hl, hL, hH, hr, hn⟩, hm, ⟨es, he⟩, ha, hv, hv'⟩ := h
  exact ⟨⟨hc, hh, hl, hL, hH, hr, hn⟩, hm, ⟨.resp ⟨st, v⟩ :: es, congrArg _ he⟩, ha, hv, hv'⟩

theorem Frame.setRxPart {i : Instr} {s u : State} (h : Frame i s u) (bs : List Byte) :
    Frame i s { u with rxPart := bs } := by
  obtain ⟨⟨hc, hh, hl, hL, hH, hr, hn⟩, hm, hg, ha, hv, hv'⟩ := h
  exact ⟨⟨hc, hh, hl, hL, hH, hr, hn⟩, hm, hg, ha, hv, hv'⟩

theorem Work.refl (i : Instr) (s : State) : Work i s s :=
  ⟨⟨⟨rfl, rfl, rfl, rfl, rfl, rfl, rfl⟩, id, ⟨[], rfl⟩, fun _ _ => rfl, .inl rfl, .inl rfl⟩, rfl, rfl⟩

/-- What is done over the bus is done within the frame of any command. -/
theorem Work.trans_kept {i : Instr} {s u t : State} (h : Work i s u) (k : Kept u t) : Work i s t := by
  obtain ⟨⟨hh, hm, ⟨es, he⟩, ha, hv, hv'⟩, hcmd, hresp⟩ := h
  obtain ⟨fs, hf⟩ := k.grows
  refine ⟨⟨⟨k.cfg.trans hh.cfg, k.host.trans hh.host, k.loader.trans hh.loader, k.load.trans hh.load,
    k.halted.trans hh.halted, k.reports.trans hh.reports, k.reportNo.trans hh.reportNo⟩, fun w => k.memWf (hm w),
    ⟨fs ++ es, by rw [hf, he, List.append_assoc]⟩, fun hi hr => k.acc.trans (ha hi hr), ?_, ?_⟩,
    k.cmd.trans hcmd, k.resp.trans hresp⟩
  · rwa [k.validCrc]
  · rwa [k.validCon]

theorem Kept.work {s u : State} (h : Kept s u) (i : Instr) : Work i s u := (Work.refl i s).trans_kept h

theorem Work.setRxPart {i : Instr} {s u : State} (h : Work i s u) (bs : List Byte) :
    Work i s { u with rxPart := bs } := ⟨h.frame.setRxPart bs, h.cmd, h.resp⟩

/-- An update of the block's registers is a command's work when the command may write those it changes (10_state R26, R27). -/
theorem work_setRegisters {i : Instr} {s : State} {acc : Word} {vCrc : Bool} {pos : BitVec 11} {attr : Byte} {vCon : Bool}
    (ha : foldedBytes s i = none → i ≠ .crcReset → acc = s.acc)
    (hv : vCrc = s.validCrc ∨ i = .crcReset ∧ vCrc = true) (hv' : vCon = s.validCon ∨ i = .conClear ∧ vCon = true) :
    Work i s { s with acc := acc, validCrc := vCrc, pos := pos, attr := attr, validCon := vCon } :=
  ⟨⟨⟨rfl, rfl, rfl, rfl, rfl, rfl, rfl⟩, id, ⟨[], rfl⟩, ha, hv, hv'⟩, rfl, rfl⟩

/-- An update of the accumulator is the work of a fold command. -/
theorem work_setAcc {i : Instr} {s : State} (hi : foldedBytes s i ≠ none) (acc : Word) :
    Work i s { s with acc := acc } :=
  work_setRegisters (fun h => absurd h hi) (.inl rfl) (.inl rfl)

/-- An update of ATTR is within any command's work. -/
theorem work_setAttr (i : Instr) (s : State) (attr : Byte) : Work i s { s with attr := attr } :=
  work_setRegisters (fun _ _ => rfl) (.inl rfl) (.inl rfl)

theorem work_crcReset (s : State) : Work .crcReset s { s with acc := s.cfg.crcInit, validCrc := true } :=
  work_setRegisters (fun _ h => absurd rfl h) (.inr ⟨rfl, rfl⟩) (.inl rfl)

theorem work_crcMemory (a b : Word) (s : State) : Work (.crcBuf a b) s (crcMemory b.toNat a s) := by
  have hfold : foldedBytes s (.crcBuf a b) ≠ none := Option.some_ne_none _
  rw [crcMemory_eq]
  exact ⟨⟨⟨rfl, rfl, rfl, rfl, rfl, rfl, rfl⟩, id, ⟨_, rfl⟩, fun h => absurd h hfold, .inl rfl, .inl rfl⟩, rfl, rfl⟩

theorem work_clearScreen (s : State) : Work .conClear s (clearScreen s) :=
  Work.trans_kept (u := { s with pos := 0, attr := s.cfg.defaultAttr, validCon := true })
    (work_setRegisters (fun _ _ => rfl) (.inl rfl) (.inr ⟨rfl, rfl⟩)) (kept_clearScreen s)

/-- What one step of a command comes to: it answers after its work, or a receive command goes on waiting (43_serial R184). -/
inductive Ran (i : Instr) (s t : State) : Prop where
  | answers (u : State) (st : Status) (v : Word) (work : Work i s u) (eq : t = u.respond st v)
  | waitsByte (p : Port) (hi : i = .serRxb p) (work : Work i s t) (part : t.rxPart = s.rxPart)
  | waitsWord (p : Port) (hi : i = .serRxw p) (work : Work i s t)
      (part : t.rxPart.length < s.rxPart.length + (4 - s.rxPart.length))

/-- What holds before the rest of SER.RXW, is kept by a poll and does not look at the bytes received holds when the step ends:
either the command waits with fewer bytes than it asks for, or it answers (43_serial R180). -/
theorem receiveRest_cases {P : State → Prop} {p : Port} (hpoll : ∀ u, P u → P (pollByte p u).2)
    (hpart : ∀ u bs, P u → P { u with rxPart := bs }) (n : Nat) {s : State} (h : P s) :
    (P (receiveRest p n s) ∧ (receiveRest p n s).rxPart.length < s.rxPart.length + n) ∨
      ∃ u v, P u ∧ receiveRest p n s = u.respond .ok v := by
  induction n generalizing s with
  | zero => exact .inr ⟨s, _, h, rfl⟩
  | succ n ih =>
    have hk := (kept_pollByte p s).rxPart
    unfold receiveRest
    simp only []
    split
    · next b _ =>
      rcases ih (hpart _ ((pollByte p s).2.rxPart ++ [b]) (hpoll s h)) with ⟨hP, hl⟩ | hr
      · refine .inl ⟨hP, ?_⟩
        simp only [hk, List.length_append, List.length_singleton] at hl ⊢
        omega
      · exact .inr hr
    · exact .inl ⟨hpoll s h, by rw [hk]; omega⟩

theorem Ran.frame {i : Instr} {s t : State} (h : Ran i s t) : Frame i s t := by
  cases h with
  | answers u st v work eq =>
    subst eq
    exact work.frame.respond st v
  | waitsByte p hi work part => exact work.frame
  | waitsWord p hi work part => exact work.frame

/-- A command that is a fault when a check fails, and completes, has passed the check. -/
theorem of_guard {c : Prop} [Decidable c] {x : Host.Outcome State Fault Refusal} {f : Fault} {t : State}
    (h : (if c then x else .fault f) = .next t) : c ∧ x = .next t := by
  by_cases hc : c
  · exact ⟨hc, by rwa [if_pos hc] at h⟩
  · rw [if_neg hc] at h
    cases h

/-- Every completed step of a command answers or is a receive command that waits. -/
theorem exec_ran {i : Instr} {s t : State} (h : exec i s = .next t) : Ran i s t := by
  cases i with
  | crcReset => cases h; exact .answers _ _ _ (work_crcReset s) rfl
  | crcByte a =>
    obtain ⟨-, ⟨⟩⟩ := of_guard h
    exact .answers _ _ _ (work_setAcc (by simp [foldedBytes]) _) rfl
  | crcWord a =>
    obtain ⟨-, ⟨⟩⟩ := of_guard h
    exact .answers _ _ _ (work_setAcc (by simp [foldedBytes]) _) rfl
  | crcBuf a b =>
    obtain ⟨-, ⟨⟩⟩ := of_guard (of_guard h).2
    exact .answers _ _ _ (work_crcMemory a b s) rfl
  | crcFinal =>
    obtain ⟨-, ⟨⟩⟩ := of_guard h
    exact .answers _ _ _ (.refl _ s) rfl
  | conClear => exact .answers _ _ _ (work_clearScreen s) (Host.Outcome.next.inj h).symm
  | conSetpos a =>
    obtain ⟨-, h⟩ := of_guard h
    split at h
    · cases h
      exact .answers _ _ _ (.refl _ s) rfl
    · cases h
      exact .answers _ _ _ (((kept_setPos s _).trans (kept_cursorUpdate _)).work _) rfl
  | conFg a =>
    obtain ⟨-, ⟨⟩⟩ := of_guard h
    exact .answers _ _ _ (work_setAttr _ s _) rfl
  | conBg a =>
    obtain ⟨-, ⟨⟩⟩ := of_guard h
    exact .answers _ _ _ (work_setAttr _ s _) rfl
  | conPutc a =>
    obtain ⟨-, ⟨⟩⟩ := of_guard h
    exact .answers _ _ _ ((kept_putChar a s).work _) rfl
  | serReset p => cases h; exact .answers _ _ _ ((kept_resetUart p s).work _) rfl
  | serBaud a p =>
    simp only [exec, execSerBaud] at h
    split at h
    · cases h
      exact .answers _ _ _ ((kept_programDivisor p _ s).work _) rfl
    · cases h
      exact .answers _ _ _ (.refl _ s) rfl
  | serRxb p =>
    have hk := kept_pollByte p s
    simp only [exec, execSerRxb] at h
    split at h
    · cases h
      exact .answers _ _ _ (hk.work _) rfl
    · cases h
      exact .waitsByte p rfl (hk.work _) hk.rxPart
  | serRxw p =>
    simp only [exec, execSerRxw] at h
    cases h
    rcases receiveRest_cases (P := Work (.serRxw p) s) (p := p) (fun u hu => hu.trans_kept (kept_pollByte p u))
      (fun u bs hu => hu.setRxPart bs) (4 - s.rxPart.length) (.refl _ s) with ⟨hw, hl⟩ | ⟨u, v, hu, ht⟩
    · exact .waitsWord p rfl hw hl
    · exact .answers u _ v hu ht

theorem exec_frame {i : Instr} {s t : State} (h : exec i s = .next t) : Frame i s t := (exec_ran h).frame

/-! ### The units, in a legal build -/

/-- The console, the cursor registers and all of memory are the same. -/
structure ScreenKept (s t : State) : Prop where
  con : SameCon s t
  cursor : SameCursor s t
  mem : t.mem = s.mem

theorem ScreenKept.refl (s : State) : ScreenKept s s := ⟨⟨rfl, rfl, rfl⟩, ⟨rfl, rfl⟩, rfl⟩

theorem ScreenKept.trans {s t u : State} (h : ScreenKept s t) (k : ScreenKept t u) : ScreenKept s u where
  con := ⟨k.con.pos.trans h.con.pos, k.con.attr.trans h.con.attr, k.con.validCon.trans h.con.validCon⟩
  cursor := ⟨k.cursor.crtcIndex.trans h.cursor.crtcIndex, k.cursor.cursorLoc.trans h.cursor.cursorLoc⟩
  mem := k.mem.trans h.mem

theorem ScreenKept.sameMemory {s t : State} (h : ScreenKept s t) : SameMemory s t := fun _ => by rw [h.mem]

theorem SameUarts.uart {s t : State} (h : SameUarts s t) (p : Port) : t.uart p = s.uart p := by
  cases p
  · exact h.com1
  · exact h.com2

/-- The serial port a SER command names; the other units' commands name none (30_encoding R88). -/
def serPort : Instr → Option Port
  | .serReset p => some p
  | .serBaud _ p => some p
  | .serRxb p => some p
  | .serRxw p => some p
  | .crcReset => none
  | .crcByte _ => none
  | .crcWord _ => none
  | .crcBuf _ _ => none
  | .crcFinal => none
  | .conClear => none
  | .conSetpos _ => none
  | .conFg _ => none
  | .conBg _ => none
  | .conPutc _ => none

/-- A command of the CRC unit: a fold, the reset or the digest (41_crc32 R122 to R126). -/
def IsCrc (s : State) (i : Instr) : Prop := foldedBytes s i ≠ none ∨ i = .crcReset ∨ i = .crcFinal

/-- Every command is one of the three units' (30_encoding R84). -/
theorem unit_cases (s : State) (i : Instr) : IsCrc s i ∨ i.isCon = true ∨ ∃ p, serPort i = some p := by
  cases i <;> simp [IsCrc, foldedBytes, Instr.isCon, serPort]

/-- The CRC commands touch no device and no cell, in any state (10_state R26). -/
theorem exec_crc_keeps {i : Instr} {s t : State} (hi : IsCrc s i) (h : exec i s = .next t) :
    ScreenKept s t ∧ SameUarts s t := by
  cases i with
  | crcReset =>
    cases h
    exact ⟨⟨⟨rfl, rfl, rfl⟩, ⟨rfl, rfl⟩, rfl⟩, rfl, rfl⟩
  | crcByte a =>
    obtain ⟨-, ⟨⟩⟩ := of_guard h
    exact ⟨⟨⟨rfl, rfl, rfl⟩, ⟨rfl, rfl⟩, rfl⟩, rfl, rfl⟩
  | crcWord a =>
    obtain ⟨-, ⟨⟩⟩ := of_guard h
    exact ⟨⟨⟨rfl, rfl, rfl⟩, ⟨rfl, rfl⟩, rfl⟩, rfl, rfl⟩
  | crcBuf a b =>
    obtain ⟨-, ⟨⟩⟩ := of_guard (of_guard h).2
    rw [crcMemory_eq]
    exact ⟨⟨⟨rfl, rfl, rfl⟩, ⟨rfl, rfl⟩, rfl⟩, rfl, rfl⟩
  | crcFinal =>
    obtain ⟨-, ⟨⟩⟩ := of_guard h
    exact ⟨⟨⟨rfl, rfl, rfl⟩, ⟨rfl, rfl⟩, rfl⟩, rfl, rfl⟩
  | _ => simp [IsCrc, foldedBytes] at hi

/-! ### The SER unit -/

/-- What work on serial port `p` keeps: everything but that port's UART among the registers and devices (43_serial R170). -/
structure PortWork (p : Port) (s t : State) : Prop where
  screen : ScreenKept s t
  other : ∀ q, q ≠ p → t.uart q = s.uart q

theorem PortWork.refl (p : Port) (s : State) : PortWork p s s := ⟨.refl s, fun _ _ => rfl⟩

theorem PortWork.trans {p : Port} {s t u : State} (h : PortWork p s t) (k : PortWork p t u) : PortWork p s u :=
  ⟨h.screen.trans k.screen, fun q hq => (k.other q hq).trans (h.other q hq)⟩

theorem portWork_setUart (p : Port) (s : State) (u : Uart) : PortWork p s (s.setUart p u) :=
  ⟨by cases p <;> exact ⟨⟨rfl, rfl, rfl⟩, ⟨rfl, rfl⟩, rfl⟩, fun _ hq => State.setUart_uart_other s hq u⟩

theorem PortWork.emit {p : Port} {s t : State} (h : PortWork p s t) (e : Event) : PortWork p s (t.emit e) :=
  h.trans ⟨⟨⟨rfl, rfl, rfl⟩, ⟨rfl, rfl⟩, rfl⟩, fun q _ => State.emit_uart t e q⟩

theorem PortWork.respond {p : Port} {s t : State} (h : PortWork p s t) (st : Status) (v : Word) :
    PortWork p s (t.respond st v) :=
  h.trans ⟨⟨⟨rfl, rfl, rfl⟩, ⟨rfl, rfl⟩, rfl⟩, fun q _ => State.respond_uart t st v q⟩

/-- What a receive command's work on port `p` keeps: the line control too (43_serial R178, R180). -/
structure Polled (p : Port) (s t : State) : Prop where
  port : PortWork p s t
  lcr : (t.uart p).lcr = (s.uart p).lcr
  cfg : t.cfg = s.cfg

theorem Polled.refl (p : Port) (s : State) : Polled p s s := ⟨.refl p s, rfl, rfl⟩

theorem Polled.trans {p : Port} {s t u : State} (h : Polled p s t) (k : Polled p t u) : Polled p s u :=
  ⟨h.port.trans k.port, k.lcr.trans h.lcr, k.cfg.trans h.cfg⟩

theorem Polled.respond {p : Port} {s t : State} (h : Polled p s t) (st : Status) (v : Word) : Polled p s (t.respond st v) :=
  ⟨h.port.respond st v, by rw [State.respond_uart, h.lcr], h.cfg⟩

theorem Polled.setRxPart {p : Port} {s t : State} (h : Polled p s t) (bs : List Byte) :
    Polled p s { t with rxPart := bs } :=
  h.trans ⟨⟨⟨⟨rfl, rfl, rfl⟩, ⟨rfl, rfl⟩, rfl⟩, fun q _ => by cases q <;> rfl⟩, by cases p <;> rfl, rfl⟩

/-- No read changes the line control (10_state R32). -/
@[simp] theorem Uart.read_lcr (u : Uart) (c : Config.Params) (r : UartPort) (other free : Byte) :
    (u.read c r other free).2.lcr = u.lcr := by
  cases r with
  | data =>
    simp only [Uart.read]
    split
    · rfl
    · split <;> rfl
  | _ => rfl

theorem polled_portIn {c : Config.Params} (h : c.Ok) {s : State} (hc : s.cfg = c) (p : Port) (x : UartReg) :
    Polled p s (portIn (reg c p x) s).2 := by
  rw [portIn_reg h hc]
  exact ⟨(portWork_setUart p s _).emit _, by simp [Uart.afterMoment], by simp⟩

theorem polled_pollByte {s : State} (h : s.cfg.Ok) (p : Port) : Polled p s (pollByte p s).2 := by
  have hl := polled_portIn h rfl p .lsr
  unfold pollByte
  simp only []
  split
  · exact hl.trans (polled_portIn h hl.cfg p .data)
  · exact hl

theorem polled_receiveRest {s : State} (h : s.cfg.Ok) (p : Port) (n : Nat) : Polled p s (receiveRest p n s) := by
  rcases receiveRest_cases (P := Polled p s) (p := p) (fun u hu => hu.trans (polled_pollByte (hu.cfg ▸ h) p))
    (fun u bs hu => hu.setRxPart bs) n (.refl p s) with ⟨hP, -⟩ | ⟨u, v, hP, ht⟩
  · exact hP
  · rw [ht]
    exact hP.respond _ _

/-- The SER commands touch the UART of their own port alone (10_state R26, 43_serial R170), and leave DLAB clear when they
found it clear (43_serial R174, 70_reset R271). -/
theorem exec_ser_portWork {i : Instr} {p : Port} {s t : State} (h : s.cfg.Ok) (hi : serPort i = some p)
    (he : exec i s = .next t) :
    PortWork p s t ∧ (dlabSet s.cfg (s.uart p).lcr = false → dlabSet s.cfg (t.uart p).lcr = false) := by
  cases i with
  | serReset q =>
    cases hi
    cases he
    rw [resetUart_eq h]
    refine ⟨((((portWork_setUart p s _).emit _).emit _).emit _).respond _ _, fun _ => ?_⟩
    simpa using dlabSet_8n1 h
  | serBaud a q =>
    cases hi
    simp only [exec, execSerBaud] at he
    split at he
    · cases he
      rw [programDivisor_eq h]
      refine ⟨((((((portWork_setUart p s _).emit _).emit _).emit _).emit _).emit _).respond _ _, fun _ => ?_⟩
      simpa using dlabSet_clear s.cfg _
    · cases he
      exact ⟨(PortWork.refl p s).respond _ _, fun hd => by simpa using hd⟩
  | serRxb q =>
    cases hi
    have hp : Polled p s t := by
      simp only [exec, execSerRxb] at he
      split at he
      · cases he
        exact (polled_pollByte h p).respond _ _
      · cases he
        exact polled_pollByte h p
    exact ⟨hp.port, fun hd => by rwa [hp.lcr]⟩
  | serRxw q =>
    cases hi
    cases he
    have hp := polled_receiveRest h p (4 - s.rxPart.length)
    exact ⟨hp.port, fun hd => by rwa [hp.lcr]⟩
  | _ => cases hi

/-! ### The CON unit -/

/-- The position is on the screen and the hardware cursor stands on it (10_state R43). -/
structure OnScreen (s : State) : Prop where
  pos : s.pos.toNat < Config.cells
  cursor : CursorOn s

theorem ScreenKept.onScreen {s t : State} (h : ScreenKept s t) (hc : t.cfg = s.cfg) (hs : OnScreen s) : OnScreen t where
  pos := by rw [h.con.pos]; exact hs.pos
  cursor := ⟨by rw [h.cursor.cursorLoc, h.con.pos]; exact hs.cursor.cursorLoc,
    by rw [h.cursor.crtcIndex, hc]; exact hs.cursor.crtcIndex⟩

/-- What a console command does in a legal build: no UART changes, of memory the cell array alone, and the position it leaves is
on the screen with the cursor on it (10_state R26, R43). -/
structure ConsoleWork (s t : State) : Prop where
  uarts : SameUarts s t
  outside : s.pos.toNat < Config.cells → ∀ a : Addr, ¬ inCellArray s.cfg a → t.mem.read a.toNat = s.mem.read a.toNat
  onScreen : (s.validCon = true → OnScreen s) → OnScreen t

theorem ConsoleWork.respond {s t : State} (h : ConsoleWork s t) (st : Status) (v : Word) :
    ConsoleWork s (t.respond st v) where
  uarts := ⟨h.uarts.com1, h.uarts.com2⟩
  outside := h.outside
  onScreen hs := ⟨(h.onScreen hs).pos, ⟨(h.onScreen hs).cursor.cursorLoc, (h.onScreen hs).cursor.crtcIndex⟩⟩

theorem Advanced.onScreen {s t : State} {p : BitVec 11} (h : Advanced s t p) (hp : p.toNat < Config.cells) :
    OnScreen t where
  pos := by rw [h.pos]; exact hp
  cursor := ⟨by rw [h.cursorLoc, h.pos], by rw [h.crtcIndex, h.kept.cfg]⟩

/-- An advance ends on the screen, touches no UART and no byte outside the cells (42_console R150). -/
theorem advance_onScreen_outside {s : State} (h : s.cfg.Ok) (hw : s.mem.wf = true) (n : Nat) :
    SameUarts s (advance n s) ∧ OnScreen (advance n s) ∧
      ∀ a : Addr, ¬ inCellArray s.cfg a → (advance n s).mem.read a.toNat = s.mem.read a.toNat := by
  rcases Nat.lt_or_ge (s.pos.toNat + n) Config.cells with hn | hn
  · obtain ⟨hA, hm, -⟩ := advance_on_screen_spec h hn
    refine ⟨⟨hA.com1, hA.com2⟩, hA.onScreen ?_, fun a _ => by rw [hm]⟩
    exact Nat.lt_of_le_of_lt (by rw [BitVec.toNat_ofNat]; exact Nat.mod_le _ _) hn
  · obtain ⟨hA, -, -, houtside, -⟩ := advance_off_screen_spec h hw hn
    exact ⟨⟨hA.com1, hA.com2⟩, hA.onScreen (by decide), houtside⟩

/-- A glyph, a newline or nothing: what a character is (42_console R152). -/
theorem char_cases (c : Config.Params) (a : Word) : (∃ g, WritesGlyph c a g) ∨ a.toNat = 0x0A ∨ IgnoredChar a := by
  unfold WritesGlyph IgnoredChar
  by_cases h0 : a.toNat = 0x00
  · exact .inl ⟨_, .inl ⟨h0, rfl⟩⟩
  by_cases hp : 0x20 ≤ a.toNat ∧ a.toNat ≤ 0x7E
  · exact .inl ⟨_, .inr (.inl ⟨hp.1, hp.2, rfl⟩)⟩
  by_cases hn : 0x80 ≤ a.toNat
  · exact .inl ⟨_, .inr (.inr ⟨hn, rfl⟩)⟩
  · exact .inr (by omega)

theorem consoleWork_putChar {s : State} (h : s.cfg.Ok) (hw : s.mem.wf = true) (hv : s.validCon = true) (a : Word) :
    ConsoleWork s (putChar a s) := by
  rcases char_cases s.cfg a with ⟨g, hg⟩ | hn | hi
  · rw [putChar_glyph hg]
    obtain ⟨hu, hs, hout⟩ :=
      advance_onScreen_outside (s := cellWrite s.pos.toNat g s.attr s) h (cellWrite_wf _ _ _ hw) 1
    exact ⟨⟨hu.com1, hu.com2⟩, fun hp b hb => (hout b hb).trans
      (cellWrite_read_other _ _ _ s (not_ofCell_outside h hp hb)), fun _ => hs⟩
  · rw [putChar_newline hn]
    obtain ⟨hu, hs, hout⟩ := advance_onScreen_outside h hw (Config.width - s.pos.toNat % Config.width)
    exact ⟨hu, fun _ => hout, fun _ => hs⟩
  · rw [putChar_ignored hi]
    exact ⟨⟨rfl, rfl⟩, fun _ _ _ => rfl, fun hs => hs hv⟩

theorem consoleWork_clearScreen {s : State} (h : s.cfg.Ok) (hw : s.mem.wf = true) : ConsoleWork s (clearScreen s) := by
  obtain ⟨-, hout, -, -, he⟩ := clearScreen_spec h hw
  refine ⟨⟨?_, ?_⟩, fun _ => hout, fun _ => ⟨?_, ?_, ?_⟩⟩
  · rw [he]
  · rw [he]
  · rw [he]
    exact (by decide : (0 : BitVec 11).toNat < Config.cells)
  · rw [he]
    rfl
  · rw [he]

theorem consoleWork_setPos {s : State} (h : s.cfg.Ok) {p : BitVec 11} (hp : p.toNat < Config.cells) :
    ConsoleWork s (cursorUpdate { s with pos := p }) := by
  rw [cursorUpdate_eq (by exact h)]
  exact ⟨⟨rfl, rfl⟩, fun _ _ _ => rfl, fun _ => ⟨hp, rfl, rfl⟩⟩

theorem consoleWork_setAttr {s : State} (hv : s.validCon = true) (attr : Byte) : ConsoleWork s { s with attr := attr } :=
  ⟨⟨rfl, rfl⟩, fun _ _ _ => rfl, fun hs => ⟨(hs hv).pos, ⟨(hs hv).cursor.cursorLoc, (hs hv).cursor.crtcIndex⟩⟩⟩

/-- A position that passed the range check is the operand (42_console R143). -/
theorem posOperand_toNat {a : Word} (h : a.toNat < Config.cells) : (posOperand a).toNat = a.toNat := by
  have hc : Config.cells = 2000 := rfl
  simp only [posOperand, BitVec.extractLsb'_toNat, Nat.shiftRight_zero]
  exact Nat.mod_eq_of_lt (by omega)

/-- The CON commands touch the console, the cursor and the cell array alone, and keep the cursor on the position
(10_state R26, R43). -/
theorem exec_con_consoleWork {i : Instr} {s t : State} (h : s.cfg.Ok) (hw : s.mem.wf = true) (hi : i.isCon = true)
    (he : exec i s = .next t) : ConsoleWork s t := by
  cases i with
  | conClear =>
    rw [← Host.Outcome.next.inj he]
    exact (consoleWork_clearScreen h hw).respond _ _
  | conSetpos a =>
    obtain ⟨hv, he⟩ := of_guard he
    split at he
    · cases he
      exact (consoleWork_setAttr hv s.attr).respond _ _
    · next hlt =>
      cases he
      exact (consoleWork_setPos h (by rw [posOperand_toNat (by omega)]; omega)).respond _ _
  | conFg a =>
    obtain ⟨hv, ⟨⟩⟩ := of_guard he
    exact (consoleWork_setAttr hv _).respond _ _
  | conBg a =>
    obtain ⟨hv, ⟨⟩⟩ := of_guard he
    exact (consoleWork_setAttr hv _).respond _ _
  | conPutc a =>
    obtain ⟨hv, ⟨⟩⟩ := of_guard he
    exact (consoleWork_putChar h hw hv a).respond _ _
  | _ => cases hi

/-- A command of another unit than CON leaves the screen as it is (10_state R26). -/
theorem exec_screenKept {i : Instr} {s t : State} (h : s.cfg.Ok) (hi : i.isCon = false) (he : exec i s = .next t) :
    ScreenKept s t := by
  rcases unit_cases s i with hcrc | hcon | ⟨p, hp⟩
  · exact (exec_crc_keeps hcrc he).1
  · rw [hi] at hcon
    cases hcon
  · exact (exec_ser_portWork h hp he).1.screen

/-! ### The host -/

/-- Only the host's own part of the state differs: the command it delivers, its list, the variables of LOAD, the halt and the
reports. -/
def OnlyHost (s t : State) : Prop := t = { s with
  cmd := t.cmd, rxPart := t.rxPart, host := t.host, loader := t.loader, load := t.load, halted := t.halted
  reports := t.reports, reportNo := t.reportNo }

/-- What a step with no command in progress comes to: the host's own state changes, or it stores one byte, with LOAD's copy
anywhere and with its own write outside the cell array (70_reset R277, 20_memory R69). -/
inductive IdleStep (s t : State) : Prop where
  | quiet (only : OnlyHost s t) (part : t.rxPart = s.rxPart ∨ t.rxPart = [])
  | stores (a : Addr) (v : Byte) (rest : List HostOp)
      (op : s.host = .store a :: rest ∨ s.host = .write a v :: rest ∧ ¬ inCellArray s.cfg a)
      (eq : t = memWrite a v { s with host := rest })

theorem hostAct_idleStep {s t : State} {op : HostOp} {rest : List HostOp} (hs : s.host = op :: rest)
    (h : hostAct op { s with host := rest } = .next t) : IdleStep s t := by
  cases op with
  | store a =>
    cases h
    exact .stores a _ rest (.inl hs) rfl
  | write a v =>
    cases h
    by_cases ha : inCellArray s.cfg a
    · rw [hostWrite_inside (by exact ha)]
      exact .quiet rfl (.inl rfl)
    · exact .stores a v rest (.inr ⟨hs, ha⟩) (hostWrite_outside (by exact ha) v)
  | command w => cases h; exact .quiet rfl (.inr rfl)
  | load p => cases h; exact .quiet rfl (.inl rfl)
  | recvWord x => cases h; exact .quiet rfl (.inr rfl)
  | digest x => cases h; exact .quiet rfl (.inr rfl)
  | take x => cases h; exact .quiet rfl (.inl rfl)
  | fold x => cases h; exact .quiet rfl (.inr rfl)
  | addSegment => cases h; exact .quiet rfl (.inl rfl)
  | report => cases h; exact .quiet rfl (.inl rfl)
  | checkCount =>
    cases h
    unfold checkCount
    split <;> exact .quiet rfl (.inl rfl)
  | checkHeader =>
    cases h
    unfold checkHeader
    split <;> exact .quiet rfl (.inl rfl)
  | segment g =>
    obtain ⟨-, ⟨⟩⟩ := of_guard h
    exact .quiet rfl (.inl rfl)
  | copy a n =>
    cases h
    cases n with
    | zero => exact .quiet rfl (.inl rfl)
    | succ n => exact .quiet rfl (.inr rfl)
  | checkData =>
    cases h
    unfold checkData
    split <;> exact .quiet rfl (.inl rfl)
  | halt => cases h; exact .quiet rfl (.inl rfl)

theorem step_idleStep {s t : State} (hc : s.cmd = none) (h : step s = .next t) : IdleStep s t := by
  rw [step_idle hc] at h
  unfold hostTurn at h
  split at h
  · cases h
    exact .quiet rfl (.inl rfl)
  · split at h
    · cases h
      exact .quiet rfl (.inl rfl)
    · next op rest hs => exact hostAct_idleStep hs h

/-- The host changes no register of the block, no UART, no cursor register and not the last response (70_reset R277). -/
theorem IdleStep.registers {s t : State} (h : IdleStep s t) :
    SameCrc s t ∧ SameCon s t ∧ SameCursor s t ∧ SameUarts s t ∧ t.cfg = s.cfg ∧ t.resp = s.resp := by
  cases h with
  | quiet only part =>
    rw [only]
    exact ⟨⟨rfl, rfl⟩, ⟨rfl, rfl, rfl⟩, ⟨rfl, rfl⟩, ⟨rfl, rfl⟩, rfl, rfl⟩
  | stores a v rest op eq =>
    subst eq
    exact ⟨⟨rfl, rfl⟩, ⟨rfl, rfl, rfl⟩, ⟨rfl, rfl⟩, ⟨rfl, rfl⟩, rfl, rfl⟩

theorem IdleStep.grows {s t : State} (h : IdleStep s t) : ∃ es, t.hist = es ++ s.hist := by
  cases h with
  | quiet only part => exact ⟨[], by rw [only]; rfl⟩
  | stores a v rest op eq => exact ⟨[.wr a v], by rw [eq]; rfl⟩

theorem IdleStep.memWf {s t : State} (h : IdleStep s t) (hw : s.mem.wf = true) : t.mem.wf = true := by
  cases h with
  | quiet only part => rw [only]; exact hw
  | stores a v rest op eq => rw [eq]; exact memWrite_wf a v hw

/-- A byte that changed is the one LOAD's copy or the host's own write was for. -/
theorem IdleStep.read {s t : State} (h : IdleStep s t) (b : Addr) :
    t.mem.read b.toNat = s.mem.read b.toNat ∨ (∃ rest, s.host = .store b :: rest) ∨
      (∃ v rest, s.host = .write b v :: rest ∧ ¬ inCellArray s.cfg b) := by
  cases h with
  | quiet only part => exact .inl (by rw [only])
  | stores a v rest op eq =>
    by_cases hb : b = a
    · subst hb
      exact .inr (op.imp (fun hs => ⟨rest, hs⟩) fun hs => ⟨v, rest, hs⟩)
    · exact .inl (by rw [eq]; exact memWrite_read_other v _ hb)

theorem IdleStep.rxPart {s t : State} (h : IdleStep s t) : t.rxPart = s.rxPart ∨ t.rxPart = [] := by
  cases h with
  | quiet only part => exact part
  | stores a v rest op eq => exact .inl (by rw [eq]; rfl)

/-! ### The invariant -/

theorem State.Inv.onScreen {s : State} (h : s.Inv) (hv : s.validCon = true) : OnScreen s :=
  ⟨h.posOnScreen hv, h.cursorTracks hv, h.latchHigh hv⟩

/-- A command leaves the cursor on the position, once the console is initialised (10_state R43). -/
theorem exec_onScreen {i : Instr} {s t : State} (h : s.Inv) (he : exec i s = .next t) (hv : t.validCon = true) :
    OnScreen t := by
  cases hi : i.isCon with
  | true => exact (exec_con_consoleWork h.cfgOk h.memWf hi he).onScreen h.onScreen
  | false =>
    have hk := exec_screenKept h.cfgOk hi he
    exact hk.onScreen (exec_frame he).host.cfg (h.onScreen (hk.con.validCon ▸ hv))

/-- A command leaves DLAB clear on both UARTs (43_serial R174, 70_reset R271). -/
theorem exec_dlabClear {i : Instr} {s t : State} (h : s.Inv) (he : exec i s = .next t) (q : Port) :
    dlabSet t.cfg (t.uart q).lcr = false := by
  rw [(exec_frame he).host.cfg]
  rcases unit_cases s i with hcrc | hcon | ⟨p, hp⟩
  · rw [(exec_crc_keeps hcrc he).2.uart q]
    exact h.dlabClear q
  · rw [(exec_con_consoleWork h.cfgOk h.memWf hcon he).uarts.uart q]
    exact h.dlabClear q
  · obtain ⟨hport, hdlab⟩ := exec_ser_portWork h.cfgOk hp he
    by_cases hq : q = p
    · subst hq
      exact hdlab (h.dlabClear q)
    · rw [hport.other q hq]
      exact h.dlabClear q

/-- Received bytes are held only by a SER.RXW that waits, and fewer than four (10_state R41 b). -/
theorem Ran.rxPart {i : Instr} {s t : State} (hr : Ran i s t) (h : s.Inv) (hc : s.cmd = some (encode i)) :
    t.rxPart.length < 4 ∧ (t.rxPart ≠ [] → ∃ p, t.cmd = some (encode (.serRxw p))) := by
  have hs := h.partShort
  cases hr with
  | answers u st v work eq =>
    subst eq
    exact ⟨Nat.zero_lt_succ 3, fun hne => absurd rfl hne⟩
  | waitsByte p hi work part =>
    rw [part, work.cmd]
    exact ⟨hs, h.partOfWord⟩
  | waitsWord p hi work part =>
    subst hi
    exact ⟨by omega, fun _ => ⟨p, work.cmd.trans hc⟩⟩

theorem exec_keeps_inv {i : Instr} {s t : State} (h : s.Inv) (hc : s.cmd = some (encode i)) (he : exec i s = .next t) :
    t.Inv := by
  have hf := exec_frame he
  have hs := exec_onScreen h he
  obtain ⟨hshort, hword⟩ := (exec_ran he).rxPart h hc
  exact {
    cfgOk := hf.host.cfg ▸ h.cfgOk
    memWf := hf.memWf h.memWf
    posOnScreen := fun hv => (hs hv).pos
    cursorTracks := fun hv => (hs hv).cursor.cursorLoc
    latchHigh := fun hv => (hs hv).cursor.crtcIndex
    dlabClear := exec_dlabClear h he
    partShort := hshort
    partOfWord := hword }

/-- An error answer keeps the invariant: it changes nothing the invariant speaks of but the command in progress
(60_exceptions R235). -/
theorem raise_keeps_inv {s : State} (h : s.Inv) (st : Status) (v : Word) : (s.raise st v).Inv where
  cfgOk := h.cfgOk
  memWf := h.memWf
  posOnScreen := h.posOnScreen
  cursorTracks := h.cursorTracks
  latchHigh := h.latchHigh
  dlabClear p := by rw [State.raise_uart]; exact h.dlabClear p
  partShort := Nat.zero_lt_succ 3
  partOfWord hne := absurd rfl hne

theorem IdleStep.keeps_inv {s t : State} (hi : IdleStep s t) (h : s.Inv) (hc : s.cmd = none) : t.Inv := by
  obtain ⟨-, hcon, hcur, hu, hcfg, -⟩ := hi.registers
  have hpart : s.rxPart = [] := by
    by_contra hne
    obtain ⟨p, hp⟩ := h.partOfWord hne
    rw [hc] at hp
    cases hp
  have hpart' : t.rxPart = [] := hi.rxPart.elim (fun he => he.trans hpart) id
  exact {
    cfgOk := hcfg ▸ h.cfgOk
    memWf := hi.memWf h.memWf
    posOnScreen := by rw [hcon.validCon, hcon.pos]; exact h.posOnScreen
    cursorTracks := by rw [hcon.validCon, hcon.pos, hcur.cursorLoc]; exact h.cursorTracks
    latchHigh := by rw [hcon.validCon, hcur.crtcIndex, hcfg]; exact h.latchHigh
    dlabClear := fun p => by rw [hcfg, hu.uart p]; exact h.dlabClear p
    partShort := by rw [hpart']; exact Nat.zero_lt_succ 3
    partOfWord := fun hne => absurd hpart' hne }

/-- Settles O10: a step is a command, the answer to a word that is none, or the host's, and each keeps the invariant. -/
theorem stepKeepsInvariant : Obligations.StepKeepsInvariant := by
  intro s t h hstep
  cases hc : s.cmd with
  | none => exact (step_idleStep hc hstep).keeps_inv h hc
  | some w =>
    rcases step_command_cases hc hstep with ⟨i, rfl, he⟩ | rfl
    · exact exec_keeps_inv h hc he
    · exact raise_keeps_inv h _ _

/-- Settles O9: power-on is one of the small states whose invariant the tests' lemma gives. -/
theorem resetMeetsInvariant : Obligations.ResetMeetsInvariant := Tests.inv_of_reset_like none false 0

/-! ### The validity marks -/

/-- A step makes a mark true only as the unit's reset, and never makes one false (10_state R27). -/
theorem step_marks {s t : State} (h : step s = .next t) :
    (t.validCrc = s.validCrc ∨ s.cmd = some (encode .crcReset) ∧ t.validCrc = true) ∧
      (t.validCon = s.validCon ∨ s.cmd = some (encode .conClear) ∧ t.validCon = true) := by
  cases hc : s.cmd with
  | none =>
    obtain ⟨hcrc, hcon, -⟩ := (step_idleStep hc h).registers
    exact ⟨.inl hcrc.validCrc, .inl hcon.validCon⟩
  | some w =>
    rcases step_command_cases hc h with ⟨i, rfl, he⟩ | rfl
    · have hf := exec_frame he
      exact ⟨hf.validCrc.imp_right fun ⟨hi, hv⟩ => ⟨by rw [hi], hv⟩,
        hf.validCon.imp_right fun ⟨hi, hv⟩ => ⟨by rw [hi], hv⟩⟩
    · exact ⟨.inl rfl, .inl rfl⟩

/-- The CRC commands that read the accumulator are a fault while its mark is false (10_state R27). -/
theorem exec_crc_useBeforeInit {s : State} (a b : Word) (h : s.validCrc = false) :
    exec (.crcByte a) s = .fault .useBeforeInit ∧ exec (.crcWord a) s = .fault .useBeforeInit ∧
      exec (.crcBuf a b) s = .fault .useBeforeInit ∧ exec .crcFinal s = .fault .useBeforeInit := by
  have hn : ¬ s.validCrc = true := by simp [h]
  exact ⟨if_neg hn, if_neg hn, if_neg hn, if_neg hn⟩

/-- The CON commands that read POS or ATTR are a fault while their mark is false (10_state R27). -/
theorem exec_con_useBeforeInit {s : State} (a : Word) (h : s.validCon = false) :
    exec (.conSetpos a) s = .fault .useBeforeInit ∧ exec (.conFg a) s = .fault .useBeforeInit ∧
      exec (.conBg a) s = .fault .useBeforeInit ∧ exec (.conPutc a) s = .fault .useBeforeInit := by
  have hn : ¬ s.validCon = true := by simp [h]
  exact ⟨if_neg hn, if_neg hn, if_neg hn, if_neg hn⟩

/-- Settles O11, from what a step does to the marks. -/
theorem validityMarksFollowTheUnitResets : Obligations.ValidityMarksFollowTheUnitResets := by
  refine ⟨⟨rfl, rfl⟩, fun s t h => ?_, fun s t h => ?_, fun s t h => ?_, fun s a b => exec_crc_useBeforeInit a b,
    fun s a => exec_con_useBeforeInit a⟩
  · obtain ⟨hcrc, hcon⟩ := step_marks h
    refine ⟨fun hv => ?_, fun hv => ?_, fun hv hv' => ?_, fun hv hv' => ?_⟩
    · exact hcrc.elim (fun he => he.trans hv) And.right
    · exact hcon.elim (fun he => he.trans hv) And.right
    · exact hcrc.elim (fun he => by simp [he, hv] at hv') And.left
    · exact hcon.elim (fun he => by simp [he, hv] at hv') And.left
  · rw [← Host.Outcome.next.inj h]
    rfl
  · rw [← Host.Outcome.next.inj h, State.respond_validCon]
    exact (kept_clearScreen s).validCon

/-! ### The history and the response -/

/-- Settles O12: a command keeps the build and the history within its frame, and so does the host. -/
theorem buildIsFixedAndHistoryOnlyGrows : Obligations.BuildIsFixedAndHistoryOnlyGrows := by
  intro s t h
  cases hc : s.cmd with
  | none =>
    have hi := step_idleStep hc h
    obtain ⟨-, -, -, -, hcfg, -⟩ := hi.registers
    exact ⟨hcfg, hi.grows⟩
  | some w =>
    rcases step_command_cases hc h with ⟨i, rfl, he⟩ | rfl
    · exact ⟨(exec_frame he).host.cfg, (exec_frame he).grows⟩
    · exact ⟨rfl, [.resp ⟨.illegal, 0⟩], rfl⟩

/-- A command in progress stays so without a response, or ends with a response in front of the history (30_encoding R82). -/
theorem Ran.goes_on_or_ends {i : Instr} {s t : State} (h : Ran i s t) :
    (t.cmd = s.cmd ∧ t.resp = s.resp) ∨
      (t.cmd = none ∧ t.rxPart = [] ∧ ∃ r es, t.resp = some r ∧ t.hist = .resp r :: (es ++ s.hist)) := by
  cases h with
  | answers u st v work eq =>
    obtain ⟨es, hes⟩ := work.frame.grows
    subst eq
    exact .inr ⟨rfl, rfl, ⟨st, v⟩, es, rfl, by rw [State.respond_hist, hes]⟩
  | waitsByte p hi work part => exact .inl ⟨work.cmd, work.resp⟩
  | waitsWord p hi work part => exact .inl ⟨work.cmd, work.resp⟩

/-- Settles O13: the host's state is in every command's frame, and a command's step goes on or ends. -/
theorem hostWaitsForTheResponse : Obligations.HostWaitsForTheResponse := by
  intro s t w hc h
  rcases step_command_cases hc h with ⟨i, rfl, he⟩ | rfl
  · have hh := (exec_frame he).host
    have hends := (exec_ran he).goes_on_or_ends
    rw [hc] at hends
    exact ⟨hh.host, hh.loader, hh.load, hh.halted, hends⟩
  · exact ⟨rfl, rfl, rfl, rfl, .inr ⟨rfl, rfl, _, [], rfl, rfl⟩⟩

/-! ### The frame of each unit and of the host -/

/-- The host's own write outside the cell array stores its byte with one bus event and does nothing else (20_memory R54). -/
theorem step_write_outside {s : State} {a : Addr} {v : Byte} {rest : List HostOp} (hc : s.cmd = none)
    (hh : s.halted = false) (hs : s.host = .write a v :: rest) (ha : ¬ inCellArray s.cfg a) :
    step s = .next (memWrite a v { s with host := rest }) := by
  rw [step_idle hc, hostTurn_act hh hs]
  exact congrArg _ (hostWrite_outside (by exact ha) v)

/-- The host's own write to the cell array does nothing (70_reset R277, log 25). -/
theorem step_write_inside {s : State} {a : Addr} {v : Byte} {rest : List HostOp} (hc : s.cmd = none)
    (hh : s.halted = false) (hs : s.host = .write a v :: rest) (ha : inCellArray s.cfg a) :
    step s = .next { s with host := rest } := by
  rw [step_idle hc, hostTurn_act hh hs]
  exact congrArg _ (hostWrite_inside (by exact ha) v)

/-- Settles O14: the frame of each unit's commands, of an idle step, and of the host's own write. -/
theorem commandsWriteOnlyTheirUnit : Obligations.CommandsWriteOnlyTheirUnit := by
  refine ⟨fun i s t hok hw he => ?_, fun s t hc h => ?_, fun s a v rest hc hh hw hs => ?_⟩
  · have hf := exec_frame he
    refine ⟨fun hi => ?_, fun hi => ?_, fun hfold hreset => ⟨hf.acc hfold hreset, ?_⟩,
      fun hi => (exec_crc_keeps hi he).2, hf.host⟩
    · have hk := exec_screenKept hok hi he
      exact ⟨hk.con, hk.cursor, hk.sameMemory⟩
    · have hk := exec_con_consoleWork hok hw hi he
      exact ⟨hk.uarts, fun _ => hk.outside⟩
    · exact hf.validCrc.resolve_right fun hr => hreset hr.1
  · have hi := step_idleStep hc h
    obtain ⟨hcrc, hcon, hcur, hu, hcfg, hresp⟩ := hi.registers
    exact ⟨hcrc, hcon, hcur, hu, hcfg, hresp, hi.read⟩
  · refine ⟨fun ha => ⟨_, step_write_outside hc hh hs ha, ?_, ?_, ?_, rfl⟩, step_write_inside hc hh hs⟩
    · exact memWrite_read_same a v (by exact hw)
    · exact fun b hb => memWrite_read_other v _ hb
    · exact State.busEvents_emit _ _ (by simp)

/-! ### The delivered command -/

/-- Settles O7: the step's two branches, and the host's action `command`. -/
theorem stepRunsDeliveredCommand : Obligations.StepRunsDeliveredCommand := by
  refine ⟨fun s w i hc hd => ?_, fun s w rest hc hh hs => ?_⟩
  · rw [step_command hc, runCommand_ok hd]
  · rw [step_idle hc, hostTurn_act hh hs]
    rfl

/-! ### The background colour in the video hardware's view -/

/-- A background colour leaves the foreground as it is (10_state R34). -/
theorem videoForeground_setBackground (attr colour : Byte) :
    videoForeground (setBackground attr colour) = videoForeground attr := by
  ext i hi
  interval_cases i <;> simp [videoForeground, setBackground]

theorem videoBackground_setBackground (attr : Byte) (a : Word) :
    (videoBackground (setBackground attr (colourOperand a))).toNat = a.toNat % 8 := by
  have : videoBackground (setBackground attr (colourOperand a)) = a.extractLsb' 0 3 := by
    ext i hi
    interval_cases i <;> simp [videoBackground, setBackground, colourOperand]
  rw [this]
  simp

theorem videoBlink_setBackground (attr : Byte) (a : Word) :
    videoBlink (setBackground attr (colourOperand a)) = a.getLsbD 3 := by
  simp [videoBlink, setBackground, colourOperand]

theorem colour_bit3 {a : Word} (h : a.toNat < 16) : a.getLsbD 3 = true ↔ 8 ≤ a.toNat := by
  simp [BitVec.getLsbD, Nat.testBit_eq_decide_div_mod_eq]
  omega

/-- Settles O31: the high nibble of ATTR is the colour, cut into background and blink. -/
theorem backgroundColourAsTheVideoHardwareReadsIt : Obligations.BackgroundColourAsTheVideoHardwareReadsIt := by
  intro s t a ha he
  obtain ⟨-, ⟨⟩⟩ := of_guard he
  rw [State.respond_attr, videoBackground_setBackground, videoBlink_setBackground, videoForeground_setBackground]
  exact ⟨rfl, colour_bit3 ha, rfl⟩

end Sys2Proof.Machine
end

section
/-! SUPPORT. The words that cross from the SER unit to the CRC unit (20_memory R58): what a cut gives back of the bytes that
an assembly joined, in the same order and in the other one (30_encoding R93). -/

namespace Sys2Proof.Machine

/-- Byte `k` is what is left lowest when the `k` bytes below it are dropped. -/
theorem cutWord_le_append (b0 b1 b2 b3 : Byte) : cutWord .le (b3 ++ b2 ++ b1 ++ b0) = [b0, b1, b2, b3] := by
  have byte0 : byteOf 0 (b3 ++ b2 ++ b1 ++ b0) = b0 := BitVec.extractLsb'_append_eq_right
  have byte1 : byteOf 1 (b3 ++ b2 ++ b1 ++ b0) = b1 := by
    rw [byteOf, BitVec.extractLsb'_append_eq_of_le (by decide), BitVec.extractLsb'_append_eq_right]
  have byte2 : byteOf 2 (b3 ++ b2 ++ b1 ++ b0) = b2 := by
    rw [byteOf, BitVec.extractLsb'_append_eq_of_le (by decide), BitVec.extractLsb'_append_eq_of_le (by decide),
      BitVec.extractLsb'_append_eq_right]
  have byte3 : byteOf 3 (b3 ++ b2 ++ b1 ++ b0) = b3 := by
    rw [byteOf, BitVec.extractLsb'_append_eq_of_le (by decide), BitVec.extractLsb'_append_eq_of_le (by decide),
      BitVec.extractLsb'_append_eq_left]
  rw [cutWord, byte0, byte1, byte2, byte3]

theorem cutWord_of_ne {o o' : ByteOrder} (h : o ≠ o') (w : Word) : cutWord o' w = (cutWord o w).reverse := by
  cases o <;> cases o'
  case le.be | be.le => rfl
  case le.le | be.be => exact absurd rfl h

/-- A cut undoes an assembly in the same order. -/
theorem cutWord_assembleWord (o : ByteOrder) (b0 b1 b2 b3 : Byte) :
    cutWord o (assembleWord o [b0, b1, b2, b3]) = [b0, b1, b2, b3] := by
  cases o with
  | le => exact cutWord_le_append b0 b1 b2 b3
  | be => exact congrArg List.reverse (cutWord_le_append b3 b2 b1 b0)

/-- Settles O50: the cut in the order of the assembly undoes it, and the cut in the other order is the reverse of that. -/
theorem receivedWordsFoldInLineOrder : Obligations.ReceivedWordsFoldInLineOrder := by
  intro acc ser crc b0 b1 b2 b3
  by_cases h : ser = crc
  · rw [if_pos h, ← h, cutWord_assembleWord]
  · have reversed : [b0, b1, b2, b3].reverse = [b3, b2, b1, b0] := rfl
    rw [if_neg h, cutWord_of_ne h, cutWord_assembleWord, reversed]

end Sys2Proof.Machine
end

section
/-! SUPPORT. The statements about the encoding. First that the decoder reads an encoded command back unless a reserved bit is
set, then the opcode table written by fields, and which words select a row of it. The statements are read off these. -/

namespace Sys2Proof.Machine

/-! ### The decoder on encoded commands -/

/-- The decoder finds the fields the encoder wrote, so what is left to decide is the reserved bits of `a` (30_encoding R81). -/
theorem decode_encode (i : Instr) : decode (encode i) = unreserved i.wf i := by
  cases i <;> simp [encode, decode, Instr.wf, opField_commandWord, aField_commandWord, bField_commandWord,
    portBitsOk_portField, portOf_portField]

/-- The words the decoder accepts are the encodings of the well-formed commands. -/
theorem decode_eq_ok_iff {w : Command} {i : Instr} : decode w = .ok i ↔ i.wf = true ∧ encode i = w := by
  constructor
  · intro h
    have hw : encode i = w := encode_of_decode h
    rw [← hw, decode_encode] at h
    obtain ⟨hwf, -⟩ := unreserved_eq_ok.mp h
    exact ⟨hwf, hw⟩
  · rintro ⟨hwf, rfl⟩
    rw [decode_encode, unreserved_eq_ok]
    exact ⟨hwf, rfl⟩

/-- Settles O1: a well-formed command has no reserved bit set for the decoder to refuse. -/
theorem decodeEncodeGivesBackWellFormed : Obligations.DecodeEncodeGivesBackWellFormed :=
  fun _ hwf => decode_eq_ok_iff.mpr ⟨hwf, rfl⟩

/-- Settles O2: the decoder refuses an encoding exactly for the reserved bits. -/
theorem illFormedCommandsEncodeToRefusedWords : Obligations.IllFormedCommandsEncodeToRefusedWords := by
  intro i hwf
  rw [decode_encode, hwf]
  rfl

/-- Settles O3: the accepted words are the encodings of the well-formed commands. -/
theorem decodedCommandsAreWellFormedAndReencode : Obligations.DecodedCommandsAreWellFormedAndReencode :=
  fun _ _ => decode_eq_ok_iff.mp

/-- Settles O5: each of the six words is the encoding of its command. -/
theorem specWordsDecode : Obligations.SpecWordsDecode :=
  ⟨decode_eq_ok_iff.mpr ⟨rfl, rfl⟩, decode_eq_ok_iff.mpr ⟨rfl, rfl⟩, decode_eq_ok_iff.mpr ⟨rfl, rfl⟩,
    decode_eq_ok_iff.mpr ⟨rfl, rfl⟩, decode_eq_ok_iff.mpr ⟨rfl, rfl⟩, decode_eq_ok_iff.mpr ⟨rfl, rfl⟩⟩

/-! ### The placed word -/

/-- A command word is its own 72 bits, with none above them. -/
theorem tableWord_toNat (w : Command) : tableWord 72 w.toNat = some w := by
  simp [tableWord, Nat.mod_eq_of_lt w.isLt, w.isLt]

/-- Settles O8: the placed word is the encoding, and a step runs the command it decodes to. -/
theorem placedWordRunsNext : Obligations.PlacedWordRunsNext := by
  intro s i hwf
  have placed : s.withFetchWord 72 (encode i).toNat = { s with cmd := some (encode i), rxPart := [] } := by
    rw [State.withFetchWord, placeWord, tableWord_toNat]
  rw [placed, step_command rfl, runCommand_ok (decode_eq_ok_iff.mpr ⟨hwf, rfl⟩)]

/-! ### The opcode table by fields -/

/-- A row from its opcode and the reserved bits of its two operands: the mask keeps the opcode and the reserved bits, which
must be zero (30_encoding R81, R84). -/
def fieldRow (mnemonic : String) (op : Byte) (aReserved bReserved : Word) : OpcodeRow :=
  ⟨mnemonic, commandWord 0xFF aReserved bReserved, commandWord op 0 0⟩

theorem opcodeTable_eq_fieldRows : opcodeTable = [
    fieldRow "CRC.RESET" 0x10 0xFFFFFFFF 0xFFFFFFFF, fieldRow "CRC.BYTE" 0x11 0xFFFFFF00 0xFFFFFFFF,
    fieldRow "CRC.WORD" 0x12 0 0xFFFFFFFF, fieldRow "CRC.BUF" 0x13 0 0,
    fieldRow "CRC.FINAL" 0x14 0xFFFFFFFF 0xFFFFFFFF, fieldRow "CON.CLEAR" 0x20 0xFFFFFFFF 0xFFFFFFFF,
    fieldRow "CON.SETPOS" 0x21 0 0xFFFFFFFF, fieldRow "CON.FG" 0x22 0xFFFFFFF0 0xFFFFFFFF,
    fieldRow "CON.BG" 0x23 0xFFFFFFF0 0xFFFFFFFF, fieldRow "CON.PUTC" 0x24 0 0xFFFFFFFF,
    fieldRow "SER.RESET" 0x30 0xFFFFFFFF 0xFFFFFFFE, fieldRow "SER.BAUD" 0x31 0 0xFFFFFFFE,
    fieldRow "SER.RXB" 0x32 0xFFFFFFFF 0xFFFFFFFE, fieldRow "SER.RXW" 0x33 0xFFFFFFFF 0xFFFFFFFE] := rfl

/-- A word selects a row when it has the row's opcode and no reserved bit of an operand is set. -/
theorem selects_fieldRow_iff (w : Command) (m : String) (op : Byte) (ra rb : Word) :
    w &&& (fieldRow m op ra rb).mask = (fieldRow m op ra rb).pattern ↔
      opField w = op ∧ aField w &&& ra = 0 ∧ bField w &&& rb = 0 := by
  have opMask : (0xFF : Byte) = BitVec.allOnes 8 := rfl
  conv_lhs => rw [fieldRow, ← commandWord_fields w, commandWord_and, commandWord_inj]
  rw [opMask, BitVec.and_allOnes]

theorem allReserved_iff (a : Word) : a &&& 0xFFFFFFFF = 0 ↔ a = 0 := by
  have ones : (0xFFFFFFFF : Word) = BitVec.allOnes 32 := rfl
  rw [ones, BitVec.and_allOnes]

theorem byteReserved_iff (a : Word) : a &&& 0xFFFFFF00 = 0 ↔ a.toNat < 256 := and_not_low_eq_zero (k := 8) (by decide)

theorem nibbleReserved_iff (a : Word) : a &&& 0xFFFFFFF0 = 0 ↔ a.toNat < 16 := and_not_low_eq_zero (k := 4) (by decide)

theorem portReserved_iff (b : Word) : b &&& 0xFFFFFFFE = 0 ↔ portBitsOk b = true := by
  rw [and_not_low_eq_zero (k := 1) (by decide), portBitsOk, decide_eq_true_iff, pow_one]

/-- A command's word is known by its fields. -/
theorem commandWord_eq {w : Command} {op : Byte} {a b : Word} (hop : opField w = op) (ha : aField w = a)
    (hb : bField w = b) : commandWord op a b = w := by
  rw [← hop, ← ha, ← hb, commandWord_fields]

/-- A word that selects a row encodes a well-formed command of that row, the one whose operands are the word's fields. -/
theorem exists_encode_of_selects (w : Command) : ∀ r ∈ opcodeTable, w &&& r.mask = r.pattern →
    ∃ i : Instr, i.mnemonic = r.mnemonic ∧ i.wf = true ∧ encode i = w := by
  rw [opcodeTable_eq_fieldRows]
  simp only [List.forall_mem_cons, selects_fieldRow_iff, allReserved_iff, byteReserved_iff, nibbleReserved_iff,
    portReserved_iff]
  refine ⟨?_, ?_, ?_, ?_, ?_, ?_, ?_, ?_, ?_, ?_, ?_, ?_, ?_, ?_, List.forall_mem_nil _⟩ <;> rintro ⟨hop, ha, hb⟩
  · exact ⟨.crcReset, rfl, rfl, commandWord_eq hop ha hb⟩
  · exact ⟨.crcByte (aField w), rfl, decide_eq_true ha, commandWord_eq hop rfl hb⟩
  · exact ⟨.crcWord (aField w), rfl, rfl, commandWord_eq hop rfl hb⟩
  · exact ⟨.crcBuf (aField w) (bField w), rfl, rfl, commandWord_eq hop rfl rfl⟩
  · exact ⟨.crcFinal, rfl, rfl, commandWord_eq hop ha hb⟩
  · exact ⟨.conClear, rfl, rfl, commandWord_eq hop ha hb⟩
  · exact ⟨.conSetpos (aField w), rfl, rfl, commandWord_eq hop rfl hb⟩
  · exact ⟨.conFg (aField w), rfl, decide_eq_true ha, commandWord_eq hop rfl hb⟩
  · exact ⟨.conBg (aField w), rfl, decide_eq_true ha, commandWord_eq hop rfl hb⟩
  · exact ⟨.conPutc (aField w), rfl, rfl, commandWord_eq hop rfl hb⟩
  · exact ⟨.serReset (portOf (bField w)), rfl, rfl, commandWord_eq hop ha (portField_portOf hb).symm⟩
  · exact ⟨.serBaud (aField w) (portOf (bField w)), rfl, rfl, commandWord_eq hop rfl (portField_portOf hb).symm⟩
  · exact ⟨.serRxb (portOf (bField w)), rfl, rfl, commandWord_eq hop ha (portField_portOf hb).symm⟩
  · exact ⟨.serRxw (portOf (bField w)), rfl, rfl, commandWord_eq hop ha (portField_portOf hb).symm⟩

/-- The encoding of a well-formed command selects the row with the command's mnemonic. -/
theorem exists_row_of_wf {i : Instr} (hwf : i.wf = true) :
    ∃ r ∈ opcodeTable, r.mnemonic = i.mnemonic ∧ encode i &&& r.mask = r.pattern := by
  rw [opcodeTable_eq_fieldRows]
  simp only [List.exists_mem_cons_iff, selects_fieldRow_iff, allReserved_iff, byteReserved_iff, nibbleReserved_iff,
    portReserved_iff]
  revert hwf
  cases i <;> simp [fieldRow, Instr.mnemonic, encode, opField_commandWord, aField_commandWord, bField_commandWord,
    portBitsOk_portField, Instr.wf]

/-- A row is known by its mnemonic. -/
theorem row_eq_of_mnemonic_eq {r r' : OpcodeRow} (hr : r ∈ opcodeTable) (hr' : r' ∈ opcodeTable)
    (h : r.mnemonic = r'.mnemonic) : r = r' :=
  List.inj_on_of_nodup_map (by decide : (opcodeTable.map OpcodeRow.mnemonic).Nodup) hr hr' h

theorem selects_iff_decode {w : Command} {r : OpcodeRow} (hr : r ∈ opcodeTable) :
    w &&& r.mask = r.pattern ↔ ∃ i, decode w = .ok i ∧ i.mnemonic = r.mnemonic := by
  constructor
  · intro h
    obtain ⟨i, hm, hwf, hw⟩ := exists_encode_of_selects w r hr h
    exact ⟨i, decode_eq_ok_iff.mpr ⟨hwf, hw⟩, hm⟩
  · rintro ⟨i, hd, hm⟩
    obtain ⟨hwf, rfl⟩ := decode_eq_ok_iff.mp hd
    obtain ⟨r', hr', hm', h⟩ := exists_row_of_wf hwf
    rwa [row_eq_of_mnemonic_eq hr hr' (hm.symm.trans hm'.symm)]

/-- Settles O4: selecting a row is decoding to its command, and a word that selects two rows would decode to two commands. -/
theorem decodeFollowsOpcodeTable : Obligations.DecodeFollowsOpcodeTable := by
  refine ⟨fun _ _ => selects_iff_decode, fun w r hr r' hr' h h' => ?_⟩
  obtain ⟨i, hd, hm⟩ := (selects_iff_decode hr).mp h
  obtain ⟨i', hd', hm'⟩ := (selects_iff_decode hr').mp h'
  obtain rfl : i = i' := Except.ok.inj (hd.symm.trans hd')
  exact row_eq_of_mnemonic_eq hr hr' (hm.symm.trans hm')

/-- Settles O6: a word that decoded to a command would select that command's row. -/
theorem unselectedWordsAnswerIllegal : Obligations.UnselectedWordsAnswerIllegal := by
  intro s w hc hno
  rw [step_command hc]
  cases hd : decode w with
  | error e => rw [runCommand_error hd]; rfl
  | ok i =>
    obtain ⟨hwf, rfl⟩ := decode_eq_ok_iff.mp hd
    obtain ⟨r, hr, -, h⟩ := exists_row_of_wf hwf
    exact absurd h (hno r hr)

end Sys2Proof.Machine
end

section
/-! SUPPORT. The statements about the CRC unit. First the arithmetic: one shift is linear over exclusive-or and injective, so
every number of shifts is, and eight shifts look at the low byte only. Then what the commands of the unit do, one at a time
and in sequence. The statements are read off these. -/

namespace Sys2Proof.Machine

/-! ### Shifts -/

/-- A shift, with its test only in what is added. -/
theorem crcShift_eq (t : Word) : crcShift t = (t >>> 1) ^^^ (if t.getLsbD 0 then Config.crcPoly else 0) := by
  unfold crcShift
  split <;> simp

theorem crcShift_of_even {t : Word} (h : t.getLsbD 0 = false) : crcShift t = t >>> 1 := by
  rw [crcShift, h]
  rfl

/-- The polynomial has bit 31, and nothing is shifted there: the tested bit is not lost (41_crc32 R130). -/
theorem crcShift_top (t : Word) : (crcShift t).getLsbD 31 = t.getLsbD 0 := by
  rw [crcShift_eq, BitVec.getLsbD_xor]
  cases t.getLsbD 0 <;> simp

/-- The bit tested in `x ^^^ y` is the exclusive-or of the bits tested in `x` and in `y`. -/
theorem crcShift_xor (x y : Word) : crcShift (x ^^^ y) = crcShift x ^^^ crcShift y := by
  have added_xor (a b : Bool) : (if a ^^ b then Config.crcPoly else 0) =
      (if a then Config.crcPoly else 0) ^^^ (if b then Config.crcPoly else 0) := by
    cases a <;> cases b <;> rfl
  rw [crcShift_eq, crcShift_eq, crcShift_eq, BitVec.getLsbD_xor, BitVec.ushiftRight_xor_distrib, added_xor]
  ac_rfl

theorem eq_zero_of_crcShift_eq_zero {t : Word} (h : crcShift t = 0) : t = 0 := by
  have even : t.getLsbD 0 = false := by rw [← crcShift_top, h]; rfl
  rw [crcShift_of_even even] at h
  apply BitVec.eq_of_getLsbD_eq
  intro i hi
  cases i with
  | zero => exact even
  | succ i => simpa [Nat.add_comm] using congrArg (·.getLsbD i) h

theorem crcShift_injective : Function.Injective crcShift := by
  intro x y h
  have difference : crcShift (x ^^^ y) = 0 := by rw [crcShift_xor, h, BitVec.xor_self]; rfl
  exact BitVec.xor_eq_zero_iff.mp (eq_zero_of_crcShift_eq_zero difference)

theorem iterate_crcShift_xor (n : Nat) (x y : Word) : crcShift^[n] (x ^^^ y) = crcShift^[n] x ^^^ crcShift^[n] y := by
  induction n with
  | zero => rfl
  | succ n ih => simp only [Function.iterate_succ_apply', ih, crcShift_xor]

/-- While the bits they test are 0, shifts are plain. -/
theorem iterate_crcShift_of_low_zero {n : Nat} {t : Word} (h : ∀ i < n, t.getLsbD i = false) :
    crcShift^[n] t = t >>> n := by
  induction n with
  | zero => simp
  | succ n ih =>
    have even : (t >>> n).getLsbD 0 = false := by simpa using h n (Nat.lt_succ_self n)
    rw [Function.iterate_succ_apply', ih fun i hi => h i (Nat.lt_succ_of_lt hi), crcShift_of_even even,
      BitVec.shiftRight_add]

/-! ### A word cut into its low byte and the rest -/

theorem low_xor_rest (w : Word) : (w.extractLsb' 0 8).setWidth 32 ^^^ ((w >>> 8) <<< 8) = w := by
  apply BitVec.eq_of_getLsbD_eq
  intro i hi
  by_cases h : i < 8
  · simp [h, hi]
  · simp [h, hi, Nat.add_sub_cancel' (Nat.le_of_not_lt h)]

theorem rest_down (w : Word) : (w >>> 8) <<< 8 >>> 8 = w >>> 8 := by
  apply BitVec.eq_of_getLsbD_eq
  intro i hi
  simp only [BitVec.getLsbD_ushiftRight, BitVec.getLsbD_shiftLeft]
  by_cases h : 8 + i < 32
  · simp [h]
  · simp [h, BitVec.getLsbD_of_ge w (8 + i) (Nat.le_of_not_lt h)]

theorem byteOf_eq_low (k : Nat) (w : Word) : byteOf k w = (w >>> (8 * k)).extractLsb' 0 8 := by
  apply BitVec.eq_of_getLsbD_eq
  intro i hi
  simp [byteOf, hi]

/-! ### The byte step and the fold -/

/-- The byte step is eight shifts (41_crc32 R121). -/
theorem crcStep_eq_iterate (acc : Word) (b : Byte) : crcStep acc b = crcShift^[8] (acc ^^^ b.setWidth 32) := rfl

/-- Eight shifts fold the low byte of a word and only move its other bytes down. -/
theorem iterate_crcShift_eight (acc w : Word) :
    crcShift^[8] (acc ^^^ w) = crcStep acc (w.extractLsb' 0 8) ^^^ (w >>> 8) := by
  have rest : crcShift^[8] ((w >>> 8) <<< 8) = w >>> 8 := by
    rw [iterate_crcShift_of_low_zero fun i hi => by simp [hi], rest_down]
  calc crcShift^[8] (acc ^^^ w)
      = crcShift^[8] ((acc ^^^ (w.extractLsb' 0 8).setWidth 32) ^^^ ((w >>> 8) <<< 8)) := by
        rw [BitVec.xor_assoc, low_xor_rest]
    _ = crcStep acc (w.extractLsb' 0 8) ^^^ (w >>> 8) := by rw [iterate_crcShift_xor, rest, crcStep_eq_iterate]

/-- Folding the `n` low bytes of a word, the lowest first, is `8 * n` shifts with the whole word in. -/
theorem crcFold_lowBytes (acc w : Word) (n : Nat) :
    crcShift^[8 * n] (acc ^^^ w) = crcFold acc ((List.range n).map (byteOf · w)) ^^^ (w >>> (8 * n)) := by
  induction n with
  | zero => simp [crcFold_nil]
  | succ n ih =>
    have shifts : 8 * (n + 1) = 8 + 8 * n := by omega
    rw [shifts, Function.iterate_add_apply, ih, iterate_crcShift_eight, ← byteOf_eq_low, List.range_succ,
      List.map_append, crcFold_append, ← BitVec.shiftRight_add, Nat.add_comm 8]
    rfl

/-- Folding a whole word, bits 7:0 first, is 32 shifts with the word in. -/
theorem crcFold_cutWord_le (acc w : Word) : crcFold acc (cutWord .le w) = crcShift^[32] (acc ^^^ w) := by
  have bytes : cutWord .le w = (List.range 4).map (byteOf · w) := rfl
  rw [bytes, crcFold_lowBytes acc w 4, BitVec.ushiftRight_eq_zero (Nat.le_refl 32), BitVec.xor_zero]

theorem crcStep_xor (i j : Word) (x y : Byte) : crcStep (i ^^^ j) (x ^^^ y) = crcStep i x ^^^ crcStep j y := by
  have regroup : (i ^^^ j) ^^^ (x ^^^ y).setWidth 32 = (i ^^^ x.setWidth 32) ^^^ (j ^^^ y.setWidth 32) := by
    rw [BitVec.setWidth_xor]
    ac_rfl
  rw [crcStep_eq_iterate, regroup, iterate_crcShift_xor, ← crcStep_eq_iterate, ← crcStep_eq_iterate]

theorem crcStep_injective_acc (b : Byte) : Function.Injective fun acc : Word => crcStep acc b := fun _ _ h =>
  (BitVec.xor_left_inj _).mp (crcShift_injective.iterate 8 h)

theorem crcStep_injective_byte (acc : Word) : Function.Injective fun b : Byte => crcStep acc b := by
  intro b b' h
  have extended : b.setWidth 32 = b'.setWidth 32 := (BitVec.xor_right_inj acc).mp (crcShift_injective.iterate 8 h)
  simpa using congrArg (BitVec.setWidth 8) extended

theorem crcFold_injective_acc (bs : List Byte) : Function.Injective fun acc : Word => crcFold acc bs := by
  induction bs with
  | nil => exact fun _ _ h => h
  | cons b bs ih => exact ih.comp (crcStep_injective_acc b)

/-- Changing one folded byte always changes the accumulator (41_crc32 R131 a). -/
theorem crcFold_ne_of_byte_ne (acc : Word) (before after : List Byte) {b b' : Byte} (h : b ≠ b') :
    crcFold acc (before ++ b :: after) ≠ crcFold acc (before ++ b' :: after) := by
  rw [crcFold_append, crcFold_append, crcFold_cons, crcFold_cons]
  exact fun he => h (crcStep_injective_byte _ (crcFold_injective_acc after he))

/-- Settles O21: the other three bytes of the accumulator are only moved down, and folding a byte into 0 is folding 0 into
the byte. -/
theorem crcStepTableForm : Obligations.CrcStepTableForm := by
  refine ⟨fun acc b => ?_, by decide +kernel⟩
  have byteOut : (acc ^^^ b.setWidth 32) >>> 8 = acc >>> 8 := by
    apply BitVec.eq_of_getLsbD_eq
    intro i hi
    simp
  have table (c : Byte) : crcStep 0#32 c = crcStep (c.setWidth 32) 0 := by
    rw [crcStep_eq_iterate, crcStep_eq_iterate, BitVec.xor_comm]
    rfl
  calc crcStep acc b
      = crcShift^[8] (0#32 ^^^ (acc ^^^ b.setWidth 32)) := by rw [BitVec.zero_xor, crcStep_eq_iterate]
    _ = (acc >>> 8) ^^^ crcStep (((acc ^^^ b.setWidth 32).extractLsb' 0 8).setWidth 32) 0 := by
        rw [iterate_crcShift_eight, byteOut, table, BitVec.xor_comm]

/-- Settles O22: an injective map of the 2^32 accumulators to themselves is a bijection. -/
theorem crcStepBijective : Obligations.CrcStepBijective :=
  ⟨fun b => Finite.injective_iff_bijective.mp (crcStep_injective_acc b), crcStep_injective_byte⟩

/-- Settles O23, by induction on the two sequences together. -/
theorem crcFoldAffine : Obligations.CrcFoldAffine := by
  intro i j xs ys h
  induction xs generalizing i j ys with
  | nil =>
    obtain rfl := List.eq_nil_of_length_eq_zero h.symm
    rfl
  | cons x xs ih =>
    cases ys with
    | nil => cases h
    | cons y ys =>
      rw [List.zipWith_cons_cons, crcFold_cons, crcStep_xor, ih _ _ ys (Nat.succ.inj h), crcFold_cons, crcFold_cons]

/-- Settles O24: the accumulator cancels, and 32 shifts of the final exclusive-or are left. -/
theorem crcResidueIsConstant : Obligations.CrcResidueIsConstant := by
  intro acc
  rw [crcFold_cutWord_le, ← BitVec.xor_assoc, BitVec.xor_self, BitVec.zero_xor]
  decide +kernel

/-- Settles O25: a flipped bit makes another byte, and the final exclusive-or keeps what differs. -/
theorem oneFlippedBitChangesDigest : Obligations.OneFlippedBitChangesDigest := by
  intro c before after b k hk he
  have mask : ∀ k < 8, ((1 <<< k : Nat) : Byte) ≠ 0#8 := by decide
  have flipped : b ^^^ (1 <<< k : Nat) ≠ b := fun hb =>
    mask k hk ((BitVec.xor_right_inj b).mp (hb.trans BitVec.xor_zero.symm))
  exact crcFold_ne_of_byte_ne c.crcInit before after flipped ((BitVec.xor_left_inj _).mp he)

/-! ### The commands of the unit -/

theorem exec_crcFinal {s : State} (h : s.validCrc = true) :
    exec .crcFinal s = .next (s.respond .ok (s.acc ^^^ s.cfg.crcXorout)) := if_pos h

theorem exec_crcBuf {s : State} (h : s.validCrc = true) {a b : Word} (hb : a.toNat + b.toNat ≤ 2 ^ 32) :
    exec (.crcBuf a b) s = .next ((crcMemory b.toNat a s).respond .ok 0) := (if_pos h).trans (if_pos hb)

theorem busOnly_readEvents (s : State) (a : Addr) (n : Nat) : BusOnly (readEvents s a n) := by
  intro e he r
  obtain ⟨k, -, rfl⟩ := List.mem_map.mp he
  exact Event.noConfusion

/-- A fold command that completes has folded its bytes (41_crc32 R123 to R125). -/
theorem exec_fold_acc {s t : State} {i : Instr} {bs : List Byte} (hi : foldedBytes s i = some bs)
    (h : exec i s = .next t) : t.acc = crcFold s.acc bs := by
  cases i with
  | crcByte a =>
    obtain ⟨-, ⟨⟩⟩ := of_guard h
    cases hi
    rfl
  | crcWord a =>
    obtain ⟨-, ⟨⟩⟩ := of_guard h
    cases hi
    rfl
  | crcBuf a b =>
    obtain ⟨-, ⟨⟩⟩ := of_guard (of_guard h).2
    cases hi
    rw [crcMemory_eq]
    rfl
  | _ => cases hi

/-- Which bytes a command folds is decided by the build and the memory alone. -/
theorem foldedBytes_congr {s t : State} (hc : t.cfg = s.cfg) (hm : t.mem = s.mem) : foldedBytes t = foldedBytes s := by
  funext i
  cases i <;> simp only [foldedBytes, memBytes, hc, hm]

theorem execAll_cons {i : Instr} {s u : State} (h : exec i s = .next u) (is : List Instr) :
    execAll (i :: is) s = execAll is u := by
  rw [execAll, h]

theorem exists_next_of_execAll_cons {i : Instr} {is : List Instr} {s t : State} (h : execAll (i :: is) s = .next t) :
    ∃ u, exec i s = .next u ∧ execAll is u = .next t := by
  rw [execAll] at h
  split at h
  · next u hu => exact ⟨u, hu, h⟩
  · cases h
  · cases h

/-- Fold commands one after another fold the concatenation of their bytes, and keep the build and the mark (R128). -/
theorem execAll_folds {is : List Instr} {bss : List (List Byte)} {s t : State}
    (h : execAll is s = .next t) (hf : is.map (foldedBytes s) = bss.map some) :
    t.acc = crcFold s.acc bss.flatten ∧ t.cfg = s.cfg ∧ (s.validCrc = true → t.validCrc = true) := by
  induction is generalizing s bss with
  | nil =>
    cases h
    cases bss with
    | nil => exact ⟨rfl, rfl, id⟩
    | cons bs bss => cases hf
  | cons i is ih =>
    cases bss with
    | nil => cases hf
    | cons bs bss =>
      obtain ⟨hi, his⟩ := List.cons.inj hf
      obtain ⟨u, hu, hrest⟩ := exists_next_of_execAll_cons h
      have frame := exec_frame hu
      have mem : u.mem = s.mem := (exec_crc_keeps (.inl (by simp [hi])) hu).1.mem
      obtain ⟨acc, cfg, valid⟩ := ih hrest (by rwa [foldedBytes_congr frame.host.cfg mem])
      refine ⟨?_, cfg.trans frame.host.cfg, fun hv => valid ?_⟩
      · rw [acc, exec_fold_acc hi hu, List.flatten_cons, crcFold_append]
      · exact frame.validCrc.elim (fun he => he.trans hv) And.right

/-- Settles O16: both sides are the same update of the state. -/
theorem crcResetLoadsInit : Obligations.CrcResetLoadsInit := fun _ => rfl

/-- Settles O17: the mark is true. -/
theorem crcByteFoldsOneByte : Obligations.CrcByteFoldsOneByte := fun _ _ h => if_pos h

/-- Settles O18: the four bytes in the two orders. -/
theorem crcWordFoldsFourBytes : Obligations.CrcWordFoldsFourBytes := by
  intro s a h
  refine (if_pos h).trans ?_
  cases s.cfg.crcWordOrder <;> rfl

/-- Settles O19: the fold of memory is `crcMemory_eq`, and its events are the reads. -/
theorem crcBufFoldsMemory : Obligations.CrcBufFoldsMemory := by
  refine ⟨fun s a b hv hb => ⟨_, exec_crcBuf hv hb, ?_, ?_, ?_⟩, fun s a b hv hb => ?_, fun s t a h => ?_⟩
  · rw [crcMemory_eq]
    rfl
  · exact Events.respond (events_of_hist (busOnly_readEvents s a _) (by rw [crcMemory_eq])) _ _
  · rw [crcMemory_eq]
    rfl
  · exact (if_pos hv).trans (if_neg (Nat.not_le_of_lt hb))
  · obtain ⟨-, ⟨⟩⟩ := of_guard (of_guard h).2
    exact ⟨rfl, by simp [Events, crcMemory]⟩

/-- A CRC.BYTE for each byte and then CRC.FINAL: the digest of a sequence folded on from ACC (41_crc32 R126). -/
theorem execAll_bytes_final (as : List Word) {s : State} (h : s.validCrc = true) :
    ∃ t, execAll (as.map Instr.crcByte ++ [.crcFinal]) s = .next t ∧
      t.resp = some ⟨.ok, crcFold s.acc (as.map byteOperand) ^^^ s.cfg.crcXorout⟩ := by
  induction as generalizing s with
  | nil => exact ⟨_, execAll_cons (exec_crcFinal h) [], rfl⟩
  | cons a as ih =>
    rw [List.map_cons, List.cons_append, execAll_cons (crcByteFoldsOneByte s a h)]
    exact ih h

/-- CRC.RESET, a CRC.BYTE for each byte and CRC.FINAL answer the digest of the bytes (41_crc32 R127). -/
theorem execAll_reset_bytes_final (s : State) (as : List Word) :
    ∃ t, execAll ([.crcReset] ++ as.map Instr.crcByte ++ [.crcFinal]) s = .next t ∧
      t.resp = some ⟨.ok, crc32 s.cfg (as.map byteOperand)⟩ := by
  rw [List.append_assoc, List.singleton_append, execAll_cons (crcResetLoadsInit s)]
  exact execAll_bytes_final as rfl

/-- Settles O20: CRC.FINAL only answers, so its answer is read off the accumulator before it. -/
theorem crcFinalAnswersDigest : Obligations.CrcFinalAnswersDigest := by
  refine ⟨rfl, fun s h => exec_crcFinal h, fun s h => ?_, fun s t h => ?_, fun s => ?_, fun s hinit hxor => ?_⟩
  · obtain ⟨-, -, -, final⟩ := exec_crc_useBeforeInit 0 0 h
    exact final
  · obtain ⟨hv, ⟨⟩⟩ := of_guard h
    exact ⟨rfl, _, exec_crcFinal hv, rfl, rfl⟩
  · obtain ⟨t, ht, hr⟩ := execAll_reset_bytes_final s []
    refine ⟨t, ht, hr, fun hinit hxor => hr.trans ?_⟩
    rw [crc32, hinit, hxor]
    rfl
  · obtain ⟨t, ht, hr⟩ := execAll_reset_bytes_final s [0x31, 0x32, 0x33, 0x34, 0x35, 0x36, 0x37, 0x38, 0x39]
    refine ⟨t, ht, hr.trans ?_⟩
    rw [crc32, hinit, hxor]
    decide +kernel

/-- Settles O26: the fold commands start from CRC_INIT with the mark true, and CRC.FINAL answers what they leave. -/
theorem chunkingEquivalence : Obligations.ChunkingEquivalence := by
  intro s t is bss hf h
  rw [execAll_cons (crcResetLoadsInit s)] at h
  obtain ⟨acc, cfg, valid⟩ := execAll_folds h hf
  refine ⟨acc, _, exec_crcFinal (valid rfl), ?_⟩
  rw [State.respond_resp, acc, cfg]
  rfl

end Sys2Proof.Machine
end

section
/-! SUPPORT. The statements about the CON unit. First the classes of a character and the nibbles of ATTR, then what a
move of the cursor (`CursorMoved`) and a character that advances (`CharPut`) leave, and last a run of printable characters that
stays on the screen (`Typed`). The statements are read off these. -/

namespace Sys2Proof.Machine

/-! ### The classes of a character -/

/-- The machine's tests in their order: what one leaves for the next lies outside the ranges before it (42_console R146). -/
theorem classify_iff_ranges (a : Word) :
    (classify a = .nul ↔ a.toNat = 0x00) ∧ (classify a = .newline ↔ a.toNat = 0x0A) ∧
    (classify a = .printable ↔ 0x20 ≤ a.toNat ∧ a.toNat ≤ 0x7E) ∧ (classify a = .nonAscii ↔ 0x80 ≤ a.toNat) ∧
    (classify a = .ignored ↔ IgnoredChar a) := by
  unfold classify IgnoredChar
  split_ifs <;> simp <;> omega

/-- Settles O37: the classes are the ranges, and a glyph is written in the three ranges that have one. -/
theorem characterClassesAreExclusive : Obligations.CharacterClassesAreExclusive := by
  intro a
  obtain ⟨nul, newline, printable, nonAscii, ignored⟩ := classify_iff_ranges a
  refine ⟨nul, newline, printable, nonAscii, ignored, fun c g => ?_⟩
  rw [nul, printable, nonAscii, WritesGlyph, and_assoc]

/-! ### The two nibbles of ATTR -/

theorem lowNibble_setForeground (attr : Byte) (a : Word) :
    (setForeground attr (colourOperand a)).extractLsb' 0 4 = a.extractLsb' 0 4 := by
  ext i hi
  interval_cases i <;> simp [setForeground, colourOperand]

theorem highNibble_setForeground (attr : Byte) (a : Word) :
    (setForeground attr (colourOperand a)).extractLsb' 4 4 = attr.extractLsb' 4 4 := by
  ext i hi
  interval_cases i <;> simp [setForeground, colourOperand]

theorem highNibble_setBackground (attr : Byte) (a : Word) :
    (setBackground attr (colourOperand a)).extractLsb' 4 4 = a.extractLsb' 0 4 := by
  ext i hi
  interval_cases i <;> simp [setBackground, colourOperand]

/-- Settles O30: the command only answers after its update of ATTR, and each update is of one nibble. -/
theorem coloursReplaceOneNibble : Obligations.ColoursReplaceOneNibble := by
  intro s a hv
  refine ⟨⟨_, if_pos hv, ?_, ?_, rfl⟩, _, if_pos hv, ?_, ?_, rfl⟩
  · exact lowNibble_setForeground s.attr a
  · exact highNibble_setForeground s.attr a
  · exact highNibble_setBackground s.attr a
  · exact videoForeground_setBackground s.attr (colourOperand a)

/-! ### The cursor -/

/-- Settles O27: everything a cursor update does is `cursorUpdate_eq`, and its events are the four writes. -/
theorem cursorUpdateShowsPosition : Obligations.CursorUpdateShowsPosition := by
  intro s h
  rw [cursorUpdate_eq h]
  exact ⟨⟨rfl, rfl⟩, events_of_hist (busOnly_cursorEvents s.cfg _) rfl, rfl⟩

/-- What a command that only moves to position `p` leaves (42_console R143, R148, R150). -/
structure CursorMoved (s t : State) (p : BitVec 11) : Prop where
  pos : t.pos = p
  cursor : CursorOn t
  events : Events s t (cursorEvents s.cfg (p.setWidth 16))
  responded : Responded .ok 0 t
  only : t = { s with
    pos := t.pos, cursorLoc := t.cursorLoc, crtcIndex := t.crtcIndex, now := t.now, hist := t.hist
    cmd := none, rxPart := [], resp := some ⟨.ok, 0⟩ }

theorem cursorMoved_setPos {s : State} (h : s.cfg.Ok) (p : BitVec 11) :
    CursorMoved s ((cursorUpdate { s with pos := p }).respond .ok 0) p := by
  rw [cursorUpdate_eq (by exact h)]
  exact ⟨rfl, ⟨rfl, rfl⟩, .respond (events_of_hist (busOnly_cursorEvents s.cfg _) rfl) _ _, ⟨rfl, rfl, rfl, rfl⟩, rfl⟩

theorem position_toNat {n : Nat} (hn : n < Config.cells) : (BitVec.ofNat 11 n).toNat = n :=
  (BitVec.toNat_ofNat n 11).trans (Nat.mod_eq_of_lt (Nat.lt_trans hn (by decide)))

/-- A position as the cursor location: the two words are as wide as the number needs (42_console R141). -/
theorem setWidth_position {n : Nat} (hn : n < Config.cells) : (BitVec.ofNat 11 n).setWidth 16 = BitVec.ofNat 16 n := by
  apply BitVec.eq_of_toNat_eq
  simp only [Config.cells] at hn
  simp only [BitVec.toNat_setWidth, BitVec.toNat_ofNat]
  omega

/-- Settles O29: the mark is tested first and the range second; what is left is a move of the cursor. -/
theorem conSetposMovesOrRejects : Obligations.ConSetposMovesOrRejects := by
  refine ⟨fun s a h hv ha => ?_, fun s a hv ha => (if_pos hv).trans (if_pos ha), fun s a hv => ?_⟩
  · have moved := cursorMoved_setPos h (posOperand a)
    have location : (posOperand a).setWidth 16 = a.extractLsb' 0 16 := by
      apply BitVec.eq_of_toNat_eq
      simp only [posOperand, BitVec.toNat_setWidth, BitVec.extractLsb'_toNat, Nat.shiftRight_zero]
      omega
    refine ⟨_, (if_pos hv).trans (if_neg (Nat.not_le_of_lt ha)), ?_, moved.cursor, ?_, moved.responded, moved.only⟩
    · rw [moved.pos, posOperand_toNat ha]
    · rw [← location]
      exact moved.events
  · obtain ⟨setpos, -⟩ := exec_con_useBeforeInit a hv
    exact setpos

/-! ### The screen cleared -/

theorem exec_conClear (s : State) : exec .conClear s = .next ((clearScreen s).respond .ok 0) := rfl

/-- Settles O28: the operation's effect is `clearScreen_spec`, and the rest is in its frame. -/
theorem conClearBlanksTheScreen : Obligations.ConClearBlanksTheScreen := by
  intro s h hw
  obtain ⟨blank, outside, -, hist, only⟩ := clearScreen_spec h hw
  have hpos : (clearScreen s).pos = 0 := by rw [only]
  have hcursor : (clearScreen s).cursorLoc = 0 := by rw [only]
  have hlatch : (clearScreen s).crtcIndex = s.cfg.cursorHiIdx := by rw [only]
  have kept := kept_clearScreen s
  have events := events_of_hist ((busOnly_blankEvents _ _ _ _).append (busOnly_cursorEvents _ _)) hist
  obtain ⟨uart1, uart2⟩ := (consoleWork_clearScreen h hw).uarts
  have completes := exec_conClear s
  have frame := exec_frame completes
  clear only
  generalize clearScreen s = t at *
  refine ⟨_, completes, ⟨rfl, rfl, rfl, rfl⟩, hpos, kept.attr, kept.validCon, ⟨?_, ?_⟩, blank, outside, events.respond _ _,
    ⟨kept.acc, kept.validCrc⟩, ⟨uart1, uart2⟩, frame.host⟩
  · exact hcursor.trans (by rw [State.respond_pos, hpos]; rfl)
  · exact hlatch.trans (by rw [State.respond_cfg, kept.cfg])

/-! ### One character

The state after an advance is made a variable once its facts are stated: comparing its fields would evaluate the scroll. -/

theorem exec_conPutc {s : State} (hv : s.validCon = true) (a : Word) :
    exec (.conPutc a) s = .next ((putChar a s).respond .ok 0) := if_pos hv

/-- Settles O36: an ignored character leaves the state to be answered. -/
theorem otherControlCharactersAreIgnored : Obligations.OtherControlCharactersAreIgnored := by
  intro s a hv ha
  rw [exec_conPutc hv, putChar_ignored ha]
  rfl

/-- What every character that advances leaves, wherever it advances to (42_console R150, 10_state R26). -/
structure CharPut (s t : State) : Prop where
  responded : Responded .ok 0 t
  cursor : CursorOn t
  attr : t.attr = s.attr
  validCon : t.validCon = true
  crc : SameCrc s t
  uarts : SameUarts s t
  host : SameHost s t

theorem Advanced.charPut {s t : State} {p : BitVec 11} (h : Advanced s t p) (hv : s.validCon = true) :
    CharPut s (t.respond .ok 0) where
  responded := ⟨rfl, rfl, rfl, rfl⟩
  cursor := ⟨h.cursorLoc.trans (by rw [State.respond_pos, h.pos]), h.crtcIndex.trans (by rw [State.respond_cfg, h.kept.cfg])⟩
  attr := h.kept.attr
  validCon := h.kept.validCon.trans hv
  crc := ⟨h.kept.acc, h.kept.validCrc⟩
  uarts := ⟨h.com1, h.com2⟩
  host := ⟨h.kept.cfg, h.kept.host, h.kept.loader, h.kept.load, h.kept.halted, h.kept.reports, h.kept.reportNo⟩

/-- A cell written before the advance changes no register the advance is judged by. -/
theorem Advanced.of_cellWrite {s t : State} {p : BitVec 11} {i : Nat} {ch attr : Byte}
    (h : Advanced (cellWrite i ch attr s) t p) : Advanced s t p :=
  ⟨h.pos, h.cursorLoc, h.crtcIndex, h.com1, h.com2, (kept_cellWrite i ch attr s).trans h.kept⟩

/-- The events of a cell written and of what is done after it. -/
theorem events_after_cellWrite {s t : State} {i : Nat} {ch attr : Byte} {es : List Event} (hes : BusOnly es)
    (h : t.hist = es.reverse ++ (cellWrite i ch attr s).hist) : Events s t (cellWriteEvents s.cfg i ch attr ++ es) := by
  refine events_of_hist ((busOnly_cellWriteEvents s.cfg i ch attr).append hes) ?_
  rw [h, cellWrite_hist, List.reverse_append, List.append_assoc]
  rfl

/-- Settles O32: the glyph's cell is written, and an advance on the screen writes no memory. -/
theorem putcWritesGlyphAndAdvances : Obligations.PutcWritesGlyphAndAdvances := by
  intro s a g h hw hv hp hg
  have hnext : s.pos.toNat + 1 < Config.cells := Nat.succ_lt_succ hp
  obtain ⟨adv, mem, hist⟩ := advance_on_screen_spec (s := cellWrite s.pos.toNat g s.attr s) h hnext
  have done := adv.of_cellWrite.charPut hv
  have completes := exec_conPutc hv a
  rw [putChar_glyph hg] at completes
  generalize advance 1 (cellWrite s.pos.toNat g s.attr s) = t at *
  refine ⟨_, completes, done.responded, ?_, ?_, done.cursor, fun b hb => ?_, ?_,
    done.attr, done.validCon, done.crc, done.uarts, done.host⟩
  · exact (State.cell_congr adv.kept.cfg mem _).trans (cellWrite_cell_same _ _ _ hw)
  · rw [State.respond_pos, adv.pos]
    exact position_toNat hnext
  · rw [State.respond_mem, mem]
    exact cellWrite_read_other _ _ _ s hb
  · rw [← setWidth_position hnext]
    exact (events_after_cellWrite (busOnly_cursorEvents _ _) hist).respond _ _

/-- Settles O33: the scroll moves the screen on which the glyph already stands. -/
theorem putcInLastCellScrolls : Obligations.PutcInLastCellScrolls := by
  intro s a g h hw hv hp hg
  obtain ⟨adv, moved, blank, outside, hist⟩ := advance_off_screen_spec (s := cellWrite 1999 g s.attr s) h
    (cellWrite_wf _ _ _ hw) (n := 1) (Nat.le_of_eq (congrArg (· + 1) hp.symm))
  have done := adv.of_cellWrite.charPut hv
  have completes := exec_conPutc hv a
  rw [putChar_glyph hg, hp] at completes
  generalize advance 1 (cellWrite 1999 g s.attr s) = t at *
  refine ⟨_, completes, done.responded, fun i hi => ?_, ?_, blank, adv.pos, done.cursor,
    fun b hb => ?_, ?_, done.attr, done.validCon, done.crc, done.uarts, done.host⟩
  · exact (moved i (by omega)).trans (cellWrite_cell_other _ _ h (by decide) (by simp only [Config.cells]; omega) (by omega))
  · exact (moved 1919 (by decide)).trans (cellWrite_cell_same _ _ _ hw)
  · exact (outside b hb).trans (cellWrite_read_other _ _ _ s (not_ofCell_outside h (by decide) hb))
  · rw [List.append_assoc]
    exact (events_after_cellWrite ((busOnly_scrollEvents _).append (busOnly_cursorEvents _ _)) hist).respond _ _

/-- Settles O34: the distance to the next multiple of WIDTH stays on the screen, and the move is one of the cursor. -/
theorem newlineMovesToNextRow : Obligations.NewlineMovesToNextRow := by
  intro s a h hv hp ha
  have target : s.pos.toNat + (Config.width - s.pos.toNat % Config.width) = (s.pos.toNat / 80 + 1) * 80 := by
    simp only [Config.width]
    omega
  have onScreen : (s.pos.toNat / 80 + 1) * 80 < Config.cells := by
    simp only [Config.cells]
    omega
  have moved := cursorMoved_setPos h (BitVec.ofNat 11 ((s.pos.toNat / 80 + 1) * 80))
  refine ⟨_, by rw [exec_conPutc hv, putChar_newline ha, advance_on_screen (by rwa [target]), target], ?_, moved.cursor,
    moved.responded, ?_, moved.only⟩
  · rw [moved.pos]
    exact position_toNat onScreen
  · rw [← setWidth_position onScreen]
    exact moved.events

/-- Settles O35: from the last row the next multiple of WIDTH is off the screen. -/
theorem newlineOnLastRowScrolls : Obligations.NewlineOnLastRowScrolls := by
  intro s a h hw hv hlo hhi ha
  have offScreen : Config.cells ≤ s.pos.toNat + (Config.width - s.pos.toNat % Config.width) := by
    simp only [Config.cells, Config.width]
    omega
  obtain ⟨adv, moved, blank, outside, hist⟩ := advance_off_screen_spec h hw offScreen
  have done := adv.charPut hv
  have events := events_of_hist ((busOnly_scrollEvents s).append (busOnly_cursorEvents s.cfg 1920)) hist
  have completes := exec_conPutc hv a
  rw [putChar_newline ha] at completes
  generalize advance (Config.width - s.pos.toNat % Config.width) s = t at *
  exact ⟨_, completes, done.responded, moved, blank, adv.pos, done.cursor, outside,
    events.respond _ _, done.attr, done.validCon, done.crc, done.uarts, done.host⟩

/-! ### A run of characters -/

theorem execAll_append {is js : List Instr} {s u : State} (h : execAll is s = .next u) :
    execAll (is ++ js) s = execAll js u := by
  induction is generalizing s with
  | nil =>
    cases h
    rfl
  | cons i is ih =>
    obtain ⟨v, hv, hrest⟩ := exists_next_of_execAll_cons h
    rw [List.cons_append, execAll_cons hv]
    exact ih hrest

/-- The memory reads of a state's history. -/
def State.readCount (s : State) : Nat := (s.busEvents.filter isRead).length

theorem Events.readCount {s t : State} {es : List Event} (h : Events s t es) :
    t.readCount = s.readCount + (es.filter isRead).length := by
  rw [State.readCount, h, List.filter_append, List.length_append]
  rfl

@[simp] theorem cursorEvents_no_read (c : Config.Params) (loc : BitVec 16) : (cursorEvents c loc).filter isRead = [] := rfl

@[simp] theorem cellWriteEvents_no_read (c : Config.Params) (i : Nat) (ch attr : Byte) :
    (cellWriteEvents c i ch attr).filter isRead = [] := rfl

@[simp] theorem blankEvents_no_read (c : Config.Params) (attr : Byte) (i n : Nat) :
    (blankEvents c attr i n).filter isRead = [] := by
  simp [blankEvents, List.filter_flatMap]

/-- Moving a cell up reads its two bytes, once each (42_console R150). -/
theorem copyEvents_reads (s : State) (n : Nat) : ((copyEvents s n).filter isRead).length = 2 * n := by
  have cell (i : Nat) : ((cellReadEvents s.cfg (i + Config.width) (s.cell (i + Config.width)) ++
      cellWriteEvents s.cfg i (s.cell (i + Config.width)).1 (s.cell (i + Config.width)).2).filter isRead).length = 2 := rfl
  simp only [copyEvents, List.filter_flatMap, List.length_flatMap, cell, List.map_const', List.length_range,
    List.sum_replicate, smul_eq_mul]
  omega

theorem scrollEvents_reads (s : State) : ((scrollEvents s).filter isRead).length = 3840 := by
  rw [scrollEvents, List.filter_append, List.length_append, copyEvents_reads, blankEvents_no_read]
  rfl

/-- A state in which a character can be put: a legal build, memory in its form, the unit initialised. -/
structure Ready (s : State) : Prop where
  cfgOk : s.cfg.Ok
  memWf : s.mem.wf = true
  validCon : s.validCon = true

theorem Ready.of_exec {i : Instr} {s t : State} (h : Ready s) (he : exec i s = .next t) : Ready t where
  cfgOk := by rw [(exec_frame he).host.cfg]; exact h.cfgOk
  memWf := (exec_frame he).memWf h.memWf
  validCon := (exec_frame he).validCon.elim (fun hv => hv.trans h.validCon) And.right

/-- What printable characters put on the screen before its last cell leave: themselves in the cells from the position on, every
other cell, and no memory read. -/
structure Typed (s : State) (cs : List Word) (t : State) : Prop where
  ready : Ready t
  cfg : t.cfg = s.cfg
  attr : t.attr = s.attr
  pos : t.pos.toNat = s.pos.toNat + cs.length
  cursor : CursorOn s → CursorOn t
  typed : ∀ i (hi : i < cs.length), t.cell (s.pos.toNat + i) = (cs[i].extractLsb' 0 8, s.attr)
  others : ∀ j, j < Config.cells → j < s.pos.toNat ∨ s.pos.toNat + cs.length ≤ j → t.cell j = s.cell j
  reads : t.readCount = s.readCount

theorem Typed.nil {s : State} (h : Ready s) : Typed s [] s :=
  ⟨h, rfl, rfl, rfl, id, fun i hi => absurd hi (Nat.not_lt_zero i), fun _ _ _ => rfl, rfl⟩

/-- What stands printed is the character's own code (42_console R149). -/
theorem writesGlyph_of_printable (c : Config.Params) {a : Word} (ha : 0x20 ≤ a.toNat ∧ a.toNat ≤ 0x7E) :
    WritesGlyph c a (a.extractLsb' 0 8) := .inr (.inl ⟨ha.1, ha.2, rfl⟩)

theorem typed_singleton {s : State} (h : Ready s) {a : Word} (ha : 0x20 ≤ a.toNat ∧ a.toNat ≤ 0x7E)
    (hp : s.pos.toNat < 1999) : ∃ t, exec (.conPutc a) s = .next t ∧ Typed s [a] t := by
  obtain ⟨t, he, -, cell, pos, cursor, others, events, attr, -, -, -, host⟩ := putcWritesGlyphAndAdvances s a _
    h.cfgOk h.memWf h.validCon hp (writesGlyph_of_printable s.cfg ha)
  refine ⟨t, he, h.of_exec he, host.cfg, attr, pos, fun _ => cursor, fun i hi => ?_, fun j hj hout => ?_, ?_⟩
  · obtain rfl : i = 0 := Nat.lt_one_iff.mp hi
    exact cell
  · have hne : s.pos.toNat ≠ j := by rw [List.length_singleton] at hout; omega
    have hpos : s.pos.toNat < Config.cells := Nat.lt_succ_of_lt hp
    have same (b : Addr) (hb : ofCell s.cfg j b) : t.mem.read b.toNat = s.mem.read b.toNat :=
      others b fun hb' => ofCell_disjoint h.cfgOk hpos hj hne hb' hb
    rw [State.cell, State.cell, host.cfg, same _ (.inl rfl), same _ (.inr rfl)]
  · rw [events.readCount]
    simp

theorem Typed.cons {s u t : State} {a : Word} {cs : List Word} (h : Typed s [a] u) (k : Typed u cs t)
    (hfit : s.pos.toNat + cs.length < Config.cells) : Typed s (a :: cs) t := by
  have hpos : u.pos.toNat = s.pos.toNat + 1 := h.pos
  refine ⟨k.ready, k.cfg.trans h.cfg, k.attr.trans h.attr, ?_, k.cursor ∘ h.cursor, fun i hi => ?_, fun j hj hout => ?_,
    k.reads.trans h.reads⟩
  · rw [k.pos, hpos, List.length_cons]
    omega
  · cases i with
    | zero =>
      rw [k.others _ (by omega) (.inl (by omega))]
      exact h.typed 0 Nat.zero_lt_one
    | succ i =>
      have code := k.typed i (Nat.lt_of_succ_lt_succ hi)
      rwa [hpos, h.attr, Nat.add_assoc, Nat.add_comm 1 i] at code
  · rw [List.length_cons] at hout
    rw [k.others j hj (by omega), h.others j hj (by rw [List.length_singleton]; omega)]

/-- Printable characters that end before the last cell or in front of it are typed one after another. -/
theorem execAll_typed {cs : List Word} {s : State} (h : Ready s) (hfit : s.pos.toNat + cs.length < Config.cells)
    (hcs : ∀ a ∈ cs, 0x20 ≤ a.toNat ∧ a.toNat ≤ 0x7E) : ∃ t, execAll (cs.map .conPutc) s = .next t ∧ Typed s cs t := by
  induction cs generalizing s with
  | nil => exact ⟨s, rfl, .nil h⟩
  | cons a cs ih =>
    rw [List.length_cons] at hfit
    simp only [Config.cells] at hfit
    obtain ⟨u, hu, first⟩ := typed_singleton h (hcs a List.mem_cons_self) (by omega)
    have hpos : u.pos.toNat = s.pos.toNat + 1 := first.pos
    obtain ⟨t, ht, rest⟩ := ih first.ready (by simp only [Config.cells]; omega) fun b hb => hcs b (List.mem_cons_of_mem a hb)
    refine ⟨t, ?_, first.cons rest (by simp only [Config.cells]; omega)⟩
    rw [List.map_cons, execAll_cons hu, ht]

/-- Settles O38: 1999 characters are typed, the next one stands in the last cell and scrolls the screen, and the last five are
typed on the row that the scroll blanked. -/
theorem fillingTheScreenScrollsOnce : Obligations.FillingTheScreenScrollsOnce := by
  intro s cs h hw hvalid hp hlen hcs
  obtain ⟨before, c, after, rfl, hbefore, hafter⟩ : ∃ before c after, cs = before ++ c :: after ∧
      before.length = 1999 ∧ after.length = 5 :=
    ⟨cs.take 1999, cs[1999], cs.drop 2000, by simp, by simp [hlen], by simp [hlen]⟩
  simp only [List.forall_mem_append, List.forall_mem_cons] at hcs
  obtain ⟨hprintBefore, hprintC, hprintAfter⟩ := hcs
  have hp0 : s.pos.toNat = 0 := by rw [hp]; rfl
  obtain ⟨u, hu, head⟩ := execAll_typed ⟨h, hw, hvalid⟩ (by rw [hp0, hbefore]; decide) hprintBefore
  have hup : u.pos.toNat = 1999 := by rw [head.pos, hp0, hbefore]
  obtain ⟨v, hv, -, moved, last, blank, vpos, vcursor, -, vevents, vattr, -, -, -, -⟩ := putcInLastCellScrolls u c _
    head.ready.cfgOk head.ready.memWf head.ready.validCon hup (writesGlyph_of_printable u.cfg hprintC)
  have hvp : v.pos.toNat = 1920 := by rw [vpos]; rfl
  obtain ⟨t, ht, tail⟩ := execAll_typed (head.ready.of_exec hv) (by rw [hvp, hafter]; decide) hprintAfter
  have completes : execAll ((before ++ c :: after).map .conPutc) s = .next t := by
    rw [List.map_append, List.map_cons, execAll_append hu, execAll_cons hv, ht]
  have above {i : Nat} (hi : i < 1920) : t.cell i = v.cell i :=
    tail.others i (Nat.lt_trans hi (by decide)) (.inl (by rwa [hvp]))
  refine ⟨t, completes, fun i hi => ?_, fun i hi => ?_, fun i hi hi' => ?_, ?_, tail.cursor vcursor, ?_⟩
  · rcases Nat.lt_succ_iff_lt_or_eq.mp hi with hlt | rfl
    · have inBefore : i + 80 < before.length := by omega
      have code := head.typed (i + 80) inBefore
      rw [hp0, Nat.zero_add] at code
      exact ⟨before[i + 80], by rw [List.getElem?_append_left inBefore, List.getElem?_eq_getElem inBefore],
        (above hi).trans ((moved i hlt).trans code)⟩
    · exact ⟨c, by rw [List.getElem?_append_right (by omega), hbefore]; rfl, by rw [above hi, last, head.attr]⟩
  · have inAfter : i < after.length := by omega
    have code := tail.typed i inAfter
    rw [hvp, vattr, head.attr, Nat.add_comm] at code
    have index : i + 2000 - 1999 = i + 1 := by omega
    refine ⟨after[i], ?_, code⟩
    rw [List.getElem?_append_right (by omega), hbefore, index, List.getElem?_cons_succ, List.getElem?_eq_getElem inAfter]
  · rw [tail.others i hi' (.inr (by rwa [hvp, hafter])), blank i (by omega) hi', head.cfg, head.attr]
  · exact BitVec.eq_of_toNat_eq (by rw [tail.pos, hvp, hafter]; rfl)
  · show t.readCount = s.readCount + 3840
    rw [tail.reads, vevents.readCount, head.reads]
    simp [scrollEvents_reads]

end Sys2Proof.Machine
end

section
/-! SUPPORT. The statements about the SER unit. First what every SER command keeps, in state (`exec_serial_frame`) and on the
bus (`OtherPortQuiet`), then the rates and the commands that write, and last the reception: what reading bytes from a port
leaves (`BytesRead`) and where a step of SER.RXW ends (`receiveRest_reads`). The statements are read off these. -/

namespace Sys2Proof.Machine

/-! ### What every SER command keeps -/

theorem otherPort_ne (p : Port) : otherPort p ≠ p := by
  cases p <;> decide

/-- What a SER command on port `p` leaves alone: the other port, the other units and the host (43_serial R170). -/
theorem exec_serial_frame {i : Instr} {p : Port} {s t : State} (h : s.cfg.Ok) (hi : serPort i = some p)
    (he : exec i s = .next t) :
    t.uart (otherPort p) = s.uart (otherPort p) ∧ SameCrc s t ∧ SameCon s t ∧ SameCursor s t ∧ SameMemory s t ∧
      SameHost s t := by
  obtain ⟨⟨screen, other⟩, -⟩ := exec_ser_portWork h hi he
  have frame := exec_frame he
  obtain ⟨noFold, notReset⟩ : foldedBytes s i = none ∧ i ≠ .crcReset := by
    cases i <;> simp [serPort, foldedBytes] at hi ⊢
  have validCrc := frame.validCrc.resolve_right fun ⟨reset, _⟩ => notReset reset
  exact ⟨other _ (otherPort_ne p), ⟨frame.acc noFold notReset, validCrc⟩, screen.con, screen.cursor, screen.sameMemory,
    frame.host⟩

/-! ### Bus events on one port -/

theorem Events.out {s t : State} {es : List Event} (h : Events s t es) (q : PortAddr) (v : Byte) :
    Events s (t.emit (.out q v)) (es ++ [.out q v]) := by
  unfold Events at *
  rw [State.busEvents_emit _ _ (by simp), h, List.append_assoc]

theorem Events.inp {s t : State} {es : List Event} (h : Events s t es) (q : PortAddr) (v : Byte) :
    Events s (t.emit (.inp q v)) (es ++ [.inp q v]) := by
  unfold Events at *
  rw [State.busEvents_emit _ _ (by simp), h, List.append_assoc]

theorem events_setUart (s : State) (p : Port) (u : Uart) : Events s (s.setUart p u) [] :=
  (State.busEvents_congr (State.setUart_hist s p u)).trans (List.append_nil _).symm

/-- Nothing happened on the ports of serial port `q`. -/
structure OtherPortQuiet (q : Port) (s t : State) : Prop where
  cfg : t.cfg = s.cfg
  events : t.busEvents.filter (onPortsOf s.cfg q) = s.busEvents.filter (onPortsOf s.cfg q)

theorem OtherPortQuiet.refl (q : Port) (s : State) : OtherPortQuiet q s s := ⟨rfl, rfl⟩

theorem OtherPortQuiet.trans {q : Port} {s t u : State} (h : OtherPortQuiet q s t) (k : OtherPortQuiet q t u) :
    OtherPortQuiet q s u :=
  ⟨k.cfg.trans h.cfg, (h.cfg ▸ k.events).trans h.events⟩

theorem OtherPortQuiet.respond {q : Port} {s t : State} (h : OtherPortQuiet q s t) (st : Status) (v : Word) :
    OtherPortQuiet q s (t.respond st v) :=
  h.trans ⟨rfl, by rw [State.busEvents_respond]⟩

theorem OtherPortQuiet.of_events {q : Port} {s t : State} {es : List Event} (hc : t.cfg = s.cfg) (h : Events s t es)
    (hes : es.filter (onPortsOf s.cfg q) = []) : OtherPortQuiet q s t :=
  ⟨hc, by rw [h, List.filter_append, hes, List.append_nil]⟩

/-- A register of port `p` is not in the register block of the other port (00_scope R9 b). -/
theorem reg_not_in_other_block {c : Config.Params} (h : c.Ok) (p : Port) (x : UartReg) :
    ¬ ((c.base (otherPort p)).toNat ≤ (reg c p x).toNat ∧ (reg c p x).toNat ≤ (c.base (otherPort p)).toNat + 7) := by
  have address : reg c p x = portAddress c (.uart p x.port) := by
    cases x <;> simp only [UartReg.port, portAddress, reg, uartOffset, h.dataIsDll, h.ierIsDlm]
  have offset := portOffset_lt h x.port
  have disjoint := h.blocksDisjoint
  rw [address, uartAddress_toNat h]
  cases p <;> simp only [otherPort, Config.Params.base] <;> omega

theorem quiet_portOut {s : State} (h : s.cfg.Ok) (p : Port) (x : UartReg) (v : Byte) :
    OtherPortQuiet (otherPort p) s (portOut (reg s.cfg p x) v s) := by
  have outside := reg_not_in_other_block h p x
  refine .of_events (portOut_cfg _ _ _) (es := [.out (reg s.cfg p x) v]) ?_ (by simpa [onPortsOf] using outside)
  rw [portOut_reg h rfl]
  exact (events_setUart s p _).out _ _

theorem quiet_portIn {s : State} (h : s.cfg.Ok) (p : Port) (x : UartReg) :
    OtherPortQuiet (otherPort p) s (portIn (reg s.cfg p x) s).2 := by
  have outside := reg_not_in_other_block h p x
  refine .of_events (portIn_cfg _ _) (es := [.inp (reg s.cfg p x) (portIn (reg s.cfg p x) s).1]) ?_
    (by simpa [onPortsOf] using outside)
  rw [portIn_reg h rfl]
  exact (events_setUart s p _).inp _ _

theorem OtherPortQuiet.portOut {p : Port} {s t : State} (h : s.cfg.Ok) (k : OtherPortQuiet (otherPort p) s t)
    (x : UartReg) (v : Byte) : OtherPortQuiet (otherPort p) s (portOut (reg s.cfg p x) v t) :=
  k.trans (k.cfg ▸ quiet_portOut (k.cfg.symm ▸ h) p x v)

theorem OtherPortQuiet.portIn {p : Port} {s t : State} (h : s.cfg.Ok) (k : OtherPortQuiet (otherPort p) s t)
    (x : UartReg) : OtherPortQuiet (otherPort p) s (portIn (reg s.cfg p x) t).2 :=
  k.trans (k.cfg ▸ quiet_portIn (k.cfg.symm ▸ h) p x)

theorem quiet_pollByte {s : State} (h : s.cfg.Ok) (p : Port) : OtherPortQuiet (otherPort p) s (pollByte p s).2 := by
  have status := (OtherPortQuiet.refl (otherPort p) s).portIn h .lsr
  unfold pollByte
  simp only []
  split
  · exact status.portIn h .data
  · exact status

/-- No SER command makes an event on the other port's I/O ports (43_serial R170). -/
theorem exec_serial_quiet {i : Instr} {p : Port} {s t : State} (h : s.cfg.Ok) (hi : serPort i = some p)
    (he : exec i s = .next t) : OtherPortQuiet (otherPort p) s t := by
  have start := OtherPortQuiet.refl (otherPort p) s
  cases i with
  | serReset q =>
    cases hi
    cases he
    exact (((start.portOut h .ier _).portOut h .lcr _).portOut h .fcr _).respond _ _
  | serBaud a q =>
    cases hi
    rw [← Host.Outcome.next.inj he]
    split
    · exact (((((start.portIn h .lcr).portOut h .lcr _).portOut h .dll _).portOut h .dlm _).portOut h .lcr _).respond _ _
    · exact start.respond _ _
  | serRxb q =>
    cases hi
    simp only [exec, execSerRxb] at he
    split at he
    · cases he
      exact (quiet_pollByte h p).respond _ _
    · cases he
      exact quiet_pollByte h p
  | serRxw q =>
    cases hi
    cases he
    rcases receiveRest_cases (P := OtherPortQuiet (otherPort p) s) (p := p)
      (fun u hu => hu.trans (quiet_pollByte (hu.cfg ▸ h) p)) (fun u bs hu => ⟨hu.cfg, hu.events⟩) (4 - s.rxPart.length)
      start with ⟨hP, -⟩ | ⟨u, v, hP, ht⟩
    · exact hP
    · rw [ht]
      exact hP.respond _ _
  | _ => cases hi

/-- Settles O52: every SER command works on its own port. -/
theorem serialPortsAreIndependent : Obligations.SerialPortsAreIndependent := by
  intro s t p a i h hi he
  have port : serPort i = some p := by
    rcases hi with rfl | rfl | rfl | rfl <;> rfl
  obtain ⟨other, -⟩ := exec_serial_frame h port he
  exact ⟨other, (exec_serial_quiet h port he).events⟩

/-! ### The rates -/

theorem baudValid_iff (r : Word) : baudValid r = true ↔ 2 ≤ r.toNat ∧ r.toNat ≤ 115200 ∧ 115200 % r.toNat = 0 := by
  simp [baudValid, and_assoc]

/-- The range test leaves out only the divisor 1 (43_serial R173). -/
theorem baudValid_iff_dvd (r : Word) : baudValid r = true ↔ r.toNat ∣ 115200 ∧ r.toNat ≠ 1 := by
  rw [baudValid_iff, Nat.dvd_iff_mod_eq_zero]
  constructor
  · omega
  · rintro ⟨divides, ne_one⟩
    have le := Nat.le_of_dvd (by decide) (Nat.dvd_of_mod_eq_zero divides)
    have ne_zero : r.toNat ≠ 0 := fun h0 => by simp [h0] at divides
    omega

/-- The table lists every divisor pair but that of 1; one of the two is below 340, because 340 * 340 is above 115200. -/
theorem mem_rateTable_of_small : ∀ d ∈ List.range 340, d ∣ 115200 →
    (d ≠ 1 → (d, 115200 / d) ∈ rateTable) ∧ (115200 / d, d) ∈ rateTable := by
  decide +kernel

theorem mem_rateTable_of_dvd {r : Nat} (h : r ∣ 115200) (h1 : r ≠ 1) : (r, 115200 / r) ∈ rateTable := by
  rcases Nat.lt_or_ge r 340 with small | large
  · exact (mem_rateTable_of_small r (List.mem_range.mpr small) h).1 h1
  · have cofactor_small : 115200 / r < 340 := Nat.div_lt_of_lt_mul (by omega)
    have cofactor := (mem_rateTable_of_small _ (List.mem_range.mpr cofactor_small) (Nat.div_dvd_of_dvd h)).2
    rwa [Nat.div_div_self h (by decide)] at cofactor

theorem rateTable_divides : ∀ e ∈ rateTable, e.1 ∣ 115200 ∧ e.1 ≠ 1 := by
  decide +kernel

theorem divisor_le {r : Word} (h : baudValid r = true) : 115200 / r.toNat ≤ 57600 := by
  obtain ⟨two_le, -⟩ := (baudValid_iff r).mp h
  exact Nat.div_le_div_left two_le (by decide)

/-- The divisor of a valid rate fits the 16-bit latch (43_serial R175). -/
theorem baudDivisor_toNat {r : Word} (h : baudValid r = true) : (baudDivisor r).toNat = 115200 / r.toNat := by
  rw [baudDivisor, BitVec.toNat_ofNat]
  exact Nat.mod_eq_of_lt (Nat.lt_of_le_of_lt (divisor_le h) (by decide))

/-- The rates are listed in ascending order (43_serial R175). -/
theorem rateTable_rising : (rateTable.map Prod.fst).IsChain (· < ·) := by
  decide +kernel

/-- Settles O41: the valid rates are the divisors but 1, and the table lists those. -/
theorem validRatesAndDivisorsAreTheListed : Obligations.ValidRatesAndDivisorsAreTheListed := by
  refine ⟨fun r => ?_, baudValid_iff_dvd, fun r hr => ?_, rfl,
    (List.isChain_iff_pairwise.mp rateTable_rising).imp Nat.ne_of_lt⟩
  · rw [baudValid_iff_dvd, List.mem_map]
    constructor
    · rintro ⟨divides, ne_one⟩
      exact ⟨_, mem_rateTable_of_dvd divides ne_one, rfl⟩
    · rintro ⟨e, he, hr⟩
      exact hr ▸ rateTable_divides e he
  · obtain ⟨divides, ne_one⟩ := (baudValid_iff_dvd r).mp hr
    obtain ⟨two_le, le, -⟩ := (baudValid_iff r).mp hr
    rw [baudDivisor_toNat hr]
    exact ⟨mem_rateTable_of_dvd divides ne_one, rfl, Nat.div_mul_cancel divides, Nat.div_pos le (by omega), divisor_le hr⟩

/-! ### SER.RESET and SER.BAUD -/

theorem exec_serReset (p : Port) (s : State) : exec (.serReset p) s = .next ((resetUart p s).respond .ok 0) := rfl

theorem exec_serBaud_valid {a : Word} (h : baudValid a = true) (p : Port) (s : State) :
    exec (.serBaud a p) s = .next ((programDivisor p (baudDivisor a) s).respond .ok 0) :=
  congrArg Host.Outcome.next (if_pos h)

theorem exec_serBaud_invalid {a : Word} (h : baudValid a ≠ true) (p : Port) (s : State) :
    exec (.serBaud a p) s = .next (s.raise .errBaud a) :=
  congrArg Host.Outcome.next (if_neg h)

/-- Settles O43: the test of the rate comes before any bus event. -/
theorem serBaudRejectsInvalidRates : Obligations.SerBaudRejectsInvalidRates := fun s p a h =>
  exec_serBaud_invalid (mt (baudValid_iff a).mp h) p s

/-- Settles O39: with DLAB clear the first write reaches IER. -/
theorem serResetConfiguresTheUart : Obligations.SerResetConfiguresTheUart := by
  intro s p h hd
  have completes := exec_serReset p s
  refine ⟨_, completes, ⟨rfl, rfl, rfl, rfl⟩, ?_, ?_, exec_serial_frame h rfl completes⟩
  · simp [resetUart_eq h, hd]
  · rw [resetUart_eq h]
    exact ((((events_setUart s p _).out _ _).out _ _).out _ _).respond _ _

/-- Settles O42: the whole sequence is `programDivisor_eq`, with the divisor cut into its two bytes. -/
theorem serBaudProgramsTheDivisor : Obligations.SerBaudProgramsTheDivisor := by
  intro s p a h ha
  have completes := exec_serBaud_valid ha p s
  refine ⟨_, completes, ⟨rfl, rfl, rfl, rfl⟩, ?_, ?_, exec_serial_frame h rfl completes⟩
  · simp [programDivisor_eq h, lowByte, highByte, baudDivisor]
  · rw [programDivisor_eq h]
    exact ((((((events_setUart s p _).inp _ _).out _ _).out _ _).out _ _).out _ _).respond _ _

theorem lcr_after_serBaud {s t : State} {p : Port} {a : Word} (h : s.cfg.Ok) (ha : baudValid a = true)
    (he : exec (.serBaud a p) s = .next t) : (t.uart p).lcr = (s.uart p).lcr &&& ~~~s.cfg.lcrDlab := by
  rw [exec_serBaud_valid ha] at he
  rw [← Host.Outcome.next.inj he]
  simp [programDivisor_eq h]

theorem lcr8n1_without_dlab {c : Config.Params} (h : c.Ok) : c.lcr8n1 &&& ~~~c.lcrDlab = c.lcr8n1 := by
  have disjoint := h.lcr8n1NoDlab
  ext i hi
  have bit := congrArg (fun v : Byte => v[i]) disjoint
  simp only [BitVec.getElem_and, BitVec.getElem_not] at bit ⊢
  cases hx : c.lcr8n1[i] <;> simp_all

/-- The port's line control is LCR_8N1, in a legal build. -/
structure LineIs8n1 (p : Port) (s : State) : Prop where
  cfgOk : s.cfg.Ok
  lcr : (s.uart p).lcr = s.cfg.lcr8n1

/-- Every SER.BAUD answers, and none changes a line control without DLAB, whatever the rate (43_serial R176). -/
theorem serBaud_keeps_8n1 {s : State} {p : Port} (h : LineIs8n1 p s) (a : Word) :
    ∃ t, exec (.serBaud a p) s = .next t ∧ t.cfg = s.cfg ∧ LineIs8n1 p t := by
  have cfg {t : State} (he : exec (.serBaud a p) s = .next t) : t.cfg = s.cfg := (exec_frame he).host.cfg
  by_cases ha : baudValid a = true
  · have completes := exec_serBaud_valid ha p s
    have lcr := lcr_after_serBaud h.cfgOk ha completes
    have same := cfg completes
    generalize (programDivisor p (baudDivisor a) s).respond .ok 0 = t at *
    exact ⟨t, completes, same, same ▸ h.cfgOk, by rw [lcr, h.lcr, lcr8n1_without_dlab h.cfgOk, same]⟩
  · exact ⟨_, exec_serBaud_invalid ha p s, rfl, h.cfgOk, (congrArg Uart.lcr (State.raise_uart _ _ _ p)).trans h.lcr⟩

theorem execAll_serBaud_keeps_8n1 (rates : List Word) {s : State} {p : Port} (h : LineIs8n1 p s) :
    ∃ t, execAll (rates.map fun r => .serBaud r p) s = .next t ∧ t.cfg = s.cfg ∧ LineIs8n1 p t := by
  induction rates generalizing s with
  | nil => exact ⟨s, rfl, rfl, h⟩
  | cons a rates ih =>
    obtain ⟨u, hu, ucfg, line⟩ := serBaud_keeps_8n1 h a
    obtain ⟨t, ht, tcfg, line'⟩ := ih line
    exact ⟨t, (execAll_cons hu _).trans ht, tcfg.trans ucfg, line'⟩

/-- Settles O44: SER.RESET writes LCR_8N1, and each SER.BAUD after it keeps that. -/
theorem lineControlIsPreserved : Obligations.LineControlIsPreserved := by
  refine ⟨fun s t p a h ha he => lcr_after_serBaud h ha he, fun s p rates h => ?_⟩
  have reset := exec_serReset p s
  have cfg := (exec_frame reset).host.cfg
  obtain ⟨t, ht, tcfg, line⟩ := execAll_serBaud_keeps_8n1 rates (p := p) (s := (resetUart p s).respond .ok 0)
    ⟨cfg ▸ h, by simp [resetUart_eq h]⟩
  exact ⟨t, (execAll_cons reset _).trans ht, by rw [line.lcr, tcfg, cfg]⟩

/-! ### Bytes read from a port -/

/-- The bus events of reading the bytes `bs`, when the first poll is the event number `k` from `s` on: for each byte a read of LSR
with data ready and a read of DATA (43_serial R178). -/
def readByteEvents (p : Port) (s : State) : Nat → List Byte → List Event
  | _, [] => []
  | k, b :: bs =>
    .inp (reg s.cfg p .lsr) (lsrValue s.cfg (momentAt p s k).lsr [b]) :: .inp (reg s.cfg p .data) b ::
      readByteEvents p s (k + 2) bs

theorem length_readByteEvents (p : Port) (s : State) (k : Nat) (bs : List Byte) :
    (readByteEvents p s k bs).length = 2 * bs.length := by
  induction bs generalizing k with
  | nil => rfl
  | cons b bs ih =>
    simp only [readByteEvents, List.length_cons, ih]
    omega

/-- What is still to be read is numbered from the state in which it is read. -/
theorem readByteEvents_shift {p : Port} {s t : State} {n : Nat} (hc : t.cfg = s.cfg) (hn : t.now = s.now + n)
    (hl : (t.uart p).line = (s.uart p).line.drop n) (k : Nat) (bs : List Byte) :
    readByteEvents p t k bs = readByteEvents p s (n + k) bs := by
  induction bs generalizing k with
  | nil => rfl
  | cons b bs ih => rw [readByteEvents, readByteEvents, ih, hc, momentAt_add hn hl, Nat.add_assoc]

/-- From `s` the bytes `bs` were read at port `p`, two events for each, and `u` was reached; what waited or came at these events
and was not read is still in the queue (43_serial R178, R182). -/
structure BytesRead (p : Port) (s : State) (bs : List Byte) (u : State) : Prop where
  cfg : u.cfg = s.cfg
  now : u.now = s.now + 2 * bs.length
  uart : u.uart p = { s.uart p with rxq := (u.uart p).rxq, line := (s.uart p).line.drop (2 * bs.length) }
  queue : bs ++ (u.uart p).rxq = (s.uart p).rxq ++ arrivedIn p s (2 * bs.length)
  events : Events s u (readByteEvents p s 0 bs)

theorem BytesRead.refl (p : Port) (s : State) : BytesRead p s [] s :=
  ⟨rfl, rfl, rfl, (List.append_nil _).symm, (List.append_nil _).symm⟩

theorem BytesRead.line {p : Port} {s u : State} {bs : List Byte} (h : BytesRead p s bs u) :
    (u.uart p).line = (s.uart p).line.drop (2 * bs.length) := by rw [h.uart]

theorem BytesRead.lcr {p : Port} {s u : State} {bs : List Byte} (h : BytesRead p s bs u) :
    (u.uart p).lcr = (s.uart p).lcr := by rw [h.uart]

theorem BytesRead.respond {p : Port} {s u : State} {bs : List Byte} (h : BytesRead p s bs u) (st : Status) (v : Word) :
    BytesRead p s bs (u.respond st v) :=
  ⟨h.cfg, h.now, by simpa only [State.respond_uart] using h.uart, by simpa only [State.respond_uart] using h.queue,
    h.events.respond st v⟩

theorem BytesRead.setRxPart {p : Port} {s u : State} {bs : List Byte} (h : BytesRead p s bs u) (part : List Byte) :
    BytesRead p s bs { u with rxPart := part } := by
  have uart : State.uart { u with rxPart := part } p = u.uart p := by cases p <;> rfl
  exact ⟨h.cfg, h.now, uart ▸ h.uart, uart ▸ h.queue, h.events⟩

theorem BytesRead.cons {p : Port} {s u t : State} {b : Byte} {bs : List Byte} (h : BytesRead p s [b] u)
    (k : BytesRead p u bs t) : BytesRead p s (b :: bs) t := by
  have twice : 2 * (b :: bs).length = 2 * [b].length + 2 * bs.length := by simp only [List.length_cons, List.length_nil]; omega
  refine ⟨k.cfg.trans h.cfg, ?_, ?_, ?_, ?_⟩
  · rw [k.now, h.now, twice, Nat.add_assoc]
  · rw [k.uart, h.uart, twice, List.drop_drop]
  · calc b :: bs ++ (t.uart p).rxq
        = [b] ++ (bs ++ (t.uart p).rxq) := rfl
      _ = [b] ++ (u.uart p).rxq ++ arrivedIn p u (2 * bs.length) := by rw [k.queue, List.append_assoc]
      _ = (s.uart p).rxq ++ arrivedIn p s (2 * (b :: bs).length) := by
        rw [h.queue, twice, arrivedIn_add h.now h.line, List.append_assoc]
  · unfold Events
    rw [k.events, h.events, List.append_assoc, readByteEvents_shift h.cfg h.now h.line]
    rfl

/-- Reading the same bytes leaves the same UART: the queue is what was not read. -/
theorem BytesRead.uart_unique {p : Port} {s t u : State} {bs : List Byte} (h : BytesRead p s bs t)
    (k : BytesRead p s bs u) : t.uart p = u.uart p := by
  have rest : (t.uart p).rxq = (u.uart p).rxq := List.append_cancel_left (h.queue.trans k.queue.symm)
  rw [h.uart, k.uart, rest]

/-- The next poll looks at all that was not read. -/
theorem BytesRead.queueNow_eq {p : Port} {s u : State} {bs : List Byte} (h : BytesRead p s bs u) :
    bs ++ queueNow p u = (s.uart p).rxq ++ arrivedIn p s (2 * bs.length + 1) := by
  rw [Machine.queueNow_eq, ← List.append_assoc, h.queue, List.append_assoc, momentAt_add h.now h.line, Nat.add_zero,
    arrivedIn_succ]

/-! ### One pass of the poll loop -/

theorem pollByte_ready_byte {s : State} (h : s.cfg.Ok) {p : Port} (hd : dlabSet s.cfg (s.uart p).lcr = false) {b : Byte}
    {rest : List Byte} (hq : queueNow p s = b :: rest) : (pollByte p s).1 = some b := by
  rw [pollByte_ready h p hd hq]

theorem bytesRead_pollByte {s : State} (h : s.cfg.Ok) {p : Port} (hd : dlabSet s.cfg (s.uart p).lcr = false) {b : Byte}
    {rest : List Byte} (hq : queueNow p s = b :: rest) : BytesRead p s [b] (pollByte p s).2 := by
  have queue : b :: rest ++ (momentAt p s 1).arrived = (s.uart p).rxq ++ arrivedIn p s 2 := by
    rw [← hq, queueNow_eq, List.append_assoc, arrivedIn_succ, arrivedIn_succ, arrivedIn_zero, List.nil_append]
  rw [pollByte_ready h p hd hq]
  exact ⟨by simp, by simp, by simp, by simpa using queue, ((events_setUart s p _).inp _ _).inp _ _⟩

theorem pollByte_waits_byte {s : State} (h : s.cfg.Ok) {p : Port} (hq : queueNow p s = []) : (pollByte p s).1 = none := by
  rw [pollByte_waits h p hq]

/-- What one pass of the poll loop with nothing waiting leaves (43_serial R178, R184). -/
structure PolledInVain (p : Port) (s t : State) : Prop where
  cmd : t.cmd = s.cmd
  resp : t.resp = s.resp
  rxPart : t.rxPart = s.rxPart
  now : t.now = s.now + 1
  uart : t.uart p = { s.uart p with rxq := [], line := (s.uart p).line.drop 1 }
  events : ∃ v, v &&& s.cfg.lsrDr = 0 ∧ Events s t [.inp (reg s.cfg p .lsr) v]

theorem polledInVain_pollByte {s : State} (h : s.cfg.Ok) {p : Port} (hq : queueNow p s = []) :
    PolledInVain p s (pollByte p s).2 := by
  have notReady := dataReady_lsrValue h (momentAt p s 0).lsr []
  rw [pollByte_waits h p hq]
  exact ⟨by simp, by simp, by simp, by simp, by simp, _, by simpa [dataReady] using notReady,
    (events_setUart s p _).inp _ _⟩

theorem exec_serRxb_ready {s : State} {p : Port} {b : Byte} (hb : (pollByte p s).1 = some b) :
    exec (.serRxb p) s = .next ((pollByte p s).2.respond .ok (b.setWidth 32)) := by
  simp only [exec, execSerRxb, hb]

theorem exec_serRxb_waits {s : State} {p : Port} (hb : (pollByte p s).1 = none) :
    exec (.serRxb p) s = .next (pollByte p s).2 := by
  simp only [exec, execSerRxb, hb]

theorem receiveRest_ready {s : State} {p : Port} {b : Byte} (hb : (pollByte p s).1 = some b) (n : Nat) :
    receiveRest p (n + 1) s = receiveRest p n { (pollByte p s).2 with rxPart := (pollByte p s).2.rxPart ++ [b] } := by
  simp only [receiveRest, hb]

theorem receiveRest_waits {s : State} {p : Port} (hb : (pollByte p s).1 = none) (n : Nat) :
    receiveRest p (n + 1) s = (pollByte p s).2 := by
  simp only [receiveRest, hb]

theorem exec_serRxw (p : Port) (s : State) : exec (.serRxw p) s = .next (receiveRest p (4 - s.rxPart.length) s) := rfl

/-! ### SER.RXB, and a poll in vain -/

/-- Settles O45: what `pollByte_ready` says of the poll, and the answer. -/
theorem serRxbAnswersTheOldestByte : Obligations.SerRxbAnswersTheOldestByte := by
  intro s p b rest h hd hq
  have completes := exec_serRxb_ready (pollByte_ready_byte h hd hq)
  have ready := dataReady_lsrValue h (momentAt p s 0).lsr (b :: rest)
  refine ⟨_, completes, ⟨rfl, rfl, rfl, rfl⟩, ?_, ⟨lsrValue s.cfg (momentAt p s 0).lsr (b :: rest), ?_,
    lsrValue_other _ _ _, ?_⟩, exec_serial_frame h rfl completes⟩
  · simp [pollByte_ready h p hd hq]
  · simpa [dataReady] using ready
  · exact (bytesRead_pollByte h hd hq).events.respond _ _

/-- Settles O46: neither command ends, so what is left is the poll. -/
theorem receiveCommandsWaitForData : Obligations.ReceiveCommandsWaitForData := by
  intro s p i h hq hpart hi
  have silent := pollByte_waits_byte h hq
  have vain := polledInVain_pollByte h hq
  have completes : exec i s = .next (pollByte p s).2 := by
    rcases hi with rfl | rfl
    · exact exec_serRxb_waits silent
    · obtain ⟨n, hn⟩ : ∃ n, 4 - s.rxPart.length = n + 1 := ⟨3 - s.rxPart.length, by omega⟩
      rw [exec_serRxw, hn, receiveRest_waits silent]
  have port : serPort i = some p := by
    rcases hi with rfl | rfl <;> rfl
  exact ⟨_, completes, vain.cmd, vain.resp, vain.rxPart, vain.uart, vain.events, exec_serial_frame h port completes⟩

/-! ### SER.RXW -/

/-- Inside a SER.RXW the bytes `bs` were read from `s` on, and they stand behind those received before (10_state R41 b). -/
structure WordBytesRead (p : Port) (s : State) (bs : List Byte) (u : State) : Prop where
  read : BytesRead p s bs u
  cmd : u.cmd = s.cmd
  resp : u.resp = s.resp
  part : u.rxPart = s.rxPart ++ bs

theorem WordBytesRead.refl (p : Port) (s : State) : WordBytesRead p s [] s :=
  ⟨.refl p s, rfl, rfl, (List.append_nil _).symm⟩

theorem WordBytesRead.cons {p : Port} {s u t : State} {b : Byte} {bs : List Byte} (h : WordBytesRead p s [b] u)
    (k : WordBytesRead p u bs t) : WordBytesRead p s (b :: bs) t :=
  ⟨h.read.cons k.read, k.cmd.trans h.cmd, k.resp.trans h.resp, by rw [k.part, h.part, List.append_assoc]; rfl⟩

theorem wordBytesRead_pollByte {s : State} (h : s.cfg.Ok) {p : Port} (hd : dlabSet s.cfg (s.uart p).lcr = false) {b : Byte}
    {rest : List Byte} (hq : queueNow p s = b :: rest) :
    WordBytesRead p s [b] { (pollByte p s).2 with rxPart := (pollByte p s).2.rxPart ++ [b] } := by
  have kept := kept_pollByte p s
  exact ⟨(bytesRead_pollByte h hd hq).setRxPart _, kept.cmd, kept.resp, congrArg (· ++ [b]) kept.rxPart⟩

/-- Where a step of SER.RXW that asks for `n` bytes ends when it has read `bs`: at the answer, or at a poll in vain before the
last byte (43_serial R180; log 9). -/
inductive StepEnd (p : Port) (n : Nat) (bs : List Byte) (u t : State) : Prop where
  | answers (all : bs.length = n) (eq : t = u.respond .ok (assembleWord u.cfg.serWordOrder u.rxPart))
  | waits (fewer : bs.length < n) (silent : queueNow p u = []) (eq : t = (pollByte p u).2)

/-- A step of SER.RXW reads bytes for as long as they wait. -/
theorem receiveRest_reads (n : Nat) {s : State} (h : s.cfg.Ok) {p : Port} (hd : dlabSet s.cfg (s.uart p).lcr = false) :
    ∃ bs u, WordBytesRead p s bs u ∧ StepEnd p n bs u (receiveRest p n s) := by
  induction n generalizing s with
  | zero => exact ⟨[], s, .refl p s, .answers rfl rfl⟩
  | succ n ih =>
    cases hq : queueNow p s with
    | nil =>
      exact ⟨[], s, .refl p s, .waits (Nat.succ_pos n) hq (receiveRest_waits (pollByte_waits_byte h hq) n)⟩
    | cons b rest =>
      have first := wordBytesRead_pollByte h hd hq
      rw [receiveRest_ready (pollByte_ready_byte h hd hq)]
      obtain ⟨bs, u, read, ending⟩ := ih (first.read.cfg ▸ h) (by rwa [first.read.cfg, first.read.lcr])
      refine ⟨b :: bs, u, first.cons read, ?_⟩
      cases ending with
      | answers all eq => exact .answers (congrArg (· + 1) all) eq
      | waits fewer silent eq => exact .waits (Nat.succ_lt_succ fewer) silent eq

/-- When each byte still needed waits or comes in time for its poll, the step reads exactly these and answers. -/
theorem receiveRest_answers {s : State} (h : s.cfg.Ok) {p : Port} (hd : dlabSet s.cfg (s.uart p).lcr = false)
    {need : List Byte}
    (hcome : ∀ k, k < need.length → need.take (k + 1) <+: (s.uart p).rxq ++ arrivedIn p s (2 * k + 1)) :
    ∃ u, WordBytesRead p s need u ∧
      receiveRest p need.length s = u.respond .ok (assembleWord u.cfg.serWordOrder u.rxPart) := by
  obtain ⟨bs, u, read, ending⟩ := receiveRest_reads need.length h hd
  cases ending with
  | answers all eq =>
    suffices same : bs = need from ⟨u, same ▸ read, eq⟩
    have read_prefix : bs <+: (s.uart p).rxq ++ arrivedIn p s (2 * bs.length) := ⟨_, read.read.queue⟩
    have need_prefix : need <+: (s.uart p).rxq ++ arrivedIn p s (2 * bs.length) := by
      cases hlen : need.length with
      | zero => rw [List.length_eq_zero_iff.mp hlen]; exact List.nil_prefix
      | succ k =>
        have last := hcome k (by omega)
        rw [← hlen, List.take_length] at last
        rw [all, hlen, Nat.mul_succ, arrivedIn_succ, ← List.append_assoc]
        exact last.trans (List.prefix_append _ _)
    exact (List.prefix_of_prefix_length_le read_prefix need_prefix all.le).eq_of_length all
  | waits fewer silent eq =>
    have unread := read.read.queueNow_eq
    have enough := (hcome bs.length fewer).length_le
    rw [← unread, silent, List.append_nil, List.length_take] at enough
    omega

theorem bytes_of_cutWord {o : ByteOrder} {w : Word} {b0 b1 b2 b3 : Byte} (h : cutWord o w = [b0, b1, b2, b3]) :
    (o = .le → byteOf 0 w = b0 ∧ byteOf 1 w = b1 ∧ byteOf 2 w = b2 ∧ byteOf 3 w = b3) ∧
    (o = .be → byteOf 0 w = b3 ∧ byteOf 1 w = b2 ∧ byteOf 2 w = b1 ∧ byteOf 3 w = b0) := by
  cases o <;> simp_all [cutWord]

/-- Settles O47: the step reads the bytes needed and answers the word of all four. -/
theorem serRxwAssemblesFourBytes : Obligations.SerRxwAssemblesFourBytes := by
  intro s p b0 b1 b2 b3 need h hd hfour hcome
  obtain ⟨u, read, answer⟩ := receiveRest_answers h hd hcome
  have count : 4 - s.rxPart.length = need.length := by
    have := congrArg List.length hfour
    simp only [List.length_append, List.length_cons, List.length_nil] at this
    omega
  have completes := exec_serRxw p s
  rw [count, answer, read.part, hfour, read.read.cfg] at completes
  have cut := cutWord_assembleWord s.cfg.serWordOrder b0 b1 b2 b3
  have rest : (u.uart p).rxq = ((s.uart p).rxq ++ arrivedIn p s (2 * need.length)).drop need.length := by
    rw [← read.read.queue, List.drop_left]
  refine ⟨_, _, completes, ⟨rfl, rfl, rfl, rfl⟩, ?_, ?_, exec_serial_frame h rfl completes⟩
  · generalize assembleWord s.cfg.serWordOrder [b0, b1, b2, b3] = w at cut
    cases horder : s.cfg.serWordOrder with
    | le => exact (bytes_of_cutWord cut).1 horder
    | be => exact (bytes_of_cutWord cut).2 horder
  · rw [State.respond_uart, read.read.uart, rest]

/-- Settles O48: a step that leaves the command in progress ended at a poll in vain, which found all that came already read. -/
theorem serRxwKeepsTheBytesOfAnUnfinishedWord : Obligations.SerRxwKeepsTheBytesOfAnUnfinishedWord := by
  intro s t p h hd hpart _ he hcmd
  obtain ⟨other, -⟩ := exec_serial_frame h rfl he
  obtain ⟨taken, u, read, ending⟩ := receiveRest_reads (4 - s.rxPart.length) h hd
  rw [exec_serRxw] at he
  rw [Host.Outcome.next.inj he] at ending
  cases ending with
  | answers all eq => exact absurd (congrArg State.cmd eq) hcmd
  | waits fewer silent eq =>
    have vain := polledInVain_pollByte (read.read.cfg.symm ▸ h) silent
    rw [← eq] at vain
    obtain ⟨v, -, events⟩ := vain.events
    have all := read.read.queueNow_eq
    rw [silent, List.append_nil] at all
    have part := vain.rxPart.trans read.part
    refine ⟨taken, part, all, ?_, ?_, ?_, ?_, vain.cmd.trans read.cmd, vain.resp.trans read.resp, other⟩
    · rw [part, List.length_append]
      omega
    · rw [vain.now, read.read.now, Nat.add_assoc]
    · rw [events, read.read.events]
      simp only [List.length_append, length_readByteEvents, List.length_singleton, Nat.add_assoc]
    · rw [vain.uart, read.read.uart, List.drop_drop]

/-! ### SER.RXW and four SER.RXB -/

/-- The bytes `bs` are the first that wait at port `p`, in a legal build with DLAB clear. -/
structure Waiting (p : Port) (bs : List Byte) (s : State) : Prop where
  cfgOk : s.cfg.Ok
  dlabClear : dlabSet s.cfg (s.uart p).lcr = false
  queue : bs <+: (s.uart p).rxq

/-- SER.RXB answers the first byte that waits, and the others still wait (43_serial R178). -/
theorem Waiting.exec_serRxb {p : Port} {b : Byte} {bs : List Byte} {s : State} (h : Waiting p (b :: bs) s) :
    ∃ u, exec (.serRxb p) s = .next u ∧ u.resp = some ⟨.ok, b.setWidth 32⟩ ∧ BytesRead p s [b] u ∧ Waiting p bs u := by
  obtain ⟨rest, hrest⟩ := h.queue
  have first : queueNow p s = b :: (bs ++ rest ++ (momentAt p s 0).arrived) := by
    rw [queueNow_eq, ← hrest]
    rfl
  have read := (bytesRead_pollByte h.cfgOk h.dlabClear first).respond .ok (b.setWidth 32)
  refine ⟨_, exec_serRxb_ready (pollByte_ready_byte h.cfgOk h.dlabClear first), rfl, read, read.cfg ▸ h.cfgOk, ?_, ?_⟩
  · rw [read.cfg, read.lcr, h.dlabClear]
  · have queue := read.queue
    rw [← hrest] at queue
    exact ⟨_, (List.append_assoc _ _ _).symm.trans (List.cons.inj queue).2.symm⟩

/-- Settles O49: both read the same four bytes from the same state. -/
theorem serRxwIsFourSerRxb : Obligations.SerRxwIsFourSerRxb := by
  intro s p h hd hpart hlen
  obtain ⟨b0, b1, b2, b3, rest, hq⟩ : ∃ b0 b1 b2 b3 rest, (s.uart p).rxq = [b0, b1, b2, b3] ++ rest := by
    match hq : (s.uart p).rxq with
    | b0 :: b1 :: b2 :: b3 :: rest => exact ⟨b0, b1, b2, b3, rest, rfl⟩
    | [] | [_] | [_, _] | [_, _, _] => simp [hq] at hlen
  have waiting : Waiting p [b0, b1, b2, b3] s := ⟨h, hd, rest, hq.symm⟩
  obtain ⟨u1, exec1, resp1, read1, waiting⟩ := waiting.exec_serRxb
  obtain ⟨u2, exec2, resp2, read2, waiting⟩ := waiting.exec_serRxb
  obtain ⟨u3, exec3, resp3, read3, waiting⟩ := waiting.exec_serRxb
  obtain ⟨u4, exec4, resp4, read4, -⟩ := waiting.exec_serRxb
  have readAll : BytesRead p s [b0, b1, b2, b3] u4 := read1.cons (read2.cons (read3.cons read4))
  obtain ⟨u, read, answer⟩ := receiveRest_answers h hd (need := [b0, b1, b2, b3]) fun k _ =>
    (List.take_prefix _ _).trans (hq ▸ (List.prefix_append _ _).trans (List.prefix_append _ _))
  have completes := exec_serRxw p s
  rw [hpart] at completes
  have readWord := read.read.respond .ok (assembleWord u.cfg.serWordOrder u.rxPart)
  refine ⟨_, u1, u2, u3, u4, b0, b1, b2, b3, exec1, resp1, exec2, resp2, exec3, resp3, exec4, resp4,
    completes.trans (congrArg _ answer), ?_, readWord.uart_unique readAll, readWord.events.trans readAll.events.symm⟩
  rw [State.respond_resp, read.read.cfg, read.part, hpart, List.nil_append]

end Sys2Proof.Machine
end

section
/-! SUPPORT. The statements about LOAD. First what one action of the host does and which of LOAD's actions are reports, then
what stands before the next check of the header (`HeaderAhead`) and that every other step keeps it so. The statements are read
off these. -/

namespace Sys2Proof.Machine

/-! ### One action of the host -/

/-- With no command in progress a host that is not halted takes its first action (10_state R28). -/
theorem step_act {s : State} (hc : s.cmd = none) (hh : s.halted = false) {op : HostOp} {rest : List HostOp}
    (hs : s.host = op :: rest) : step s = hostAct op { s with host := rest } :=
  (step_idle hc).trans (hostTurn_act hh hs)

/-- The value an action of the host finds in the last response; taking the action changes no response. -/
theorem State.lastValue_of_resp {s : State} {r : Response} (h : s.resp = some r) (rest : List HostOp) :
    { s with host := rest }.lastValue = r.value := by
  simp only [State.lastValue, h]

/-- Settles O53: the check's two branches. -/
theorem loadRejectsMoreThanSixteenSegments : Obligations.LoadRejectsMoreThanSixteenSegments := by
  intro s rest hc hh hs
  rw [step_act hc hh hs]
  exact ⟨fun above => congrArg _ (if_pos above), fun within => congrArg _ (if_neg (Nat.not_lt.mpr within))⟩

/-- Settles O55: the comparison's two branches. -/
theorem loadReturnsStartOrRejectsData : Obligations.LoadReturnsStartOrRejectsData := by
  intro s rest hc hh hs
  rw [step_act hc hh hs]
  exact ⟨fun agree => congrArg _ (if_neg (not_not_intro agree)), fun differ => congrArg _ (if_pos differ)⟩

/-- Settles O60: the bound's two branches. -/
theorem loadSegmentsStayInTheAddressSpace : Obligations.LoadSegmentsStayInTheAddressSpace := by
  intro s g rest hc hh hs
  rw [step_act hc hh hs]
  exact ⟨fun inside => if_pos inside, fun past => if_neg (Nat.not_le.mpr past)⟩

/-- A byte just received is stored, and nothing else but the record of the write changes (45_loader_sequence R209). -/
theorem step_store {s : State} {a : Addr} {r : Response} {rest : List HostOp} (hc : s.cmd = none) (hh : s.halted = false)
    (hs : s.host = .store a :: rest) (hr : s.resp = some r) :
    step s = .next (memWrite a (r.value.extractLsb' 0 8) { s with host := rest }) := by
  rw [step_act hc hh hs, hostAct, State.lastValue_of_resp hr rest]

/-- Settles O56: what a copy and a store do, and that a segment of length 0 is inside the address space. -/
theorem loadStoresEachByteInOrder : Obligations.LoadStoresEachByteInOrder := by
  refine ⟨fun s a n rest hc hh hs => step_act hc hh hs, fun s a rest hc hh hs => step_act hc hh hs,
    fun s a rest hc hh hs => ?_, fun s a r rest hc hh hw hs hr => ⟨_, step_store hc hh hs hr, ?_, ?_, ?_, rfl⟩⟩
  · have inside := (loadSegmentsStayInTheAddressSpace s ⟨a, 0⟩ rest hc hh hs).1
    exact inside (Nat.le_of_lt a.isLt)
  · exact memWrite_read_same a _ (by exact hw)
  · exact fun b hb => memWrite_read_other _ _ hb
  · exact State.busEvents_emit _ _ (by simp)

/-! ### Reports -/

/-- The commands of a report are well-formed CON commands, given or free (45_loader_sequence R213). -/
theorem mem_reportCommands {s : State} {i : Instr} (h : i ∈ reportCommands s) : i.isCon = true ∧ i.wf = true :=
  Bool.and_eq_true_iff.mp (List.mem_filter.mp h).2

/-- Settles O58: the commands are those of the next report. -/
theorem reportsAreConsoleCommands : Obligations.ReportsAreConsoleCommands := by
  intro s rest hc hh hs
  exact ⟨reportCommands { s with host := rest }, fun i hi => mem_reportCommands hi, step_act hc hh hs⟩

theorem withReports_append (ops ops' : List HostOp) : withReports (ops ++ ops') = withReports ops ++ withReports ops' :=
  List.flatMap_append

/-- An action among reports is a report or one of those they stand before. -/
theorem mem_withReports {op : HostOp} {ops : List HostOp} (h : op ∈ withReports ops) : op = .report ∨ op ∈ ops := by
  obtain ⟨o, ho, hop⟩ := List.mem_flatMap.mp h
  simp only [List.mem_cons, List.not_mem_nil, or_false] at hop
  rcases hop with rfl | rfl
  · exact .inl rfl
  · exact .inr ho

/-- Reports put before actions leave the actions as they are (90_conflicts C11). -/
theorem filter_withReports (ops : List HostOp) :
    (withReports ops).filter (fun o => decide (o ≠ .report)) = ops.filter fun o => decide (o ≠ .report) := by
  induction ops with
  | nil => rfl
  | cons o ops ih =>
    show ([.report, o] ++ withReports ops).filter _ = ([o] ++ ops).filter _
    rw [List.filter_append, List.filter_append, ih]
    rfl

/-- The segments' copies with their reports are the copies (45_loader_sequence R209, R213). -/
theorem payloadOps_eq (segs : List Segment) : payloadOps segs =
    withReports (segs.map .segment) ++ [.command (encode .crcReset)] ++
      segs.map (fun g => .command (encode (.crcBuf g.dest g.len))) ++ [.digest .dataDigest, .checkData] := by
  unfold payloadOps withReports
  rw [List.flatMap_map]

theorem filter_report_map {α : Type} (f : α → HostOp) (hf : ∀ x, f x ≠ .report) (xs : List α) :
    (xs.map f).filter (fun o => decide (o ≠ .report)) = xs.map f :=
  List.filter_eq_self.mpr fun o ho => by
    obtain ⟨x, -, rfl⟩ := List.mem_map.mp ho
    exact decide_eq_true (hf x)

/-- Settles O54: the comparison's two branches, and the actions of an accepted header without their reports. -/
theorem loadRejectsWrongHeaderChecksum : Obligations.LoadRejectsWrongHeaderChecksum := by
  refine ⟨fun s rest hc hh hs => ?_, fun segs => ?_⟩
  · rw [step_act hc hh hs]
    exact ⟨fun differ => congrArg _ (if_pos differ), fun agree => congrArg _ (if_neg (not_not_intro agree))⟩
  · rw [payloadOps_eq]
    simp only [List.filter_append, filter_withReports]
    rw [filter_report_map _ (fun _ => HostOp.noConfusion), filter_report_map _ (fun _ => HostOp.noConfusion)]
    rfl

/-! ### The variables of LOAD -/

theorem Loader.get_set_eq (l : Loader) (x y : LoadVar) (v : Word) :
    (l.set x v).get y = if y = x then v else l.get y := by
  split
  · next same => rw [same, Loader.get_set]
  · next other => exact l.get_set_other other v

@[simp] theorem Loader.set_port (l : Loader) (x : LoadVar) (v : Word) : (l.set x v).port = l.port := by cases x <;> rfl

/-! ### What stands before the next check of the header -/

/-- Header actions alone stand before the next check of the count or of the header (45_loader_sequence R204, R208): the
list's part of `State.InHeader`. -/
def HeaderAhead (ops : List HostOp) : Prop :=
  ∃ before check rest, ops = before ++ check :: rest ∧ (check = .checkCount ∨ check = .checkHeader) ∧
    ∀ op ∈ before, headerAction op = true

/-- The actions of a host before the check: the check itself, or a header action and the host is still before the check. -/
theorem HeaderAhead.cases {ops : List HostOp} (h : HeaderAhead ops) : ∃ op rest, ops = op :: rest ∧
    (op = .checkCount ∨ op = .checkHeader ∨ (headerAction op = true ∧ HeaderAhead rest)) := by
  obtain ⟨before, check, rest, rfl, hcheck, hbefore⟩ := h
  cases before with
  | nil => exact ⟨check, rest, rfl, hcheck.imp_right .inl⟩
  | cons op before =>
    obtain ⟨hop, hbefore⟩ := List.forall_mem_cons.mp hbefore
    exact ⟨op, before ++ check :: rest, rfl, .inr (.inr ⟨hop, before, check, rest, rfl, hcheck, hbefore⟩)⟩

theorem HeaderAhead.append {ops pre : List HostOp} (h : HeaderAhead ops) (hpre : ∀ op ∈ pre, headerAction op = true) :
    HeaderAhead (pre ++ ops) := by
  obtain ⟨before, check, rest, rfl, hcheck, hbefore⟩ := h
  exact ⟨pre ++ before, check, rest, (List.append_assoc _ _ _).symm, hcheck,
    List.forall_mem_append.mpr ⟨hpre, hbefore⟩⟩

theorem headerAction_command_iff {w : Command} :
    headerAction (.command w) = true ↔ ∃ i, decode w = .ok i ∧ (i.isCon = true ∨ i = .crcReset) := by
  cases hd : decode w <;> simp [headerAction, hd]

theorem headerAction_crcReset : headerAction (.command (encode .crcReset)) = true :=
  headerAction_command_iff.mpr ⟨_, decodeEncodeGivesBackWellFormed _ rfl, .inr rfl⟩

theorem headerAction_report_command {s : State} {op : HostOp}
    (h : op ∈ (reportCommands s).map fun i => HostOp.command (encode i)) : headerAction op = true := by
  obtain ⟨i, hi, rfl⟩ := List.mem_map.mp h
  obtain ⟨hcon, hwf⟩ := mem_reportCommands hi
  exact headerAction_command_iff.mpr ⟨i, decodeEncodeGivesBackWellFormed i hwf, .inl hcon⟩

theorem headerAction_withReports {ops : List HostOp} (h : ∀ op ∈ ops, headerAction op = true) :
    ∀ op ∈ withReports ops, headerAction op = true := by
  intro op hop
  rcases mem_withReports hop with rfl | hmem
  · rfl
  · exact h op hmem

/-- LOAD begins with header actions up to the check of the count (45_loader_sequence R204 step 1). -/
theorem headerAhead_loadOps (rest : List HostOp) : HeaderAhead (loadOps ++ rest) := by
  refine ⟨[.command (encode .crcReset), .recvWord .start, .fold .start, .recvWord .count, .report, .fold .count, .report],
    .checkCount, rest, rfl, .inl rfl, List.forall_mem_cons.mpr ⟨headerAction_crcReset, ?_⟩⟩
  decide

/-- The fields of the header from an accepted count to the check of the header, without reports (45_loader_sequence R205). -/
def headerFields (n : Nat) : List HostOp :=
  (List.replicate n pairOps).flatten ++ [.recvWord .dataSum, .fold .dataSum, .digest .headerDigest, .recvWord .headerSum]

theorem headerOps_eq (n : Nat) : headerOps n = withReports (headerFields n ++ [.checkHeader]) := by
  unfold headerOps headerFields
  rw [List.append_assoc]
  rfl

/-- What holds of each field of a pair and of the last fields holds of every field of the header. -/
theorem forall_mem_headerFields {P : HostOp → Prop} (pair : ∀ op ∈ pairOps, P op)
    (last : ∀ op ∈ [.recvWord .dataSum, .fold .dataSum, .digest .headerDigest, .recvWord .headerSum], P op) (n : Nat) :
    ∀ op ∈ headerFields n, P op := by
  refine List.forall_mem_append.mpr ⟨fun op hop => ?_, last⟩
  obtain ⟨ops, hops, hmem⟩ := List.mem_flatten.mp hop
  rw [List.eq_of_mem_replicate hops] at hmem
  exact pair op hmem

theorem headerAction_headerFields (n : Nat) : ∀ op ∈ headerFields n, headerAction op = true :=
  forall_mem_headerFields (by decide) (by decide) n

theorem ne_report_of_mem_headerFields (n : Nat) : ∀ op ∈ headerFields n, op ≠ .report :=
  forall_mem_headerFields (by decide) (by decide) n

/-- An accepted count goes on with header actions up to the check of the header (45_loader_sequence R204 steps 1 and 2). -/
theorem headerAhead_headerOps (n : Nat) (rest : List HostOp) : HeaderAhead (headerOps n ++ rest) := by
  have check : HeaderAhead (withReports [.checkHeader] ++ rest) := ⟨[.report], _, rest, rfl, .inr rfl, by decide⟩
  rw [headerOps_eq, withReports_append, List.append_assoc]
  exact check.append (headerAction_withReports (headerAction_headerFields n))

/-! ### Steps before the check of the header -/

theorem headerCommand_of_isCon {i : Instr} (h : i.isCon = true) (p : Port) : headerCommand p i = true := by
  cases i with
  | conClear | conSetpos a | conFg a | conBg a | conPutc a => rfl
  | _ => cases h

theorem State.InHeader.headerAhead {s : State} (h : s.InHeader) : HeaderAhead s.host := h.ahead

/-- Delivering a header command keeps the host before the check. -/
theorem State.InHeader.deliver {s : State} (h : s.InHeader) {i : Instr} {w : Command} (hd : decode w = .ok i)
    (hi : headerCommand s.loader.port i = true) : (s.deliver w).InHeader where
  running := h.running
  notHalted := h.notHalted
  ahead := h.ahead
  command v hv := by
    cases hv
    exact ⟨i, hd, hi⟩

/-- Header actions put in front keep the host before the check. -/
theorem State.InHeader.first {s : State} (h : s.InHeader) {ops : List HostOp}
    (hops : ∀ op ∈ ops, headerAction op = true) : (s.first ops).InHeader :=
  ⟨h.running, h.notHalted, h.headerAhead.append hops, h.command⟩

/-- The other variables of LOAD may change while the port is kept. -/
theorem State.InHeader.setLoader {s : State} (h : s.InHeader) {l : Loader} (hl : l.port = s.loader.port) :
    { s with loader := l }.InHeader :=
  ⟨h.running, h.notHalted, h.ahead, fun w hw => by rw [hl]; exact h.command w hw⟩

/-- A header action keeps the host before the check (45_loader_sequence R204 steps 1 and 2). -/
theorem hostAct_inHeader {op : HostOp} {s t : State} (h : s.InHeader) (hop : headerAction op = true)
    (ht : hostAct op s = .next t) : t.InHeader := by
  have take (x : LoadVar) : (s.first [.take x]).InHeader := h.first (List.forall_mem_singleton.mpr rfl)
  cases op with
  | command w =>
    cases ht
    obtain ⟨i, hd, hcon | rfl⟩ := headerAction_command_iff.mp hop
    · exact h.deliver hd (headerCommand_of_isCon hcon _)
    · exact h.deliver hd rfl
  | recvWord x => cases ht; exact (take x).deliver (decodeEncodeGivesBackWellFormed _ rfl) (decide_eq_true rfl)
  | digest x => cases ht; exact (take x).deliver (decodeEncodeGivesBackWellFormed _ rfl) rfl
  | take x => cases ht; exact h.setLoader (Loader.set_port _ _ _)
  | fold x => cases ht; exact h.deliver (decodeEncodeGivesBackWellFormed _ rfl) rfl
  | addSegment => cases ht; exact h.setLoader rfl
  | report =>
    cases ht
    have counted : { s with reports := s.reports.tail, reportNo := s.reportNo + 1 }.InHeader :=
      ⟨h.running, h.notHalted, h.ahead, h.command⟩
    exact counted.first fun op => headerAction_report_command
  | _ => cases hop

/-- The host's step before the check of the header stays before it, or takes a check that ends this part. -/
theorem step_idle_inHeader {s t : State} (h : s.InHeader) (hc : s.cmd = none) (ht : step s = .next t) :
    t.InHeader ∨ (∃ rest, s.host = .checkHeader :: rest) ∨
      (16 < s.loader.count.toNat ∧ ∃ rest, s.host = .checkCount :: rest) := by
  obtain ⟨op, rest, hs, rfl | rfl | ⟨hop, hrest⟩⟩ := h.headerAhead.cases
  · by_cases above : 16 < s.loader.count.toNat
    · exact .inr (.inr ⟨above, rest, hs⟩)
    · have accepted := (loadRejectsMoreThanSixteenSegments s rest hc h.notHalted hs).2 (Nat.not_lt.mp above)
      rw [accepted] at ht
      cases ht
      exact .inl ⟨h.running, h.notHalted, headerAhead_headerOps _ rest, h.command⟩
  · exact .inr (.inl ⟨rest, hs⟩)
  · rw [step_act hc h.notHalted hs] at ht
    have next : { s with host := rest }.InHeader := ⟨h.running, h.notHalted, hrest, h.command⟩
    exact .inl (hostAct_inHeader next hop ht)

/-- The host's step before the check of the header stores nothing (45_loader_sequence R208). -/
theorem step_idle_inHeader_quiet {s t : State} (h : s.InHeader) (hc : s.cmd = none) (ht : step s = .next t) :
    t.mem = s.mem ∧ t.hist = s.hist := by
  cases step_idleStep hc ht with
  | quiet only part => exact ⟨by rw [only], by rw [only]⟩
  | stores a v rest hop eq =>
    exfalso
    obtain ⟨op, rest', hs, hcases⟩ := h.headerAhead.cases
    rcases hop with hstore | ⟨hwrite, -⟩
    · obtain ⟨rfl, -⟩ := List.cons.inj (hs.symm.trans hstore)
      simp [headerAction] at hcases
    · obtain ⟨rfl, -⟩ := List.cons.inj (hs.symm.trans hwrite)
      simp [headerAction] at hcases

/-- A step of a command keeps the host before the check (10_state R28). -/
theorem exec_inHeader {i : Instr} {s t : State} (h : s.InHeader) (he : exec i s = .next t) : t.InHeader := by
  have host := (exec_frame he).host
  refine ⟨host.load.trans h.running, host.halted.trans h.notHalted, host.host ▸ h.ahead, fun w hw => ?_⟩
  rw [host.loader]
  rcases (exec_ran he).goes_on_or_ends with ⟨goesOn, -⟩ | ⟨ends, -⟩
  · exact h.command w (goesOn ▸ hw)
  · rw [ends] at hw
    cases hw

/-- A CON command but CON.CLEAR completes only once the console is initialised (10_state R27). -/
theorem validCon_of_exec_con {i : Instr} {s t : State} (hi : i.isCon = true) (hne : i ≠ .conClear)
    (he : exec i s = .next t) : s.validCon = true := by
  cases i with
  | conClear => exact absurd rfl hne
  | conSetpos a => exact (of_guard he).1
  | conFg a => exact (of_guard he).1
  | conBg a => exact (of_guard he).1
  | conPutc a => exact (of_guard he).1
  | _ => cases hi

/-- No command changes a byte of memory outside the cell array (10_state R26). -/
theorem exec_read_outside {i : Instr} {s t : State} (h : s.Inv) (he : exec i s = .next t) {a : Addr}
    (ha : ¬ inCellArray s.cfg a) : t.mem.read a.toNat = s.mem.read a.toNat := by
  cases hi : i.isCon with
  | false => rw [(exec_screenKept h.cfgOk hi he).mem]
  | true =>
    by_cases hclear : i = .conClear
    · subst hclear
      obtain ⟨-, outside, -⟩ := clearScreen_spec h.cfgOk h.memWf
      rw [exec_conClear] at he
      rw [← Host.Outcome.next.inj he, State.respond_mem]
      exact outside a ha
    · have onScreen := h.posOnScreen (validCon_of_exec_con hi hclear he)
      exact (exec_con_consoleWork h.cfgOk h.memWf hi he).outside onScreen a ha

/-- A SER.RXB is no header command (45_loader_sequence R208). -/
theorem State.InHeader.not_serRxb {s : State} (h : s.InHeader) (q : Port) : s.cmd ≠ some (encode (.serRxb q)) := by
  intro hc
  obtain ⟨i, hd, hi⟩ := h.command _ hc
  rw [decodeEncodeGivesBackWellFormed _ rfl] at hd
  cases hd
  cases hi

/-- What every step before the check of the header does: the second clause of O57. -/
theorem step_inHeader {s t : State} (hinv : s.Inv) (h : s.InHeader) (ht : step s = .next t) :
    (t.InHeader ∨ (s.cmd = none ∧ ∃ rest, s.host = .checkHeader :: rest) ∨
      (s.cmd = none ∧ 16 < s.loader.count.toNat ∧ ∃ rest, s.host = .checkCount :: rest)) ∧
    ∀ a : Addr, ¬ inCellArray s.cfg a → t.mem.read a.toNat = s.mem.read a.toNat := by
  cases hc : s.cmd with
  | none =>
    exact ⟨(step_idle_inHeader h hc ht).imp_right (.imp (⟨rfl, ·⟩) (⟨rfl, ·⟩)),
      fun a _ => by rw [(step_idle_inHeader_quiet h hc ht).1]⟩
  | some w =>
    obtain ⟨i, hd, -⟩ := h.command w hc
    rw [step_command hc, runCommand_ok hd] at ht
    exact ⟨.inl (exec_inHeader h ht), fun a ha => exec_read_outside hinv ht ha⟩

/-- LOAD begins before the check of its header (45_loader_sequence R204). -/
theorem beginLoad_inHeader {s : State} (hc : s.cmd = none) (hh : s.halted = false) (p : Port) :
    (beginLoad p s).InHeader :=
  ⟨rfl, hh, headerAhead_loadOps s.host, fun w hw => by cases hc.symm.trans hw⟩

/-- The fields of the header for `n` segments, its reports left out (45_loader_sequence R205). -/
theorem filter_headerOps (n : Nat) :
    (headerOps n).filter (fun o => decide (o ≠ .report)) = headerFields n ++ [.checkHeader] := by
  rw [headerOps_eq, filter_withReports, List.filter_append, List.filter_eq_self.mpr fun o ho =>
    decide_eq_true (ne_report_of_mem_headerFields n o ho)]
  rfl

/-- Settles O57, from what a step before the check does and what the list of LOAD's actions is. -/
theorem headerComesBeforeAnyPayloadByte : Obligations.HeaderComesBeforeAnyPayloadByte := by
  refine ⟨fun s p rest hc hh hs => ?_, fun s t hinv h ht => ?_, rfl, fun n => ?_, fun s x rest hc hh => ?_,
    fun l x y v => ⟨l.get_set_eq x y v, l.set_port x v, l.set_segs x v⟩⟩
  · exact ⟨_, step_act hc hh hs, beginLoad_inHeader (by exact hc) (by exact hh) p, rfl⟩
  · obtain ⟨stays, outside⟩ := step_inHeader hinv h ht
    exact ⟨stays, outside, fun hc => step_idle_inHeader_quiet h hc ht, h.not_serRxb⟩
  · rw [filter_headerOps, headerFields, List.append_assoc]
    rfl
  · refine ⟨fun hs => step_act hc hh hs, fun hs => step_act hc hh hs, fun r hs hr => ?_,
      fun hs => step_act hc hh hs, fun hs => step_act hc hh hs⟩
    rw [step_act hc hh hs, hostAct, State.lastValue_of_resp hr rest]

end Sys2Proof.Machine
end

section
/-! SUPPORT. The statements about exceptional outcomes: how a step of a command can end (`StepResult`), the two fields of the
response word, and that a halted machine is a fixed point of the step. -/

namespace Sys2Proof.Machine

/-! ### Error outcomes -/

/-- What a decoded command is refused for, with the status and the value of its answer: the two rows of 60_exceptions R230
that are not the decoder's. -/
inductive Rejected : Instr → Status → Word → Prop where
  | position {a : Word} (offScreen : Config.cells ≤ a.toNat) : Rejected (.conSetpos a) .errPosition a
  | baud {a : Word} {p : Port} (invalid : baudValid a ≠ true) : Rejected (.serBaud a p) .errBaud a

/-- How a completed step of a command leaves it: still in progress, answered OK, or raised as an error from the state in
which the step began (60_exceptions R235). -/
inductive StepResult (i : Instr) (s t : State) : Prop where
  | waits (cmd : t.cmd = s.cmd)
  | accepts (u : State) (v : Word) (eq : t = u.respond .ok v)
  | rejects (st : Status) (v : Word) (rejected : Rejected i st v) (eq : t = s.raise st v)

/-- SER.RXW answers OK or goes on waiting (43_serial R180). -/
theorem receiveRest_stepResult (p : Port) (s : State) :
    StepResult (.serRxw p) s (receiveRest p (4 - s.rxPart.length) s) := by
  have outcome := receiveRest_cases (P := fun u => u.cmd = s.cmd) (p := p)
    (fun u hu => (kept_pollByte p u).cmd.trans hu) (fun _ _ hu => hu) (4 - s.rxPart.length) rfl
  rcases outcome with ⟨cmd, -⟩ | ⟨u, v, -, eq⟩
  · exact .waits cmd
  · exact .accepts u v eq

/-- Of the fourteen commands only CON.SETPOS and SER.BAUD can answer other than OK, each when its operand is out of
range and before it does anything (60_exceptions R230, R235). -/
theorem exec_stepResult {i : Instr} {s t : State} (h : exec i s = .next t) : StepResult i s t := by
  cases i with
  | crcReset | conClear | serReset _ => exact .accepts _ _ (Host.Outcome.next.inj h).symm
  | crcByte _ | crcWord _ | crcFinal | conFg _ | conBg _ | conPutc _ =>
    obtain ⟨-, ⟨⟩⟩ := of_guard h
    exact .accepts _ _ rfl
  | crcBuf a b =>
    obtain ⟨-, ⟨⟩⟩ := of_guard (of_guard h).2
    exact .accepts _ _ rfl
  | conSetpos a =>
    obtain ⟨-, h⟩ := of_guard h
    by_cases offScreen : Config.cells ≤ a.toNat
    · rw [if_pos offScreen] at h
      exact .rejects _ _ (.position offScreen) (Host.Outcome.next.inj h).symm
    · rw [if_neg offScreen] at h
      exact .accepts _ _ (Host.Outcome.next.inj h).symm
  | serBaud a p =>
    by_cases valid : baudValid a = true
    · rw [exec_serBaud_valid valid] at h
      exact .accepts _ _ (Host.Outcome.next.inj h).symm
    · rw [exec_serBaud_invalid valid] at h
      exact .rejects _ _ (.baud valid) (Host.Outcome.next.inj h).symm
  | serRxb p =>
    cases polled : (pollByte p s).1 with
    | some b =>
      rw [exec_serRxb_ready polled] at h
      exact .accepts _ _ (Host.Outcome.next.inj h).symm
    | none =>
      rw [exec_serRxb_waits polled] at h
      exact .waits (Host.Outcome.next.inj h ▸ (kept_pollByte p s).cmd)
  | serRxw p =>
    rw [exec_serRxw] at h
    exact Host.Outcome.next.inj h ▸ receiveRest_stepResult p s

/-- A command that ends with an error status was refused, and its whole effect is the raise. -/
theorem rejected_of_error {i : Instr} {s t : State} {r : Response} (hc : s.cmd = some (encode i)) (he : exec i s = .next t)
    (ends : t.cmd = none) (answer : t.resp = some r) (error : r.status ≠ .ok) :
    Rejected i r.status r.value ∧ t = s.raise r.status r.value := by
  cases exec_stepResult he with
  | waits cmd => cases hc.symm.trans (cmd.symm.trans ends)
  | accepts u v eq =>
    subst eq
    cases answer
    exact absurd rfl error
  | rejects st v rejected eq =>
    subst eq
    cases answer
    exact ⟨rejected, rfl⟩

theorem responseWord_value (r : Response) : (responseWord r).extractLsb' 0 32 = r.value :=
  BitVec.extractLsb'_append_eq_right

theorem responseWord_status (r : Response) : (responseWord r).extractLsb' 32 8 = statusCode r.status :=
  BitVec.extractLsb'_append_eq_left

/-- Settles O15: an error is one of the two refusals, and the response word is its two fields side by side. -/
theorem errorOutcomesArePrecise : Obligations.ErrorOutcomesArePrecise := by
  refine ⟨fun i s t r hc he ends answer error => ?_, fun r => ⟨responseWord_value r, ?_⟩, rfl, rfl, rfl⟩
  · obtain ⟨rejected, eq⟩ := rejected_of_error hc he ends answer error
    refine ⟨eq, ?_⟩
    obtain ⟨st, v⟩ := r
    cases rejected with
    | position offScreen => exact .inl ⟨rfl, rfl, offScreen⟩
    | baud invalid => exact .inr ⟨rfl, _, rfl, mt (baudValid_iff v).mpr invalid⟩
  · rw [responseWord_status]
    cases r.status <;> rfl

/-! ### The halt -/

/-- A halted host with no command in progress leaves the whole state as it is (60_exceptions R240, R241; log 18). -/
theorem step_halted {s : State} (hc : s.cmd = none) (hh : s.halted = true) : step s = .next s :=
  (step_idle hc).trans (if_pos hh)

/-- A run of one step more is the step and then the run. -/
theorem run_succ {M : Host.Core} {s t : M.State} (h : M.step s = .next t) (n : Nat) : M.run (n + 1) s = M.run n t := by
  rw [Host.Core.run, h]

/-- A state that a step leaves as it is is left so by any number of steps. -/
theorem run_of_step_self {M : Host.Core} {s : M.State} (h : M.step s = .next s) (n : Nat) : M.run n s = .next s := by
  induction n with
  | zero => rfl
  | succ n ih => exact (run_succ h n).trans ih

/-- Settles O59: the host's action `halt`, and the fixed point it ends in. -/
theorem haltIsForEver : Obligations.HaltIsForEver :=
  ⟨fun _ _ hc hh hs => step_act hc hh hs,
    fun _ n hc hh => run_of_step_self (M := Sys2Proof.core) (step_halted hc hh) n⟩

end Sys2Proof.Machine
end

section
/-! SUPPORT. The statements about reset and hazards: the first byte of SER.RESET under DLAB (70_reset R271), and a receive
command on a silent line, whose polls are composed one at a time (`SilentPolls`) into a run of any length (70_reset R275). -/

namespace Sys2Proof.Machine

/-! ### SER.RESET with DLAB found set -/

/-- With DLAB set the first byte of SER.RESET reaches the high divisor latch in place of IER (70_reset R271). -/
theorem uart_serReset_of_dlabSet {s t : State} {p : Port} (h : s.cfg.Ok) (hd : dlabSet s.cfg (s.uart p).lcr = true)
    (he : exec (.serReset p) s = .next t) :
    t.uart p = { s.uart p with
      dlm := s.cfg.ierAllOff, lcr := s.cfg.lcr8n1, fcr := s.cfg.fcrResetEnable, fifoOn := true, rxq := [], txq := []
      line := (s.uart p).line.drop 3 } := by
  rw [exec_serReset] at he
  rw [← Host.Outcome.next.inj he]
  simp [resetUart_eq h, hd]

/-- Settles O40: the first SER.RESET leaves the line 8N1, so DLAB is clear and the second is that of
`serResetConfiguresTheUart`. -/
theorem serResetWithDlabSetIsRepairedByASecond : Obligations.SerResetWithDlabSetIsRepairedByASecond := by
  intro s p h hd
  obtain ⟨t, first⟩ : ∃ t, exec (.serReset p) s = .next t := ⟨_, exec_serReset p s⟩
  have cfg : t.cfg = s.cfg := (exec_frame first).host.cfg
  have uart := uart_serReset_of_dlabSet h hd first
  have dlabClear : dlabSet t.cfg (t.uart p).lcr = false := by rw [uart, cfg, dlabSet_8n1 h]
  obtain ⟨u, second, -, uart', -⟩ := serResetConfiguresTheUart t p (cfg ▸ h) dlabClear
  refine ⟨t, u, first, ?_, ?_, ?_, ?_, second, ?_, ?_⟩ <;> simp only [uart', uart, cfg]

/-! ### A receive command on a silent line -/

/-- A receive command on port `p` is in progress, with bytes still to come and none waiting. -/
structure Receiving (p : Port) (i : Instr) (s : State) : Prop where
  cfgOk : s.cfg.Ok
  short : s.rxPart.length < 4
  receives : i = .serRxb p ∨ i = .serRxw p
  cmd : s.cmd = some (encode i)
  empty : (s.uart p).rxq = []

/-- From `s` on a receive command polled port `p` once at each of the moments `ms` and found nothing: `t` differs from `s`
in the reads of LSR and in the moments used up (43_serial R184). -/
structure SilentPolls (p : Port) (s : State) (ms : List Config.Moment) (t : State) : Prop where
  cfg : t.cfg = s.cfg
  cmd : t.cmd = s.cmd
  resp : t.resp = s.resp
  rxPart : t.rxPart = s.rxPart
  events : Events s t (ms.map fun m => .inp (reg s.cfg p .lsr) (m.lsr &&& ~~~s.cfg.lsrDr))
  uart : t.uart p = { s.uart p with line := (s.uart p).line.drop ms.length }

theorem SilentPolls.refl (p : Port) (s : State) : SilentPolls p s [] s :=
  ⟨rfl, rfl, rfl, rfl, (List.append_nil _).symm, rfl⟩

theorem SilentPolls.cons {p : Port} {s u t : State} {m : Config.Moment} {ms : List Config.Moment}
    (h : SilentPolls p s [m] u) (k : SilentPolls p u ms t) : SilentPolls p s (m :: ms) t where
  cfg := k.cfg.trans h.cfg
  cmd := k.cmd.trans h.cmd
  resp := k.resp.trans h.resp
  rxPart := k.rxPart.trans h.rxPart
  events := by
    unfold Events
    rw [k.events, h.events, h.cfg, List.append_assoc]
    rfl
  uart := by
    rw [k.uart, h.uart]
    simp only [List.drop_drop, List.length_cons, List.length_nil, Nat.zero_add, Nat.add_comm]

/-- A silent poll leaves the command as far as it was. -/
theorem Receiving.after_silence {p : Port} {i : Instr} {s t : State} {ms : List Config.Moment} (h : Receiving p i s)
    (k : SilentPolls p s ms t) : Receiving p i t where
  cfgOk := k.cfg ▸ h.cfgOk
  short := k.rxPart ▸ h.short
  receives := h.receives
  cmd := k.cmd.trans h.cmd
  empty := by rw [k.uart, h.empty]

/-- The step of a receive command that finds nothing is one poll (43_serial R178, R180; log 9). -/
theorem Receiving.step_waits {p : Port} {i : Instr} {s : State} (h : Receiving p i s) (hq : queueNow p s = []) :
    step s = .next (pollByte p s).2 := by
  have silent := pollByte_waits_byte h.cfgOk hq
  have wf : i.wf = true := by
    rcases h.receives with rfl | rfl <;> rfl
  rw [step_command h.cmd, runCommand_ok (decode_eq_ok_iff.mpr ⟨wf, rfl⟩)]
  rcases h.receives with rfl | rfl
  · exact exec_serRxb_waits silent
  · obtain ⟨n, more⟩ : ∃ n, 4 - s.rxPart.length = n + 1 := ⟨3 - s.rxPart.length, by have := h.short; omega⟩
    rw [exec_serRxw, more, receiveRest_waits silent]

/-- LSR with nothing waiting is the environment's bits with data ready clear (43_serial R182 b). -/
theorem lsrValue_nil (c : Config.Params) (other : Byte) : lsrValue c other [] = other &&& ~~~c.lsrDr := by
  simp [lsrValue]

/-- One step at a moment that brings no byte is one silent poll. -/
theorem Receiving.step_silent {p : Port} {i : Instr} {s : State} {m : Config.Moment} {rest : List Config.Moment}
    (h : Receiving p i s) (hl : (s.uart p).line = m :: rest) (hm : m.arrived = []) :
    ∃ t, step s = .next t ∧ SilentPolls p s [m] t := by
  have now : momentAt p s 0 = m := by rw [momentAt_zero, momentOf, hl]
  have hq : queueNow p s = [] := by rw [queueNow_eq, h.empty, now, hm, List.append_nil]
  have vain := polledInVain_pollByte h.cfgOk hq
  refine ⟨_, h.step_waits hq, ?_, vain.cmd, vain.resp, vain.rxPart, ?_, ?_⟩
  · simp [pollByte_waits h.cfgOk p hq]
  · rw [pollByte_waits h.cfgOk p hq, now, lsrValue_nil]
    exact (events_setUart s p _).inp _ _
  · rw [vain.uart, ← h.empty]
    rfl

/-- A line silent for the moments `ms` is polled once for each, however many they are (70_reset R275). -/
theorem Receiving.run_silent {p : Port} {i : Instr} {ms later : List Config.Moment} {s : State} (h : Receiving p i s)
    (hl : (s.uart p).line = ms ++ later) (hms : ∀ m ∈ ms, m.arrived = []) :
    ∃ t, Sys2Proof.core.run ms.length s = .next t ∧ SilentPolls p s ms t := by
  induction ms generalizing s with
  | nil => exact ⟨s, rfl, .refl p s⟩
  | cons m ms ih =>
    obtain ⟨arrives, silent⟩ := List.forall_mem_cons.mp hms
    obtain ⟨u, hu, poll⟩ := h.step_silent hl arrives
    have line : (u.uart p).line = ms ++ later := by rw [poll.uart, hl]; rfl
    obtain ⟨t, ht, polls⟩ := ih (h.after_silence poll) line silent
    exact ⟨t, (run_succ (M := Sys2Proof.core) hu _).trans ht, poll.cons polls⟩

/-- Settles O51: each silent poll leaves the command in progress with one moment less on the line, so they add up. -/
theorem noTimeOut : Obligations.NoTimeOut := by
  intro s p i ms later h short receives cmd empty silent line
  obtain ⟨t, ht, polls⟩ := Receiving.run_silent ⟨h, short, receives, cmd, empty⟩ line silent
  refine ⟨t, ht, polls.cmd, polls.resp, polls.rxPart, polls.events, ?_⟩
  rw [polls.uart, line, List.drop_left]

end Sys2Proof.Machine
end
